-- ==== Sys2Proof/Word.lean ====
section
/-!
DEFINITION. The units of storage of bignum CORE: the 32-bit word (R6), the byte of the string buffer (R40), and the wide
value, a sequence of words with word 0 the least significant (R10).
-/

namespace Sys2Proof

/-- "a 32-bit unsigned unit of storage" (R6, R19). -/
abbrev Word := BitVec 32

/-- One character of the string buffer (R34, R40, R43). -/
abbrev Byte := BitVec 8

/-- A wide value: its words, word 0 (the least significant) first; its width n is the number of its words (R10, R20). It
carries no signedness (R11). -/
abbrev Wide := List Word

/-- The number of a wide register: x0 to x7, no aliases, none hardwired (R21). -/
abbrev Reg := Fin 8

end Sys2Proof
end

