-- ==== Sys2Proof/Config.lean ====
section
/-!
DEFINITION. What an implementation fixes (the parameters of R7, bounded by R8) and the values the spec leaves open, as
constants with no body: nothing in Lean can evaluate one or prove a value of it.
-/

namespace Sys2Proof

/-- The parameters of R7 that a model takes as an argument; NREG = 8 and MSB_NONE are fixed. A state carries its own
(log 1), so that every statement over states holds for every setting. -/
structure Config where
  /-- NMAX, the largest width tag a register may carry, in words. -/
  nmax : Nat
  /-- SBSIZE, the size of the string buffer in bytes. -/
  sbsize : Nat
  /-- HEX_UPPER_IN, whether FROMHEX accepts A to F and 0X (R147). -/
  hexUpperIn : Bool
deriving DecidableEq, Repr

/-- The ranges of R7 and R8: 2 ≤ NMAX ≤ 255 and 1 ≤ SBSIZE ≤ 65535. -/
def Config.wf (c : Config) : Bool :=
  decide (2 ≤ c.nmax ∧ c.nmax ≤ 255 ∧ 1 ≤ c.sbsize ∧ c.sbsize ≤ 65535)

/-- HEX_UPPER_IN of the block after reset: OPEN, no default (R7, R147; log 1). -/
opaque Config.openHexUpperIn : Bool

/-- The defaults of R7. -/
def Config.standard : Config :=
  { nmax := 16, sbsize := 1024, hexUpperIn := Config.openHexUpperIn }

/-- Word `idx` of the unspecified wide value of draw number `draw`: what FXFROMD writes for an infinity or a NaN
(R161; log 8). -/
opaque Config.freeWord (draw idx : Nat) : Word

/-- The unspecified RES of draw number `draw`: what FXTOD writes when the exponent leaves 1..2046 (R163; log 9). -/
opaque Config.freeRes (draw : Nat) : BitVec 64

end Sys2Proof
end

