-- ==== Sys2Proof/Machine/State.lean ====
section
/-!
DEFINITION. The state of bignum CORE as plain data (`10_state.md`, `20_memory.md`, `70_reset_and_hazards.md`), the status
codes of a command, the reasons a step could stop, and the state after reset.
-/

namespace Sys2Proof.Machine

open Sys2Proof

/-- A wide register (R21): a valid bit and the words w[0..n−1] of its value. The width tag n is the number of words held
(`WReg.n`); words at index n and above cannot be observed and are not held (log 4). -/
structure WReg where
  valid : Bool
  w : Wide
deriving DecidableEq, Repr

/-- The string buffer SB as a list of cells in canonical form: addresses strictly rising, no entry equal to what an unlisted
byte reads as (`Memory.wf`; log 3). -/
abbrev Memory := List Host.Cell

/-- What the host drives onto the command port: a 32-bit word (R55) or an assertion of the reset input `rst` (R190). -/
inductive PortEvent where
  | word (w : Word)
  | rst
deriving DecidableEq, Repr

/-- The response to one command (R179). -/
structure Response where
  status : BitVec 8
  res : BitVec 64
deriving DecidableEq, Repr

/-- The non-OK statuses of R170. -/
inductive Err where
  | divideByZero
  | invalidDigit
  | invalidHexDigit
  | badFormat
  | illegalCommand
  | registerInvalid
  | widthMismatch
  | widthRange
  | indexRange
  | fractionRange
  | stringOverflow
deriving DecidableEq, Repr

structure State where
  /-- The wide registers x0 to x7 (R21). -/
  x : Vector WReg 8
  /-- The scalar result register RES (R28). -/
  res : BitVec 64
  /-- STATUS (R29): LAST in bits 7:0, EANY in bit 8, bits 31:9 reserved. -/
  status : BitVec 32
  /-- SLEN, the number of valid characters in SB (R30). -/
  slen : BitVec 16
  /-- The string buffer SB (R40). -/
  sb : Memory
  /-- The words received so far of the command being received; their number is the command-port word counter (R191). -/
  rx : List Word
  /-- What the host has sent and the block has not yet accepted, oldest first (R55; log 5). -/
  port : List PortEvent
  /-- The responses produced, newest first (R179; log 7). -/
  rsp : List Response
  /-- The model's own counter of unspecified values drawn (R161, R163; log 8). -/
  draws : Nat
  /-- The parameters of this block; no command changes them (R7; log 1). -/
  cfg : Config
deriving DecidableEq, Repr

/-- Reasons a step could stop with a fault: there is none. Every failure the spec names is a completion with a non-OK
status after which the block goes on (R178, R180), which the model takes as a next state (log 10: safe, nothing is cut
off). -/
inductive Fault where
deriving DecidableEq, Repr

/-- Reasons a step could be refused. -/
inductive Refusal where
  /-- Raised only by an arm of `exec` whose command has no meaning yet (safe); no arm raises it. -/
  | notModelled (mnemonic : String)
deriving DecidableEq, Repr

/-- A register no command has written since reset: valid = 0 (R23, R36). Its width tag and words are unspecified and
unobservable; the model holds no words (log 2, DESIGN CHOICE). -/
def WReg.invalid : WReg := { valid := false, w := [] }

/-- A register holding a value (R22). -/
def WReg.of (v : Wide) : WReg := { valid := true, w := v }

/-- The state of a block with parameters `c` right after reset (R36 to R38, R191). -/
def State.resetWith (c : Config) : State :=
  { x := Vector.replicate 8 WReg.invalid
    res := 0
    status := 0
    slen := 0
    sb := []
    rx := []
    port := []
    rsp := []
    draws := 0
    cfg := c }

/-- The machine right after reset, with the default parameters of R7. -/
def State.reset : State := State.resetWith Config.standard

end Sys2Proof.Machine
end

