-- ==== Sys2Proof/Machine/Flags.lean ====
section
/-!
DEFINITION. The status codes (R170) and the fields of STATUS (R29). There are no condition codes (R27): LAST and EANY are
the only flags, and the completion of a command is the only thing that writes them, but for CLRST.
-/

namespace Sys2Proof.Machine

open Sys2Proof

/-- The 8-bit code of a non-OK status (R170). -/
def Err.code : Err → BitVec 8
  | .divideByZero => 0x01
  | .invalidDigit => 0x02
  | .invalidHexDigit => 0x03
  | .badFormat => 0x04
  | .illegalCommand => 0x10
  | .registerInvalid => 0x11
  | .widthMismatch => 0x12
  | .widthRange => 0x13
  | .indexRange => 0x14
  | .fractionRange => 0x15
  | .stringOverflow => 0x16

/-- The code of OK (R170). -/
def okCode : BitVec 8 := 0x00

/-- STATUS.LAST, bits 7:0 (R29). -/
def statusLast (st : BitVec 32) : BitVec 8 := st.extractLsb' 0 8

/-- STATUS.EANY, bit 8 (R29). -/
def statusEany (st : BitVec 32) : Bool := st.getLsbD 8

/-- STATUS[31:9], reserved, read as 0 (R29). -/
def statusReserved (st : BitVec 32) : BitVec 23 := st.extractLsb' 9 23

/-- STATUS with the given fields. -/
def statusOf (reserved : BitVec 23) (eany : Bool) (last : BitVec 8) : BitVec 32 :=
  reserved ++ BitVec.ofBool eany ++ last

/-- STATUS after an OK completion: LAST <- 0x00, EANY unchanged (R178). -/
def statusAfterOk (st : BitVec 32) : BitVec 32 := statusOf (statusReserved st) (statusEany st) okCode

/-- STATUS after a completion with status `e`: LAST <- the status, EANY <- 1 (R178). -/
def statusAfterErr (e : Err) (st : BitVec 32) : BitVec 32 := statusOf (statusReserved st) true e.code

end Sys2Proof.Machine
end

