-- ==== Sys2Proof/Machine/Wide.lean ====
section
/-!
DEFINITION. Wide values and the helpers the command rules are written with: U, S and wide(n, k) (R10), the word primitives
(R14 to R16), the double-precision fields (R17) and w_add to w_cast (R18), each helper defined on values as R18 gives it.
-/

namespace Sys2Proof.Machine

open Sys2Proof

/-- U(v) = Σ w[i]·2^(32·i) (R10). -/
def uval : Wide → Nat
  | [] => 0
  | w :: ws => w.toNat + 2 ^ 32 * uval ws

/-- The modulus 2^(32n) of width n (R10, R12). -/
def wmod (n : Nat) : Nat := 2 ^ (32 * n)

/-- sign(v) = w[n−1][31] (R10). A value of no words, which no register holds, has sign 0. -/
def signBit (v : Wide) : Bool :=
  match v.getLast? with
  | some w => w.msb
  | none => false

/-- S(v) = U(v) − sign(v)·2^(32n) (R10). -/
def sval (v : Wide) : Int := (uval v : Int) - (if signBit v then (wmod v.length : Int) else 0)

/-- The n words of a natural number, low word first, what does not fit dropped. -/
def wideNat : Nat → Nat → Wide
  | 0, _ => []
  | n + 1, k => BitVec.ofNat 32 k :: wideNat n (k / 2 ^ 32)

/-- wide(n, k): the unique v in WV(n) with U(v) = k mod 2^(32n), k negative included (R10). -/
def wide (n : Nat) (k : Int) : Wide := wideNat n (k % (wmod n : Int)).toNat

/-- The all-zero word and the all-ones word: what a cast, a shift and an extension fill with (R90, R121, R130). -/
def fillWord (ones : Bool) : Word := if ones then 0xFFFFFFFF else 0x00000000

/-! ### Word primitives (R14 to R16) -/

/-- adc32(a, b, cin) = (t mod 2^32, t div 2^32) for t = a + b + cin (R14). -/
def adc32 (a b : Word) (cin : Bool) : Word × Bool :=
  (BitVec.ofNat 32 (a.toNat + b.toNat + cin.toNat), decide ((a.toNat + b.toNat + cin.toNat) / 2 ^ 32 = 1))

/-- mul32(a, b) = (lo, hi) of the 64-bit product (R15). -/
def mul32 (a b : Word) : Word × Word :=
  (BitVec.ofNat 32 (a.toNat * b.toNat), BitVec.ofNat 32 (a.toNat * b.toNat / 2 ^ 32))

/-- lsl32(a, s) = (lo, hi) of t = a·2^s: lo the shifted word, hi the bits shifted out at the top (R16). -/
def lsl32 (a : Word) (s : Nat) : Word × Word :=
  (BitVec.ofNat 32 (a.toNat * 2 ^ s), BitVec.ofNat 32 (a.toNat * 2 ^ s / 2 ^ 32))

/-- lsr32(a, s) = (lo, hi) of t = (a·2^32) div 2^s: hi the shifted word, lo the bits shifted out at the bottom,
left-aligned (R16). -/
def lsr32 (a : Word) (s : Nat) : Word × Word :=
  (BitVec.ofNat 32 (a.toNat * 2 ^ 32 / 2 ^ s), BitVec.ofNat 32 (a.toNat * 2 ^ 32 / 2 ^ s / 2 ^ 32))

/-- asr32(a, s): lo as lsr32; hi with its s vacated top bits copies of a[31] (R16). -/
def asr32 (a : Word) (s : Nat) : Word × Word :=
  ((lsr32 a s).1, BitVec.ofInt 32 (a.toInt / 2 ^ s))

/-! ### Double-precision fields (R17) -/

/-- dsign(d) = d[63]. -/
def dsign (d : BitVec 64) : Bool := decide (d.toNat / 2 ^ 63 = 1)

/-- dexp(d) = d[62:52]. -/
def dexp (d : BitVec 64) : Nat := d.toNat / 2 ^ 52 % 2 ^ 11

/-- dman(d) = d[51:0]. -/
def dman (d : BitVec 64) : Nat := d.toNat % 2 ^ 52

/-- dcompose(s, e, m) = the concatenation of s, e and m. -/
def dcompose (s : Bool) (e m : Nat) : BitVec 64 := BitVec.ofNat 64 (s.toNat * 2 ^ 63 + e * 2 ^ 52 + m)

/-! ### Wide helpers (R18) -/

/-- w_add(a, b) = wide(n, U(a) + U(b)). -/
def wAdd (a b : Wide) : Wide := wide a.length (uval a + uval b)

/-- w_not(a): each word complemented. -/
def wNot (a : Wide) : Wide := a.map (fun w => w ^^^ 0xFFFFFFFF)

/-- w_neg(a) = w_add(w_not(a), wide(n, 1)). -/
def wNeg (a : Wide) : Wide := wAdd (wNot a) (wide a.length 1)

/-- w_sub(a, b) = w_add(a, w_neg(b)). -/
def wSub (a b : Wide) : Wide := wAdd a (wNeg b)

/-- w_abs(a) = sign(a) = 1 ? w_neg(a) : a. -/
def wAbs (a : Wide) : Wide := if signBit a then wNeg a else a

/-- w_mul(a, b) = wide(n, U(a)·U(b)). -/
def wMul (a b : Wide) : Wide := wide a.length (uval a * uval b)

/-- w_shl(a, c) = wide(n, U(a)·2^c). -/
def wShl (a : Wide) (c : Nat) : Wide := wide a.length (uval a * 2 ^ c : Nat)

/-- w_lsr(a, c) = wide(n, U(a) div 2^c). -/
def wLsr (a : Wide) (c : Nat) : Wide := wide a.length (uval a / 2 ^ c : Nat)

/-- w_asr(a, c) = wide(n, floor(S(a) / 2^c)). -/
def wAsr (a : Wide) (c : Nat) : Wide := wide a.length (sval a / 2 ^ c)

/-- w_cast(a, m, s): the low words kept, new high words filled with the sign if s and with zeros otherwise (R130). -/
def wCast (a : Wide) (m : Nat) (sg : Bool) : Wide :=
  (List.range m).map (fun i => a.getD i (fillWord (sg && signBit a)))

/-- The width tag of a register (R21): the number of words of its value. -/
def WReg.n (r : WReg) : Nat := r.w.length

end Sys2Proof.Machine
end

