-- ==== Sys2Proof/Machine/Ops.lean ====
section
/-!
DEFINITION. The named operations over the string buffer, the registers and the status record, and how a command completes:
with OK after its effects, or with a non-OK status and no effect but STATUS (R178), with one response either way (R179).
-/

namespace Sys2Proof.Machine

open Sys2Proof

/-! ### The string buffer (R40 to R42) -/

/-- What a byte of SB that the list does not hold reads as. No response depends on it (R41); log 3, DESIGN CHOICE. -/
def unwrittenByte : Byte := 0x00

/-- The canonical form: addresses strictly rising, no entry equal to what an unlisted byte reads as. -/
def Memory.wf (m : Memory) : Bool :=
  decide (m.Pairwise (fun c d => c.1 < d.1)) && m.all (fun c => c.2 != unwrittenByte)

/-- SB[a] (R41). -/
def Memory.read (m : Memory) (a : Nat) : Byte :=
  match m with
  | [] => unwrittenByte
  | (b, v) :: rest => if a = b then v else if a < b then unwrittenByte else Memory.read rest a

/-- SB[a] <- v (R41), keeping the canonical form. -/
def Memory.write (m : Memory) (a : Nat) (v : Byte) : Memory :=
  match m with
  | [] => if v = unwrittenByte then [] else [(a, v)]
  | (b, u) :: rest =>
    if a < b then (if v = unwrittenByte then (b, u) :: rest else (a, v) :: (b, u) :: rest)
    else if a = b then (if v = unwrittenByte then rest else (a, v) :: rest)
    else (b, u) :: Memory.write rest a v

/-- MemWrite(a + i, 1, bs[i]) for each i in order. -/
def Memory.writeBytes (m : Memory) (a : Nat) : List Byte → Memory
  | [] => m
  | b :: bs => Memory.writeBytes (m.write a b) (a + 1) bs

/-- The string the buffer holds: SB[0], ..., SB[SLEN−1], in reading order (R40). -/
def State.text (s : State) : List Byte := (List.range s.slen.toNat).map s.sb.read

/-- `str <- text` (R13): the bytes at 0..L−1, then SLEN <- L. -/
def State.setText (s : State) (text : List Byte) : State :=
  { s with sb := s.sb.writeBytes 0 text, slen := BitVec.ofNat 16 text.length }

/-! ### Registers -/

/-- `x[r] <- (n, v)`: sets valid, the width tag and the words (R13, R22). -/
def State.writeX (s : State) (r : Reg) (v : Wide) : State := { s with x := s.x.set r.val (WReg.of v) }

/-- `RES <- k` (R13). -/
def State.setRes (s : State) (k : BitVec 64) : State := { s with res := k }

/-- One unspecified value has been drawn (log 8). -/
def State.countDraw (s : State) : State := { s with draws := s.draws + 1 }

/-! ### Completion (R178, R179) -/

/-- The response to the command: the value now in STATUS.LAST and the value now in RES (R179). -/
def State.respond (s : State) : State := { s with rsp := { status := statusLast s.status, res := s.res } :: s.rsp }

/-- Completion with OK: LAST <- 0x00, EANY unchanged, and the response (R178, R179). -/
def State.completeOk (s : State) : State := { s with status := statusAfterOk s.status }.respond

/-- Completion with a non-OK status: nothing is written but LAST <- the status and EANY <- 1, and the response (R178,
R179). The block's one way of taking a failure; nothing is saved, and nothing returns from it (R180). -/
def State.completeErr (s : State) (e : Err) : State := { s with status := statusAfterErr e s.status }.respond

/-- A command that has found its effects, or the first check that fails, completes: either all of its effects happen or
none (R178). -/
def State.finish (s : State) (r : Except Err State) : Host.Outcome State Fault Refusal :=
  match r with
  | .ok t => .next t.completeOk
  | .error e => .next (s.completeErr e)

/-- Reset (R190): the state of R191. What the host has sent after `rst` is still to come, the responses already produced
stand, and the parameters are the block's (log 6). -/
def State.applyReset (s : State) (port : List PortEvent) : State :=
  { State.resetWith s.cfg with port := port, rsp := s.rsp, draws := s.draws }

end Sys2Proof.Machine
end

