-- ==== Sys2Proof/Machine/Operands.lean ====
section
/-!
DEFINITION. The operands of a command and the checks every command performs on them, in the order of R177: the width field
(step 3), the source registers (step 4), their widths (step 5), the fraction word count and the index (step 6), and the
capacity of the string buffer (step 8).
-/

namespace Sys2Proof.Machine

open Sys2Proof

/-- `raise e` unless the condition holds (R13). -/
def require (ok : Bool) (e : Err) : Except Err Unit := if ok then .ok () else .error e

/-- Step 3: a width field that is 0 or greater than NMAX raises WidthRange. -/
def checkWidth (s : State) (n : Nat) : Except Err Unit :=
  require (decide (n ≠ 0 ∧ n ≤ s.cfg.nmax)) .widthRange

/-- Step 4: `x[r]`, which raises RegisterInvalid when its valid bit is 0 (R13, R23). -/
def readX (s : State) (r : Reg) : Except Err Wide :=
  if s.x[r].valid then .ok s.x[r].w else .error .registerInvalid

/-- Steps 4 and 5: both sources, which must have the same width (R100). -/
def readPair (s : State) (r1 r2 : Reg) : Except Err (Wide × Wide) := do
  let a ← readX s r1
  let b ← readX s r2
  require (decide (a.length = b.length)) .widthMismatch
  pure (a, b)

/-- Step 6: 1 ≤ F ≤ n − 1, or FractionRange (R149). -/
def checkFraction (f n : Nat) : Except Err Unit := require (decide (f ≠ 0 ∧ f < n)) .fractionRange

/-- Step 6: an index at or beyond its bound raises IndexRange. -/
def checkIndex (index bound : Nat) : Except Err Unit := require (decide (index < bound)) .indexRange

/-- Step 7 of DIV, MOD and FXDIV: a divisor whose every word is zero raises DivideByZero (R171). -/
def checkDivisor (b : Wide) : Except Err Unit := require (decide (uval b ≠ 0)) .divideByZero

/-- Step 8: a text longer than SBSIZE raises StringOverflow, else `str <- text` (R13, R53). -/
def putText (s : State) (text : List Byte) : Except Err State := do
  require (decide (text.length ≤ s.cfg.sbsize)) .stringOverflow
  pure (s.setText text)

end Sys2Proof.Machine
end

