-- ==== Sys2Proof/Machine/AddLogic.lean ====
section
/-!
DEFINITION. Add, subtract, negate and bitwise commands (`42_addsub_logic.md`, R100 to R106).
-/

namespace Sys2Proof.Machine

open Sys2Proof

/-- The carry chain of ADD: one adc32 per word, low word first; the carry out of the top word is discarded (R100). -/
def addCarry : Wide → Wide → Bool → Wide
  | a :: as, b :: bs, c => (adc32 a b c).1 :: addCarry as bs (adc32 a b c).2
  | _, _, _ => []

/-- The shape of a three-register command: both sources, equal widths, one result (R100). -/
def binary (op : Wide → Wide → Wide) (rd rs1 rs2 : Reg) (s : State) : Host.Outcome State Fault Refusal :=
  s.finish do
    let (a, b) ← readPair s rs1 rs2
    pure (s.writeX rd (op a b))

/-- The shape of a two-register command (R102). -/
def unary (op : Wide → Wide) (rd rs1 : Reg) (s : State) : Host.Outcome State Fault Refusal :=
  s.finish do
    let a ← readX s rs1
    pure (s.writeX rd (op a))

/-- ADD (R100). -/
def execAdd (rd rs1 rs2 : Reg) (s : State) : Host.Outcome State Fault Refusal :=
  binary (fun a b => addCarry a b false) rd rs1 rs2 s

/-- SUB: w_add(a, w_neg(b)) (R101). -/
def execSub (rd rs1 rs2 : Reg) (s : State) : Host.Outcome State Fault Refusal :=
  binary (fun a b => wAdd a (wNeg b)) rd rs1 rs2 s

/-- NEG: w_add(w_not(a), wide(n, 1)) (R102). -/
def execNeg (rd rs1 : Reg) (s : State) : Host.Outcome State Fault Refusal :=
  unary (fun a => wAdd (wNot a) (wide a.length 1)) rd rs1 s

/-- NOT: each word exclusive-or 0xFFFFFFFF (R103). -/
def execNot (rd rs1 : Reg) (s : State) : Host.Outcome State Fault Refusal :=
  unary (fun a => a.map (fun w => w ^^^ 0xFFFFFFFF)) rd rs1 s

/-- AND, word by word (R104). -/
def execAnd (rd rs1 rs2 : Reg) (s : State) : Host.Outcome State Fault Refusal :=
  binary (fun a b => List.zipWith (fun u v => u &&& v) a b) rd rs1 rs2 s

/-- OR, word by word (R105). -/
def execOr (rd rs1 rs2 : Reg) (s : State) : Host.Outcome State Fault Refusal :=
  binary (fun a b => List.zipWith (fun u v => u ||| v) a b) rd rs1 rs2 s

/-- XOR, word by word (R106). -/
def execXor (rd rs1 rs2 : Reg) (s : State) : Host.Outcome State Fault Refusal :=
  binary (fun a b => List.zipWith (fun u v => u ^^^ v) a b) rd rs1 rs2 s

end Sys2Proof.Machine
end

