-- ==== Sys2Proof/Machine/CastBit.lean ====
section
/-!
DEFINITION. Cast and bit access (`46_cast_bit.md`, R130 to R133).
-/

namespace Sys2Proof.Machine

open Sys2Proof

/-- MSB_NONE = 2^64 − 1, the "no bits set" value of IDXMSB (R7, R133). -/
def msbNone : BitVec 64 := 0xFFFFFFFFFFFFFFFF

/-- Bit `index` of a value: `a.w[index div 32][index mod 32]` (R131). -/
def bitOf (a : Wide) (index : Nat) : Bool := (a.getD (index / 32) 0).getLsbD (index % 32)

/-- One bit of a word set to `v`. -/
def setWordBit (w : Word) (k : Nat) (v : Bool) : Word :=
  if v then w ||| BitVec.ofNat 32 (2 ^ k) else w &&& ~~~ (BitVec.ofNat 32 (2 ^ k))

/-- `a.w[index div 32][index mod 32] = v` (R132). -/
def setBitOf (a : Wide) (index : Nat) (v : Bool) : Wide :=
  a.set (index / 32) (setWordBit (a.getD (index / 32) 0) (index % 32) v)

/-- The largest b below the bound with bit b of a equal to 1, if there is one (R133). -/
def topBit (a : Wide) : Nat → Option Nat
  | 0 => none
  | b + 1 => if bitOf a b then some b else topBit a b

/-- The number IDXMSB writes (R133). -/
def msbIndex (a : Wide) : BitVec 64 :=
  match topBit a (32 * a.length) with
  | some b => BitVec.ofNat 64 b
  | none => msbNone

/-- CAST: the width check comes before the register is read (R130, R177). -/
def execCast (sg : Bool) (rd rs1 : Reg) (m : Nat) (s : State) : Host.Outcome State Fault Refusal :=
  s.finish do
    checkWidth s m
    let a ← readX s rs1
    pure (s.writeX rd (wCast a m sg))

/-- GETBIT: `RES <- a.w[index div 32][index mod 32]` (R131). -/
def execGetbit (rs1 : Reg) (index : Nat) (s : State) : Host.Outcome State Fault Refusal :=
  s.finish do
    let a ← readX s rs1
    checkIndex index (32 * a.length)
    pure (s.setRes (BitVec.ofNat 64 (bitOf a index).toNat))

/-- SETBIT (R132). -/
def execSetbit (v : Bool) (rd : Reg) (index : Nat) (s : State) : Host.Outcome State Fault Refusal :=
  s.finish do
    let a ← readX s rd
    checkIndex index (32 * a.length)
    pure (s.writeX rd (setBitOf a index v))

/-- IDXMSB (R133). -/
def execIdxmsb (rs1 : Reg) (s : State) : Host.Outcome State Fault Refusal :=
  s.finish do
    let a ← readX s rs1
    pure (s.setRes (msbIndex a))

end Sys2Proof.Machine
end

