-- ==== Sys2Proof/Machine/Compare.lean ====
section
/-!
DEFINITION. Compares (`45_compare.md`, R125 to R127). The outcome goes to RES.
-/

namespace Sys2Proof.Machine

open Sys2Proof

/-- The comparison of two word lists, most significant word first: −1, 0 or +1 (R125). -/
def ucmpFromTop : List Word → List Word → Int
  | a :: as, b :: bs => if a.toNat < b.toNat then -1 else if b.toNat < a.toNat then 1 else ucmpFromTop as bs
  | _, _ => 0

/-- `ucmp(a, b)`: words from the most significant down, compared as unsigned numbers (R125). -/
def ucmp (a b : Wide) : Int := ucmpFromTop a.reverse b.reverse

/-- The result of CMP: differing signs decide a signed compare, else ucmp (R125). -/
def compareWords (sg : Bool) (a b : Wide) : Int :=
  if sg && (signBit a != signBit b) then (if signBit a then -1 else 1) else ucmp a b

/-- The shape of a compare: both sources, equal widths, a number to RES (R125). -/
def compareTo (f : Wide → Wide → BitVec 64) (rs1 rs2 : Reg) (s : State) : Host.Outcome State Fault Refusal :=
  s.finish do
    let (a, b) ← readPair s rs1 rs2
    pure (s.setRes (f a b))

/-- CMP: `RES <- c mod 2^64` (R125). -/
def execCmp (sg : Bool) (rs1 rs2 : Reg) (s : State) : Host.Outcome State Fault Refusal :=
  compareTo (fun a b => BitVec.ofInt 64 (compareWords sg a b)) rs1 rs2 s

/-- EQ: `RES <- (ucmp(a, b) = 0) ? 1 : 0` (R126). -/
def execEq (rs1 rs2 : Reg) (s : State) : Host.Outcome State Fault Refusal :=
  compareTo (fun a b => if ucmp a b = 0 then 1 else 0) rs1 rs2 s

/-- NE: `RES <- (ucmp(a, b) != 0) ? 1 : 0` (R127). -/
def execNe (rs1 rs2 : Reg) (s : State) : Host.Outcome State Fault Refusal :=
  compareTo (fun a b => if ucmp a b ≠ 0 then 1 else 0) rs1 rs2 s

end Sys2Proof.Machine
end

