-- ==== Sys2Proof/Machine/Construct.lean ====
section
/-!
DEFINITION. Construction, copy and word access (`41_construct.md`, R90 to R94).
-/

namespace Sys2Proof.Machine

open Sys2Proof

/-- The words of LDI32: imm32, then the fill (R90). -/
def ldi32Words (sg : Bool) (n : Nat) (imm32 : Word) : Wide :=
  imm32 :: List.replicate (n - 1) (fillWord (sg && imm32.msb))

/-- The words of LDI64: imm64 low word first, then the fill; for n = 1 the high word is dropped (R91). -/
def ldi64Words (sg : Bool) (n : Nat) (imm64 : BitVec 64) : Wide :=
  (imm64.extractLsb' 0 32 :: imm64.extractLsb' 32 32 :: List.replicate (n - 2) (fillWord (sg && imm64.msb))).take n

/-- LDI32 (R90). -/
def execLdi32 (sg : Bool) (rd : Reg) (n : Nat) (imm32 : Word) (s : State) : Host.Outcome State Fault Refusal :=
  s.finish do
    checkWidth s n
    pure (s.writeX rd (ldi32Words sg n imm32))

/-- LDI64 (R91). -/
def execLdi64 (sg : Bool) (rd : Reg) (n : Nat) (imm64 : BitVec 64) (s : State) : Host.Outcome State Fault Refusal :=
  s.finish do
    checkWidth s n
    pure (s.writeX rd (ldi64Words sg n imm64))

/-- MOV: the value and its width (R92). -/
def execMov (rd rs1 : Reg) (s : State) : Host.Outcome State Fault Refusal :=
  s.finish do
    let a ← readX s rs1
    pure (s.writeX rd a)

/-- GETW: `RES <- zext_64(a.w[index])` (R93). -/
def execGetw (rs1 : Reg) (index : Nat) (s : State) : Host.Outcome State Fault Refusal :=
  s.finish do
    let a ← readX s rs1
    checkIndex index a.length
    pure (s.setRes ((a.getD index 0).setWidth 64))

/-- SETW: one word of the register changes, the width and the other words do not (R94). -/
def execSetw (rd : Reg) (index : Nat) (imm32 : Word) (s : State) : Host.Outcome State Fault Refusal :=
  s.finish do
    let a ← readX s rd
    checkIndex index a.length
    pure (s.writeX rd (a.set index imm32))

end Sys2Proof.Machine
end

