-- ==== Sys2Proof/Machine/MulDiv.lean ====
section
/-!
DEFINITION. Multiply, divide, modulo, times ten and divide by ten (`43_muldiv.md`, R110 to R114).
-/

namespace Sys2Proof.Machine

open Sys2Proof

/-- The partial product of words i of a and j of b at its place, bits past word n−1 dropped (R110). -/
def partialProduct (n : Nat) (a b : Wide) (i j : Nat) : Wide :=
  let p := mul32 (a.getD i 0) (b.getD j 0)
  wide n ((p.2.toNat * 2 ^ 32 + p.1.toNat) * 2 ^ (32 * (i + j)) : Nat)

/-- Schoolbook multiplication: the partial products with i + j < n, accumulated with w_add (R110). -/
def schoolbook (n : Nat) (a b : Wide) : Wide :=
  (List.range n).foldl
    (fun r i => (List.range (n - i)).foldl (fun r j => wAdd r (partialProduct n a b i j)) r)
    (wide n 0)

/-- MUL: a signed multiply is the multiply of the absolute values with the sign corrected after it (R110). -/
def mulWords (sg : Bool) (a b : Wide) : Wide :=
  if sg then
    let r := schoolbook a.length (wAbs a) (wAbs b)
    if signBit a ^^ signBit b then wNeg r else r
  else schoolbook a.length a b

/-- Restoring division (R111): for bit positions k−1 down to 0 of A, the running remainder R takes in the next bit, and where
R ≥ B the divisor is subtracted and the quotient bit set. Returns (Q, R). -/
def divLoop (A B : Nat) : Nat → Nat → Nat → Nat × Nat
  | 0, Q, R => (Q, R)
  | k + 1, Q, R =>
    let R' := 2 * R + A / 2 ^ k % 2
    if B ≤ R' then divLoop A B k (Q + 2 ^ k) (R' - B) else divLoop A B k Q R'

/-- `divmod(S, a, b)` for b other than zero: (q, r), signed by the absolute values, the quotient's sign the exclusive-or of
the signs, the remainder's the dividend's (R111). -/
def divmod (sg : Bool) (a b : Wide) : Wide × Wide :=
  let n := a.length
  let sa := sg && signBit a
  let sb := sg && signBit b
  let qr := divLoop (uval (if sg then wAbs a else a)) (uval (if sg then wAbs b else b)) (32 * n) 0 0
  let q := wide n qr.1
  let r := wide n qr.2
  (if sa ^^ sb then wNeg q else q, if sa then wNeg r else r)

/-- MUL10: w_add(w_shl(a, 3), w_shl(a, 1)) (R113). -/
def mul10Words (a : Wide) : Wide := wAdd (wShl a 3) (wShl a 1)

/-- The quotient of DIV10: wide(n, U(a) div 10) (R114). -/
def div10Words (a : Wide) : Wide := wide a.length (uval a / 10 : Nat)

/-- MUL (R110). -/
def execMul (sg : Bool) (rd rs1 rs2 : Reg) (s : State) : Host.Outcome State Fault Refusal :=
  binary (mulWords sg) rd rs1 rs2 s

/-- DIV: the quotient of divmod; DivideByZero for a zero divisor (R111). -/
def execDiv (sg : Bool) (rd rs1 rs2 : Reg) (s : State) : Host.Outcome State Fault Refusal :=
  s.finish do
    let (a, b) ← readPair s rs1 rs2
    checkDivisor b
    pure (s.writeX rd (divmod sg a b).1)

/-- MOD: the remainder of divmod; DivideByZero for a zero divisor (R112). -/
def execMod (sg : Bool) (rd rs1 rs2 : Reg) (s : State) : Host.Outcome State Fault Refusal :=
  s.finish do
    let (a, b) ← readPair s rs1 rs2
    checkDivisor b
    pure (s.writeX rd (divmod sg a b).2)

/-- MUL10 (R113). -/
def execMul10 (rd rs1 : Reg) (s : State) : Host.Outcome State Fault Refusal := unary mul10Words rd rs1 s

/-- DIV10: the quotient to rd and the remainder digit to RES (R114). -/
def execDiv10 (rd rs1 : Reg) (s : State) : Host.Outcome State Fault Refusal :=
  s.finish do
    let a ← readX s rs1
    pure ((s.writeX rd (div10Words a)).setRes (BitVec.ofNat 64 (uval a % 10)))

end Sys2Proof.Machine
end

