-- ==== Sys2Proof/Machine/FxArith.lean ====
section
/-!
DEFINITION. Fixed-point arithmetic (`48_fx_arith.md`, R149 to R154): a value of n = W + F words read as S(v) / 2^(32·F).
-/

namespace Sys2Proof.Machine

open Sys2Proof

/-- Both sources of a fixed-point command, of one width, with 1 ≤ F ≤ n − 1 (R149). -/
def readFxPair (s : State) (f : Nat) (r1 r2 : Reg) : Except Err (Wide × Wide) := do
  let (a, b) ← readPair s r1 r2
  checkFraction f a.length
  pure (a, b)

/-- The result of FXMUL: both operands widened to n + F words, multiplied, shifted right arithmetically by 32·F, narrowed
(R153). -/
def fxMulWords (f : Nat) (a b : Wide) : Wide :=
  let n := a.length
  let t := n + f
  let A := wCast a t true
  let B := wCast b t true
  let P := wAsr (wMul A B) (32 * f)
  wCast P n true

/-- The result of FXDIV for a divisor other than zero: the widened dividend shifted left by 32·F, divided signed, narrowed
(R154). -/
def fxDivWords (f : Nat) (a b : Wide) : Wide :=
  let n := a.length
  let t := n + f
  let A := wShl (wCast a t true) (32 * f)
  let B := wCast b t true
  wCast (divmod true A B).1 n true

/-- FXFROMI: w_shl(a, 32·F) (R150). -/
def execFxfromi (rd rs1 : Reg) (f : Nat) (s : State) : Host.Outcome State Fault Refusal :=
  s.finish do
    let a ← readX s rs1
    checkFraction f a.length
    pure (s.writeX rd (wShl a (32 * f)))

/-- FXADD: "exactly as ADD" (R151). -/
def execFxadd (rd rs1 rs2 : Reg) (f : Nat) (s : State) : Host.Outcome State Fault Refusal :=
  s.finish do
    let (a, b) ← readFxPair s f rs1 rs2
    pure (s.writeX rd (wAdd a b))

/-- FXSUB: w_sub(a, b) (R152). -/
def execFxsub (rd rs1 rs2 : Reg) (f : Nat) (s : State) : Host.Outcome State Fault Refusal :=
  s.finish do
    let (a, b) ← readFxPair s f rs1 rs2
    pure (s.writeX rd (wSub a b))

/-- FXMUL (R153). -/
def execFxmul (rd rs1 rs2 : Reg) (f : Nat) (s : State) : Host.Outcome State Fault Refusal :=
  s.finish do
    let (a, b) ← readFxPair s f rs1 rs2
    pure (s.writeX rd (fxMulWords f a b))

/-- FXDIV: DivideByZero for a zero divisor, after the F check (R154, R177). -/
def execFxdiv (rd rs1 rs2 : Reg) (f : Nat) (s : State) : Host.Outcome State Fault Refusal :=
  s.finish do
    let (a, b) ← readFxPair s f rs1 rs2
    checkDivisor b
    pure (s.writeX rd (fxDivWords f a b))

end Sys2Proof.Machine
end

