-- ==== Sys2Proof/Machine/Text.lean ====
section
/-!
DEFINITION. Base-10 and base-16 text (`47_string.md`, R140, R142, R144, R146). Characters are ASCII bytes (R43, log 14).
-/

namespace Sys2Proof.Machine

open Sys2Proof

/-- '-' (R43). -/
def chMinus : Byte := 0x2D

/-- '.' (R43). -/
def chPoint : Byte := 0x2E

/-- '0' (R43). -/
def chZero : Byte := 0x30

/-- 'x' (R43). -/
def chX : Byte := 0x78

/-- 'X' (R43). -/
def chUpperX : Byte := 0x58

/-- char('0' + d) for a decimal digit d (R140). -/
def decChar (d : Nat) : Byte := BitVec.ofNat 8 (0x30 + d)

/-- "0123456789abcdef"[nib] (R142, R43). -/
def hexChar (nib : Nat) : Byte := if nib < 10 then BitVec.ofNat 8 (0x30 + nib) else BitVec.ofNat 8 (0x61 + (nib - 10))

/-- '0' ≤ c ≤ '9', and the digit (R144). -/
def decDigit? (c : Byte) : Option Nat :=
  if 0x30 ≤ c.toNat ∧ c.toNat ≤ 0x39 then some (c.toNat - 0x30) else none

/-- The hexadecimal digit a character stands for: `A` to `F` only where HEX_UPPER_IN (R146, R147). -/
def hexDigit? (upper : Bool) (c : Byte) : Option Nat :=
  if 0x30 ≤ c.toNat ∧ c.toNat ≤ 0x39 then some (c.toNat - 0x30)
  else if 0x61 ≤ c.toNat ∧ c.toNat ≤ 0x66 then some (c.toNat - 0x61 + 10)
  else if upper ∧ 0x41 ≤ c.toNat ∧ c.toNat ≤ 0x46 then some (c.toNat - 0x41 + 10)
  else none

/-- isx(c) (R146). -/
def isX (upper : Bool) (c : Byte) : Bool := c == chX || (upper && c == chUpperX)

/-! ### Rendering -/

/-- The digit loop of R140, least significant digit first, for at most `fuel` digits; a value below 2^fuel needs no more
(log 13). -/
def decLoop : Nat → Nat → List Byte
  | 0, _ => []
  | fuel + 1, m => if m = 0 then [] else decChar (m % 10) :: decLoop fuel (m / 10)

/-- decimal(k) for k < 2^fuel: the numeral of R140, "0" for 0. -/
def decimal (fuel k : Nat) : List Byte := if k = 0 then [chZero] else (decLoop fuel k).reverse

/-- The text of TODEC: a sign for a negative value under S = 1, then the numeral of the magnitude (R140). -/
def decText (sg : Bool) (a : Wide) : List Byte :=
  let neg := sg && signBit a
  let m := if neg then wAbs a else a
  (if neg then [chMinus] else []) ++ decimal (32 * a.length) (uval m)

/-- The text of TOHEX: 8·n characters, most significant nibble first (R142). -/
def hexText (a : Wide) : List Byte :=
  (List.range (8 * a.length)).map (fun k => hexChar (uval a / 2 ^ (4 * (8 * a.length - 1 - k)) % 16))

/-- TODEC (R140). -/
def execTodec (sg : Bool) (rs1 : Reg) (s : State) : Host.Outcome State Fault Refusal :=
  s.finish do
    let a ← readX s rs1
    putText s (decText sg a)

/-- TOHEX (R142). -/
def execTohex (rs1 : Reg) (s : State) : Host.Outcome State Fault Refusal :=
  s.finish do
    let a ← readX s rs1
    putText s (hexText a)

/-! ### Parsing -/

/-- The optional leading '-': whether it is there, and the rest of the text (R144, R146, R167). -/
def splitSign : List Byte → Bool × List Byte
  | [] => (false, [])
  | c :: cs => if c = chMinus then (true, cs) else (false, c :: cs)

/-- The digit loop of R144: acc ← w_add(MUL10(acc), wide(n, digit)). -/
def parseDecDigits (n : Nat) (acc : Wide) : List Byte → Except Err Wide
  | [] => .ok acc
  | c :: cs =>
    match decDigit? c with
    | some d => parseDecDigits n (wAdd (mul10Words acc) (wide n d)) cs
    | none => .error .invalidDigit

/-- The digit loop of R146: acc ← w_add(w_shl(acc, 4), wide(n, digit)). -/
def parseHexDigits (upper : Bool) (n : Nat) (acc : Wide) : List Byte → Except Err Wide
  | [] => .ok acc
  | c :: cs =>
    match hexDigit? upper c with
    | some d => parseHexDigits upper n (wAdd (wShl acc 4) (wide n d)) cs
    | none => .error .invalidHexDigit

/-- The value of a decimal text: BadFormat where there is no digit at all, InvalidDigit at the first other character
(R144). -/
def parseDec (n : Nat) (text : List Byte) : Except Err Wide := do
  let (neg, ds) := splitSign text
  require (!ds.isEmpty) .badFormat
  let acc ← parseDecDigits n (wide n 0) ds
  pure (if neg then wNeg acc else acc)

/-- The digits after the prefix "0x", which must stand (R146). -/
def stripHexPrefix (upper : Bool) : List Byte → Except Err (List Byte)
  | z :: x :: ds => if z = chZero ∧ isX upper x then .ok ds else .error .badFormat
  | _ => .error .badFormat

/-- The value of a hexadecimal text: the prefix, then the presence of a digit, then the digits (R146). -/
def parseHex (upper : Bool) (n : Nat) (text : List Byte) : Except Err Wide := do
  let (neg, body) := splitSign text
  let ds ← stripHexPrefix upper body
  require (!ds.isEmpty) .badFormat
  let acc ← parseHexDigits upper n (wide n 0) ds
  pure (if neg then wNeg acc else acc)

/-- FROMDEC (R144). -/
def execFromdec (rd : Reg) (n : Nat) (s : State) : Host.Outcome State Fault Refusal :=
  s.finish do
    checkWidth s n
    let v ← parseDec n s.text
    pure (s.writeX rd v)

/-- FROMHEX (R146). -/
def execFromhex (rd : Reg) (n : Nat) (s : State) : Host.Outcome State Fault Refusal :=
  s.finish do
    checkWidth s n
    let v ← parseHex s.cfg.hexUpperIn n s.text
    pure (s.writeX rd v)

end Sys2Proof.Machine
end

