-- ==== Sys2Proof/Machine/FxConv.lean ====
section
/-!
DEFINITION. Fixed-point conversions: double-precision patterns and decimal text (`49_fx_conv.md`, R160 to R168).
-/

namespace Sys2Proof.Machine

open Sys2Proof

/-! ### Double precision -/

/-- The value FXFROMD builds from a pattern whose exponent field is neither 0 nor 2047: the mantissa with its leading bit,
shifted to the binary point (right shifts drop bits, left shifts lose what passes the top word), then the sign (R160). -/
def fxOfNormal (n f : Nat) (d : BitVec 64) : Wide :=
  let m : Nat := 2 ^ 52 + dman d
  let sh : Int := ((dexp d : Int) - 1023) - 52 + 32 * f
  let v := if 0 ≤ sh then wShl (wide n m) sh.toNat else wLsr (wide n m) (-sh).toNat
  if dsign d then wNeg v else v

/-- The value of FXFROMD: zero for exponent field 0 (zeros and subnormals), the scaled mantissa for 1 to 2046 (R160), and no
stated value for 2047 (R161). -/
def fxFromDouble (n f : Nat) (d : BitVec 64) : Option Wide :=
  if dexp d = 0 then some (wide n 0) else if dexp d = 2047 then none else some (fxOfNormal n f d)

/-- FXFROMD (R160): where the spec states no value (R161), an unspecified one of width n, and a draw (log 8). -/
def execFxfromd (rd : Reg) (n f : Nat) (imm64 : BitVec 64) (s : State) : Host.Outcome State Fault Refusal :=
  s.finish do
    checkWidth s n
    checkFraction f n
    match fxFromDouble n f imm64 with
    | some v => pure (s.writeX rd v)
    | none => pure ((s.writeX rd ((List.range n).map (Config.freeWord s.draws))).countDraw)

/-- The biased exponent FXTOD computes from the index p of the leading bit: e = (p − 32·F) + 1023 (R162). -/
def fxExponent (f p : Nat) : Int := ((p : Int) - 32 * f) + 1023

/-- M of R162: the magnitude with its leading bit brought to bit 52; low bits are dropped. -/
def fxMantissa (m p : Nat) : Nat := if 52 < p then m / 2 ^ (p - 52) else m * 2 ^ (52 - p)

/-- The pattern of FXTOD: +0.0 for zero, the composed pattern where the exponent is in 1..2046 (R162), and no stated value
elsewhere (R163). -/
def fxToDouble (f : Nat) (a : Wide) : Option (BitVec 64) :=
  match topBit (wAbs a) (32 * a.length) with
  | none => some 0
  | some p =>
    let e := fxExponent f p
    if e < 1 ∨ 2046 < e then none
    else some (dcompose (signBit a) e.toNat (fxMantissa (uval (wAbs a)) p % 2 ^ 52))

/-- FXTOD (R162): where the spec states no value (R163), an unspecified RES, and a draw (log 9). -/
def execFxtod (rs1 : Reg) (f : Nat) (s : State) : Host.Outcome State Fault Refusal :=
  s.finish do
    let a ← readX s rs1
    checkFraction f a.length
    match fxToDouble f a with
    | some k => pure (s.setRes k)
    | none => pure ((s.setRes (Config.freeRes s.draws)).countDraw)

/-! ### Decimal text -/

/-- The fraction loop of R165, for at most `fuel` digits; 32·F are enough (R166, log 13). `one` is 2^(32·F). -/
def fracLoop (one : Nat) : Nat → Nat → List Byte
  | 0, _ => []
  | fuel + 1, fr => if fr = 0 then [] else decChar (fr * 10 / one) :: fracLoop one fuel (fr * 10 % one)

/-- The text of FXTODEC: sign and magnitude (R168), the whole part, the point, and the exact fraction with at least one
digit (R165). -/
def fxText (f : Nat) (a : Wide) : List Byte :=
  let one := 2 ^ (32 * f)
  let neg := signBit a
  let m := uval (if neg then wAbs a else a)
  let fr := m % one
  (if neg then [chMinus] else []) ++ decimal (32 * a.length) (m / one) ++ [chPoint] ++
    (if fr = 0 then [chZero] else fracLoop one (32 * f) fr)

/-- FXTODEC (R165). -/
def execFxtodec (rs1 : Reg) (f : Nat) (s : State) : Host.Outcome State Fault Refusal :=
  s.finish do
    let a ← readX s rs1
    checkFraction f a.length
    putText s (fxText f a)

/-- The integer part of R167: digits up to the first '.' or the end. Returns I, how many digits there were, and what follows
(empty, or the text from the '.' on). -/
def parseWhole (I k : Nat) : List Byte → Except Err (Nat × Nat × List Byte)
  | [] => .ok (I, k, [])
  | c :: cs =>
    if c = chPoint then .ok (I, k, c :: cs)
    else match decDigit? c with
      | some d => parseWhole (10 * I + d) (k + 1) cs
      | none => .error .invalidDigit

/-- The digits after the point of R167: D and k. A second point is no digit. -/
def parseFrac (D k : Nat) : List Byte → Except Err (Nat × Nat)
  | [] => .ok (D, k)
  | c :: cs =>
    match decDigit? c with
    | some d => parseFrac (10 * D + d) (k + 1) cs
    | none => .error .invalidDigit

/-- The fractional part of R167, from what follows the integer part: D = 0 and k = 0 without a point, BadFormat for a point
with nothing after it. -/
def parseTail : List Byte → Except Err (Nat × Nat)
  | [] => .ok (0, 0)
  | [_] => .error .badFormat
  | _ :: c :: cs => parseFrac 0 0 (c :: cs)

/-- The value of a fixed-point decimal text: wide(n, I·2^(32F) + fs) with fs = (D·2^(32F)) div 10^k, negated after a
leading '-' (R167). -/
def parseFx (n f : Nat) (text : List Byte) : Except Err Wide := do
  let (neg, body) := splitSign text
  let (I, digits, tail) ← parseWhole 0 0 body
  require (decide (digits ≠ 0)) .badFormat
  let (D, k) ← parseTail tail
  let v := wide n (I * 2 ^ (32 * f) + D * 2 ^ (32 * f) / 10 ^ k : Nat)
  pure (if neg then wNeg v else v)

/-- FXFROMDEC (R167). -/
def execFxfromdec (rd : Reg) (n f : Nat) (s : State) : Host.Outcome State Fault Refusal :=
  s.finish do
    checkWidth s n
    checkFraction f n
    let v ← parseFx n f s.text
    pure (s.writeX rd v)

end Sys2Proof.Machine
end

