-- ==== Sys2Proof/Machine/Shift.lean ====
section
/-!
DEFINITION. Shifts (`44_shift.md`, R120, R121), word by word through the primitives of R16. The count is never reduced modulo
the width.
-/

namespace Sys2Proof.Machine

open Sys2Proof

/-- src(i − d) of SHL: the word d places below i, zero below word 0 (R120). -/
def srcBelow (a : Wide) (i d : Nat) : Word := if d ≤ i then a.getD (i - d) 0 else 0

/-- SHL: r.w[i] is lo of lsl32(src(i−q), s) OR hi of lsl32(src(i−q−1), s) (R120). -/
def shlWords (a : Wide) (count : Nat) : Wide :=
  let q := count / 32
  let s := count % 32
  (List.range a.length).map (fun i => (lsl32 (srcBelow a i q) s).1 ||| (lsl32 (srcBelow a i (q + 1)) s).2)

/-- SHR: r.w[i] is hi of lsr32(src(i+q), s) OR lo of lsr32(src(i+q+1), s), where src beyond the top word is the fill: the
sign when S = 1, zero when S = 0 (R121). -/
def shrWords (sg : Bool) (a : Wide) (count : Nat) : Wide :=
  let q := count / 32
  let s := count % 32
  let fill := fillWord (sg && signBit a)
  (List.range a.length).map (fun i => (lsr32 (a.getD (i + q) fill) s).2 ||| (lsr32 (a.getD (i + q + 1) fill) s).1)

/-- The arithmetic right shift of an implementation that uses asr32 on the top word: "gets the same words as this fill rule"
(R121). -/
def sarWords (a : Wide) (count : Nat) : Wide :=
  let q := count / 32
  let s := count % 32
  let fill := fillWord (signBit a)
  (List.range a.length).map (fun i =>
    if i + q + 1 = a.length then (asr32 (a.getD (i + q) fill) s).2
    else (lsr32 (a.getD (i + q) fill) s).2 ||| (lsr32 (a.getD (i + q + 1) fill) s).1)

/-- SHL (R120). -/
def execShl (rd rs1 : Reg) (count : Nat) (s : State) : Host.Outcome State Fault Refusal :=
  unary (fun a => shlWords a count) rd rs1 s

/-- SHR (R121). -/
def execShr (sg : Bool) (rd rs1 : Reg) (count : Nat) (s : State) : Host.Outcome State Fault Refusal :=
  unary (fun a => shrWords sg a count) rd rs1 s

end Sys2Proof.Machine
end

