-- ==== Sys2Proof/Machine/System.lean ====
section
/-!
DEFINITION. The system and string-buffer commands (`40_system.md`, R80 to R86).
-/

namespace Sys2Proof.Machine

open Sys2Proof

/-- NOP: "Pseudocode: nothing" (R80). -/
def execNop (s : State) : Host.Outcome State Fault Refusal := s.finish (.ok s)

/-- CLRST: `STATUS <- 0` (R81). -/
def execClrst (s : State) : Host.Outcome State Fault Refusal := s.finish (.ok { s with status := 0 })

/-- RDST: `RES <- zext_64(STATUS)`, with the value STATUS had before this command (R82). -/
def execRdst (s : State) : Host.Outcome State Fault Refusal := s.finish (.ok (s.setRes (s.status.setWidth 64)))

/-- SBCLR: `SLEN <- 0`; the bytes of SB are left as they are (R83). -/
def execSbclr (s : State) : Host.Outcome State Fault Refusal := s.finish (.ok { s with slen := 0 })

/-- SBPUT: the character goes to SB[SLEN] and SLEN is incremented; a full buffer raises StringOverflow (R84). A buffer is
full from SLEN = SBSIZE on; no run reaches a larger SLEN (log 12). -/
def execSbput (char : Byte) (s : State) : Host.Outcome State Fault Refusal :=
  s.finish do
    require (decide (s.slen.toNat < s.cfg.sbsize)) .stringOverflow
    pure { s with sb := s.sb.write s.slen.toNat char, slen := s.slen + 1 }

/-- SBGET: `RES <- zext_64(SB[index])`, IndexRange for an index at or beyond SLEN (R85). -/
def execSbget (index : Nat) (s : State) : Host.Outcome State Fault Refusal :=
  s.finish do
    checkIndex index s.slen.toNat
    pure (s.setRes ((s.sb.read index).setWidth 64))

/-- SBLEN: `RES <- zext_64(SLEN)` (R86). -/
def execSblen (s : State) : Host.Outcome State Fault Refusal := s.finish (.ok (s.setRes (s.slen.setWidth 64)))

end Sys2Proof.Machine
end

