-- ==== Sys2Proof/Syntax.lean ====
section
/-!
DEFINITION. The commands of BNCMD-1, one constructor per row of the opcode table (R60). Registers are numbers 0 to 7; `sg`
is the header's S bit (true: signed, R58); `n` and `m` are width fields, `f` the fraction word count F, `count` and `index`
the uses of imm16 (R58); `imm32` and `imm64` are the extension words (R59).
-/

namespace Sys2Proof

inductive Instr where
  -- system and string buffer (R80 to R86)
  | nop
  | clrst
  | rdst
  | sbclr
  | sbput (char : Byte)
  | sbget (index : Nat)
  | sblen
  -- construction, copy, word access (R90 to R94)
  | ldi32 (sg : Bool) (rd : Reg) (n : Nat) (imm32 : Word)
  | ldi64 (sg : Bool) (rd : Reg) (n : Nat) (imm64 : BitVec 64)
  | mov (rd rs1 : Reg)
  | getw (rs1 : Reg) (index : Nat)
  | setw (rd : Reg) (index : Nat) (imm32 : Word)
  -- add, subtract, bitwise (R100 to R106)
  | add (rd rs1 rs2 : Reg)
  | sub (rd rs1 rs2 : Reg)
  | neg (rd rs1 : Reg)
  | not (rd rs1 : Reg)
  | and (rd rs1 rs2 : Reg)
  | or (rd rs1 rs2 : Reg)
  | xor (rd rs1 rs2 : Reg)
  -- multiply, divide (R110 to R114)
  | mul (sg : Bool) (rd rs1 rs2 : Reg)
  | div (sg : Bool) (rd rs1 rs2 : Reg)
  | mod (sg : Bool) (rd rs1 rs2 : Reg)
  | mul10 (rd rs1 : Reg)
  | div10 (rd rs1 : Reg)
  -- shifts (R120, R121)
  | shl (rd rs1 : Reg) (count : Nat)
  | shr (sg : Bool) (rd rs1 : Reg) (count : Nat)
  -- compare (R125 to R127)
  | cmp (sg : Bool) (rs1 rs2 : Reg)
  | eq (rs1 rs2 : Reg)
  | ne (rs1 rs2 : Reg)
  -- cast and bit access (R130 to R133)
  | cast (sg : Bool) (rd rs1 : Reg) (m : Nat)
  | getbit (rs1 : Reg) (index : Nat)
  | setbit (v : Bool) (rd : Reg) (index : Nat)
  | idxmsb (rs1 : Reg)
  -- text (R140, R142, R144, R146)
  | todec (sg : Bool) (rs1 : Reg)
  | tohex (rs1 : Reg)
  | fromdec (rd : Reg) (n : Nat)
  | fromhex (rd : Reg) (n : Nat)
  -- fixed-point arithmetic (R150 to R154)
  | fxfromi (rd rs1 : Reg) (f : Nat)
  | fxadd (rd rs1 rs2 : Reg) (f : Nat)
  | fxsub (rd rs1 rs2 : Reg) (f : Nat)
  | fxmul (rd rs1 rs2 : Reg) (f : Nat)
  | fxdiv (rd rs1 rs2 : Reg) (f : Nat)
  -- fixed-point conversions (R160, R162, R165, R167)
  | fxfromd (rd : Reg) (n f : Nat) (imm64 : BitVec 64)
  | fxtod (rs1 : Reg) (f : Nat)
  | fxtodec (rs1 : Reg) (f : Nat)
  | fxfromdec (rd : Reg) (n f : Nat)
deriving DecidableEq, Repr

end Sys2Proof
end

