-- ==== Sys2Proof/Machine/Dispatch.lean ====
section
/-! DEFINITION. One arm per command: the meaning it calls (R60). -/

namespace Sys2Proof.Machine

def exec (i : Instr) (s : State) : Host.Outcome State Fault Refusal :=
  match i with
  | .nop => Sys2Proof.Machine.execNop s
  | .clrst => Sys2Proof.Machine.execClrst s
  | .rdst => Sys2Proof.Machine.execRdst s
  | .sbclr => Sys2Proof.Machine.execSbclr s
  | .sbput char => Sys2Proof.Machine.execSbput char s
  | .sbget index => Sys2Proof.Machine.execSbget index s
  | .sblen => Sys2Proof.Machine.execSblen s
  | .ldi32 sg rd n imm32 => Sys2Proof.Machine.execLdi32 sg rd n imm32 s
  | .ldi64 sg rd n imm64 => Sys2Proof.Machine.execLdi64 sg rd n imm64 s
  | .mov rd rs1 => Sys2Proof.Machine.execMov rd rs1 s
  | .getw rs1 index => Sys2Proof.Machine.execGetw rs1 index s
  | .setw rd index imm32 => Sys2Proof.Machine.execSetw rd index imm32 s
  | .add rd rs1 rs2 => Sys2Proof.Machine.execAdd rd rs1 rs2 s
  | .sub rd rs1 rs2 => Sys2Proof.Machine.execSub rd rs1 rs2 s
  | .neg rd rs1 => Sys2Proof.Machine.execNeg rd rs1 s
  | .not rd rs1 => Sys2Proof.Machine.execNot rd rs1 s
  | .and rd rs1 rs2 => Sys2Proof.Machine.execAnd rd rs1 rs2 s
  | .or rd rs1 rs2 => Sys2Proof.Machine.execOr rd rs1 rs2 s
  | .xor rd rs1 rs2 => Sys2Proof.Machine.execXor rd rs1 rs2 s
  | .mul sg rd rs1 rs2 => Sys2Proof.Machine.execMul sg rd rs1 rs2 s
  | .div sg rd rs1 rs2 => Sys2Proof.Machine.execDiv sg rd rs1 rs2 s
  | .mod sg rd rs1 rs2 => Sys2Proof.Machine.execMod sg rd rs1 rs2 s
  | .mul10 rd rs1 => Sys2Proof.Machine.execMul10 rd rs1 s
  | .div10 rd rs1 => Sys2Proof.Machine.execDiv10 rd rs1 s
  | .shl rd rs1 count => Sys2Proof.Machine.execShl rd rs1 count s
  | .shr sg rd rs1 count => Sys2Proof.Machine.execShr sg rd rs1 count s
  | .cmp sg rs1 rs2 => Sys2Proof.Machine.execCmp sg rs1 rs2 s
  | .eq rs1 rs2 => Sys2Proof.Machine.execEq rs1 rs2 s
  | .ne rs1 rs2 => Sys2Proof.Machine.execNe rs1 rs2 s
  | .cast sg rd rs1 m => Sys2Proof.Machine.execCast sg rd rs1 m s
  | .getbit rs1 index => Sys2Proof.Machine.execGetbit rs1 index s
  | .setbit v rd index => Sys2Proof.Machine.execSetbit v rd index s
  | .idxmsb rs1 => Sys2Proof.Machine.execIdxmsb rs1 s
  | .todec sg rs1 => Sys2Proof.Machine.execTodec sg rs1 s
  | .tohex rs1 => Sys2Proof.Machine.execTohex rs1 s
  | .fromdec rd n => Sys2Proof.Machine.execFromdec rd n s
  | .fromhex rd n => Sys2Proof.Machine.execFromhex rd n s
  | .fxfromi rd rs1 f => Sys2Proof.Machine.execFxfromi rd rs1 f s
  | .fxadd rd rs1 rs2 f => Sys2Proof.Machine.execFxadd rd rs1 rs2 f s
  | .fxsub rd rs1 rs2 f => Sys2Proof.Machine.execFxsub rd rs1 rs2 f s
  | .fxmul rd rs1 rs2 f => Sys2Proof.Machine.execFxmul rd rs1 rs2 f s
  | .fxdiv rd rs1 rs2 f => Sys2Proof.Machine.execFxdiv rd rs1 rs2 f s
  | .fxfromd rd n f imm64 => Sys2Proof.Machine.execFxfromd rd n f imm64 s
  | .fxtod rs1 f => Sys2Proof.Machine.execFxtod rs1 f s
  | .fxtodec rs1 f => Sys2Proof.Machine.execFxtodec rs1 f s
  | .fxfromdec rd n f => Sys2Proof.Machine.execFxfromdec rd n f s

end Sys2Proof.Machine
end

