-- ==== Sys2Proof/WellFormed.lean ====
section
/-!
DEFINITION. Which commands a header word can spell: an 8-bit half of imm16 holds a width or a fraction word count, imm16
holds a count or an index (R57, R58). Register numbers, characters and extension words fit by their types.
-/

namespace Sys2Proof

/-- The value fits immlo or immhi, 8 bits (R57). -/
def fitsByte (k : Nat) : Bool := decide (k < 2 ^ 8)

/-- The value fits imm16, 16 bits, unsigned (R57, R58). -/
def fitsHalf (k : Nat) : Bool := decide (k < 2 ^ 16)

/-- Every immediate of the command fits its field of the header. (What a width, an index or F must satisfy for the command
to complete OK is checked when it executes, R177, and is no matter of spelling.) -/
def Instr.wellFormed : Instr → Bool
  | .nop | .clrst | .rdst | .sbclr | .sbput _ | .sblen => true
  | .sbget index => fitsHalf index
  | .ldi32 _ _ n _ => fitsByte n
  | .ldi64 _ _ n _ => fitsByte n
  | .mov _ _ => true
  | .getw _ index => fitsHalf index
  | .setw _ index _ => fitsHalf index
  | .add _ _ _ | .sub _ _ _ | .and _ _ _ | .or _ _ _ | .xor _ _ _ => true
  | .neg _ _ | .not _ _ => true
  | .mul _ _ _ _ | .div _ _ _ _ | .mod _ _ _ _ => true
  | .mul10 _ _ | .div10 _ _ => true
  | .shl _ _ count => fitsHalf count
  | .shr _ _ _ count => fitsHalf count
  | .cmp _ _ _ | .eq _ _ | .ne _ _ => true
  | .cast _ _ _ m => fitsByte m
  | .getbit _ index => fitsHalf index
  | .setbit _ _ index => fitsHalf index
  | .idxmsb _ => true
  | .todec _ _ | .tohex _ => true
  | .fromdec _ n => fitsByte n
  | .fromhex _ n => fitsByte n
  | .fxfromi _ _ f => fitsByte f
  | .fxadd _ _ _ f | .fxsub _ _ _ f | .fxmul _ _ _ f | .fxdiv _ _ _ f => fitsByte f
  | .fxfromd _ n f _ => fitsByte n && fitsByte f
  | .fxtod _ f | .fxtodec _ f => fitsByte f
  | .fxfromdec _ n f => fitsByte n && fitsByte f

end Sys2Proof
end

