-- ==== Sys2Proof/Decode.lean ====
section
/-!
DEFINITION. The command words of BNCMD-1: the header format (R57), the opcode map with its used fields (R60), the decoder,
which refuses undefined opcodes (R63) and nonzero must-be-zero fields (R62) by name, and the encoder.
-/

namespace Sys2Proof

/-- The fields of a header word (R57). A field a command does not use is zero (R62). -/
structure Header where
  op : Nat
  s : Bool := false
  rd : Reg := 0
  rs1 : Reg := 0
  rs2 : Reg := 0
  imm16 : Nat := 0
deriving DecidableEq, Repr

/-- The fields of a header word at the bit positions of R57. -/
def Header.ofWord (h : Word) : Header :=
  { op := h.toNat / 2 ^ 26
    s := decide (h.toNat / 2 ^ 25 % 2 = 1)
    rd := Fin.ofNat 8 (h.toNat / 2 ^ 22)
    rs1 := Fin.ofNat 8 (h.toNat / 2 ^ 19)
    rs2 := Fin.ofNat 8 (h.toNat / 2 ^ 16)
    imm16 := h.toNat % 2 ^ 16 }

/-- "h = op·2^26 + S·2^25 + rd·2^22 + rs1·2^19 + rs2·2^16 + imm16" (R57). -/
def Header.toWord (h : Header) : Word :=
  BitVec.ofNat 32
    (h.op * 2 ^ 26 + h.s.toNat * 2 ^ 25 + h.rd.val * 2 ^ 22 + h.rs1.val * 2 ^ 19 + h.rs2.val * 2 ^ 16 + h.imm16)

/-- immhi = imm16[15:8] (R57). -/
def Header.immhi (h : Header) : Nat := h.imm16 / 2 ^ 8

/-- immlo = imm16[7:0] (R57). -/
def Header.immlo (h : Header) : Nat := h.imm16 % 2 ^ 8

/-- imm16 of a command that uses immhi and immlo (R57). -/
def joinImm (immhi immlo : Nat) : Nat := immhi * 2 ^ 8 + immlo

/-- Which part of imm16 a command uses (R58, R60). -/
inductive ImmUse where
  | none
  | lo
  | hi
  | full
deriving DecidableEq, Repr

/-- A row of the opcode map (R60): the used fields, the number of extension words (R59) and the mask of
`opcode_table.json`. `s` stands for bit 25, which SETBIT uses as the new bit value. -/
structure OpRow where
  mnemonic : String
  op : Nat
  s : Bool
  rd : Bool
  rs1 : Bool
  rs2 : Bool
  imm : ImmUse
  ext : Nat
  mask : Word
deriving DecidableEq, Repr

/-- R60, system and string buffer. -/
def rowsSystem : List OpRow :=
  [ ⟨"NOP", 0x00, false, false, false, false, .none, 0, 0xFFFFFFFF⟩,
    ⟨"CLRST", 0x01, false, false, false, false, .none, 0, 0xFFFFFFFF⟩,
    ⟨"RDST", 0x02, false, false, false, false, .none, 0, 0xFFFFFFFF⟩,
    ⟨"SBCLR", 0x03, false, false, false, false, .none, 0, 0xFFFFFFFF⟩,
    ⟨"SBPUT", 0x04, false, false, false, false, .lo, 0, 0xFFFFFF00⟩,
    ⟨"SBGET", 0x05, false, false, false, false, .full, 0, 0xFFFF0000⟩,
    ⟨"SBLEN", 0x06, false, false, false, false, .none, 0, 0xFFFFFFFF⟩ ]

/-- R60, construction and word access. -/
def rowsConstruct : List OpRow :=
  [ ⟨"LDI32", 0x08, true, true, false, false, .lo, 1, 0xFC3FFF00⟩,
    ⟨"LDI64", 0x09, true, true, false, false, .lo, 2, 0xFC3FFF00⟩,
    ⟨"MOV", 0x0A, false, true, true, false, .none, 0, 0xFE07FFFF⟩,
    ⟨"GETW", 0x0B, false, false, true, false, .full, 0, 0xFFC70000⟩,
    ⟨"SETW", 0x0C, false, true, false, false, .full, 1, 0xFE3F0000⟩ ]

/-- R60, add, subtract, bitwise. -/
def rowsAddLogic : List OpRow :=
  [ ⟨"ADD", 0x10, false, true, true, true, .none, 0, 0xFE00FFFF⟩,
    ⟨"SUB", 0x11, false, true, true, true, .none, 0, 0xFE00FFFF⟩,
    ⟨"NEG", 0x12, false, true, true, false, .none, 0, 0xFE07FFFF⟩,
    ⟨"NOT", 0x13, false, true, true, false, .none, 0, 0xFE07FFFF⟩,
    ⟨"AND", 0x14, false, true, true, true, .none, 0, 0xFE00FFFF⟩,
    ⟨"OR", 0x15, false, true, true, true, .none, 0, 0xFE00FFFF⟩,
    ⟨"XOR", 0x16, false, true, true, true, .none, 0, 0xFE00FFFF⟩ ]

/-- R60, multiply, divide. -/
def rowsMulDiv : List OpRow :=
  [ ⟨"MUL", 0x18, true, true, true, true, .none, 0, 0xFC00FFFF⟩,
    ⟨"DIV", 0x19, true, true, true, true, .none, 0, 0xFC00FFFF⟩,
    ⟨"MOD", 0x1A, true, true, true, true, .none, 0, 0xFC00FFFF⟩,
    ⟨"MUL10", 0x1B, false, true, true, false, .none, 0, 0xFE07FFFF⟩,
    ⟨"DIV10", 0x1C, false, true, true, false, .none, 0, 0xFE07FFFF⟩ ]

/-- R60, shifts, compares. -/
def rowsShiftCompare : List OpRow :=
  [ ⟨"SHL", 0x20, false, true, true, false, .full, 0, 0xFE070000⟩,
    ⟨"SHR", 0x21, true, true, true, false, .full, 0, 0xFC070000⟩,
    ⟨"CMP", 0x24, true, false, true, true, .none, 0, 0xFDC0FFFF⟩,
    ⟨"EQ", 0x25, false, false, true, true, .none, 0, 0xFFC0FFFF⟩,
    ⟨"NE", 0x26, false, false, true, true, .none, 0, 0xFFC0FFFF⟩ ]

/-- R60, cast and bit access, text. -/
def rowsCastText : List OpRow :=
  [ ⟨"CAST", 0x28, true, true, true, false, .lo, 0, 0xFC07FF00⟩,
    ⟨"GETBIT", 0x29, false, false, true, false, .full, 0, 0xFFC70000⟩,
    ⟨"SETBIT", 0x2A, true, true, false, false, .full, 0, 0xFC3F0000⟩,
    ⟨"IDXMSB", 0x2B, false, false, true, false, .none, 0, 0xFFC7FFFF⟩,
    ⟨"TODEC", 0x2C, true, false, true, false, .none, 0, 0xFDC7FFFF⟩,
    ⟨"TOHEX", 0x2D, false, false, true, false, .none, 0, 0xFFC7FFFF⟩,
    ⟨"FROMDEC", 0x2E, false, true, false, false, .lo, 0, 0xFE3FFF00⟩,
    ⟨"FROMHEX", 0x2F, false, true, false, false, .lo, 0, 0xFE3FFF00⟩ ]

/-- R60, fixed point. -/
def rowsFixed : List OpRow :=
  [ ⟨"FXFROMI", 0x30, false, true, true, false, .hi, 0, 0xFE0700FF⟩,
    ⟨"FXADD", 0x31, false, true, true, true, .hi, 0, 0xFE0000FF⟩,
    ⟨"FXSUB", 0x32, false, true, true, true, .hi, 0, 0xFE0000FF⟩,
    ⟨"FXMUL", 0x33, false, true, true, true, .hi, 0, 0xFE0000FF⟩,
    ⟨"FXDIV", 0x34, false, true, true, true, .hi, 0, 0xFE0000FF⟩,
    ⟨"FXFROMD", 0x38, false, true, false, false, .full, 2, 0xFE3F0000⟩,
    ⟨"FXTOD", 0x39, false, false, true, false, .hi, 0, 0xFFC700FF⟩,
    ⟨"FXTODEC", 0x3A, false, false, true, false, .hi, 0, 0xFFC700FF⟩,
    ⟨"FXFROMDEC", 0x3B, false, true, false, false, .full, 0, 0xFE3F0000⟩ ]

/-- The opcode map: 46 commands (R60). -/
def opcodeTable : List OpRow :=
  rowsSystem ++ rowsConstruct ++ rowsAddLogic ++ rowsMulDiv ++ rowsShiftCompare ++ rowsCastText ++ rowsFixed

/-- The `match` of `opcode_table.json`: the opcode at its place, every other bit zero. -/
def OpRow.matchWord (r : OpRow) : Word := BitVec.ofNat 32 (r.op * 2 ^ 26)

/-- The row of an opcode, or none for the 18 undefined opcodes (R63). -/
def opRow (op : Nat) : Option OpRow := opcodeTable.find? (fun r => r.op == op)

/-- How many extension words follow a header with this opcode: fixed by the opcode alone, none for an undefined opcode
(R59, R63). -/
def extWords (op : Nat) : Nat :=
  match opRow op with
  | some r => r.ext
  | none => 0

/-- How many words the command that begins with header word `h` has (R59). -/
def commandLength (h : Word) : Nat := 1 + extWords (Header.ofWord h).op

/-- Every field not listed as used is zero (R62). -/
def unusedZero (r : OpRow) (h : Header) : Bool :=
  (r.s || !h.s) && (r.rd || h.rd == 0) && (r.rs1 || h.rs1 == 0) && (r.rs2 || h.rs2 == 0) &&
    (match r.imm with
     | .none => h.imm16 == 0
     | .lo => h.immhi == 0
     | .hi => h.immlo == 0
     | .full => true)

/-- imm32, "that word" (R59). -/
def imm32Of (ext : List Word) : Word := ext.getD 0 0

/-- imm64 = second·2^32 + first: low word first (R59). -/
def imm64Of (ext : List Word) : BitVec 64 :=
  BitVec.ofNat 64 ((ext.getD 1 0).toNat * 2 ^ 32 + (ext.getD 0 0).toNat)

/-- The two extension words of a 64-bit immediate, low word first (R59). -/
def imm64Words (k : BitVec 64) : List Word :=
  [BitVec.ofNat 32 k.toNat, BitVec.ofNat 32 (k.toNat / 2 ^ 32)]

/-- The command a header and its extension words spell (R60), none for an undefined opcode (R63). -/
def buildInstr (h : Header) (ext : List Word) : Option Instr :=
  match h.op with
  | 0x00 => some .nop
  | 0x01 => some .clrst
  | 0x02 => some .rdst
  | 0x03 => some .sbclr
  | 0x04 => some (.sbput (BitVec.ofNat 8 h.immlo))
  | 0x05 => some (.sbget h.imm16)
  | 0x06 => some .sblen
  | 0x08 => some (.ldi32 h.s h.rd h.immlo (imm32Of ext))
  | 0x09 => some (.ldi64 h.s h.rd h.immlo (imm64Of ext))
  | 0x0A => some (.mov h.rd h.rs1)
  | 0x0B => some (.getw h.rs1 h.imm16)
  | 0x0C => some (.setw h.rd h.imm16 (imm32Of ext))
  | 0x10 => some (.add h.rd h.rs1 h.rs2)
  | 0x11 => some (.sub h.rd h.rs1 h.rs2)
  | 0x12 => some (.neg h.rd h.rs1)
  | 0x13 => some (.not h.rd h.rs1)
  | 0x14 => some (.and h.rd h.rs1 h.rs2)
  | 0x15 => some (.or h.rd h.rs1 h.rs2)
  | 0x16 => some (.xor h.rd h.rs1 h.rs2)
  | 0x18 => some (.mul h.s h.rd h.rs1 h.rs2)
  | 0x19 => some (.div h.s h.rd h.rs1 h.rs2)
  | 0x1A => some (.mod h.s h.rd h.rs1 h.rs2)
  | 0x1B => some (.mul10 h.rd h.rs1)
  | 0x1C => some (.div10 h.rd h.rs1)
  | 0x20 => some (.shl h.rd h.rs1 h.imm16)
  | 0x21 => some (.shr h.s h.rd h.rs1 h.imm16)
  | 0x24 => some (.cmp h.s h.rs1 h.rs2)
  | 0x25 => some (.eq h.rs1 h.rs2)
  | 0x26 => some (.ne h.rs1 h.rs2)
  | 0x28 => some (.cast h.s h.rd h.rs1 h.immlo)
  | 0x29 => some (.getbit h.rs1 h.imm16)
  | 0x2A => some (.setbit h.s h.rd h.imm16)
  | 0x2B => some (.idxmsb h.rs1)
  | 0x2C => some (.todec h.s h.rs1)
  | 0x2D => some (.tohex h.rs1)
  | 0x2E => some (.fromdec h.rd h.immlo)
  | 0x2F => some (.fromhex h.rd h.immlo)
  | 0x30 => some (.fxfromi h.rd h.rs1 h.immhi)
  | 0x31 => some (.fxadd h.rd h.rs1 h.rs2 h.immhi)
  | 0x32 => some (.fxsub h.rd h.rs1 h.rs2 h.immhi)
  | 0x33 => some (.fxmul h.rd h.rs1 h.rs2 h.immhi)
  | 0x34 => some (.fxdiv h.rd h.rs1 h.rs2 h.immhi)
  | 0x38 => some (.fxfromd h.rd h.immlo h.immhi (imm64Of ext))
  | 0x39 => some (.fxtod h.rs1 h.immhi)
  | 0x3A => some (.fxtodec h.rs1 h.immhi)
  | 0x3B => some (.fxfromdec h.rd h.immlo h.immhi)
  | _ => none

/-- Why a list of words does not begin with a legal command. -/
inductive Reject where
  /-- No word at all: no command (R55). -/
  | noHeader
  /-- An opcode outside the map of R60, the reserved ROL, ROR and FXMOD among them (R63). -/
  | undefinedOpcode
  /-- A defined opcode with a nonzero must-be-zero field (R62). -/
  | nonzeroField
  /-- The extension words have not all arrived: the command has not started (R56). -/
  | incomplete
deriving DecidableEq, Repr

/-- The command a list of words begins with, and the words after it. Total on any list of words. -/
def decode : List Word → Except Reject (Instr × List Word)
  | [] => .error .noHeader
  | w :: rest =>
    match opRow (Header.ofWord w).op with
    | none => .error .undefinedOpcode
    | some r =>
      if rest.length < r.ext then .error .incomplete
      else if unusedZero r (Header.ofWord w) then
        match buildInstr (Header.ofWord w) (rest.take r.ext) with
        | some i => .ok (i, rest.drop r.ext)
        | none => .error .undefinedOpcode
      else .error .nonzeroField

/-- The words of an opcode-table row's instruction as `opcode_table.json` numbers its bits: bit 0 is the least significant
bit of the first word, and a later word's bits count on from it. Bits at `nbits` and above are zero; the longest command has
three words (R59). -/
def tableWords (nbits w : Nat) : List Word :=
  [BitVec.ofNat 32 (w % 2 ^ nbits), BitVec.ofNat 32 (w % 2 ^ nbits / 2 ^ 32), BitVec.ofNat 32 (w % 2 ^ nbits / 2 ^ 64)]

/-- The instruction the decoder reads from an instruction whose bits are `w`. -/
def decodeTableWord (nbits w : Nat) : Option Instr :=
  match decode (tableWords nbits w) with
  | .ok (i, _) => some i
  | .error _ => none

/-- The header of a command: its opcode and used fields (R57, R60), every other field zero (R62). -/
def headerOf : Instr → Header
  | .nop => { op := 0x00 }
  | .clrst => { op := 0x01 }
  | .rdst => { op := 0x02 }
  | .sbclr => { op := 0x03 }
  | .sbput char => { op := 0x04, imm16 := char.toNat }
  | .sbget index => { op := 0x05, imm16 := index }
  | .sblen => { op := 0x06 }
  | .ldi32 sg rd n _ => { op := 0x08, s := sg, rd := rd, imm16 := n }
  | .ldi64 sg rd n _ => { op := 0x09, s := sg, rd := rd, imm16 := n }
  | .mov rd rs1 => { op := 0x0A, rd := rd, rs1 := rs1 }
  | .getw rs1 index => { op := 0x0B, rs1 := rs1, imm16 := index }
  | .setw rd index _ => { op := 0x0C, rd := rd, imm16 := index }
  | .add rd rs1 rs2 => { op := 0x10, rd := rd, rs1 := rs1, rs2 := rs2 }
  | .sub rd rs1 rs2 => { op := 0x11, rd := rd, rs1 := rs1, rs2 := rs2 }
  | .neg rd rs1 => { op := 0x12, rd := rd, rs1 := rs1 }
  | .not rd rs1 => { op := 0x13, rd := rd, rs1 := rs1 }
  | .and rd rs1 rs2 => { op := 0x14, rd := rd, rs1 := rs1, rs2 := rs2 }
  | .or rd rs1 rs2 => { op := 0x15, rd := rd, rs1 := rs1, rs2 := rs2 }
  | .xor rd rs1 rs2 => { op := 0x16, rd := rd, rs1 := rs1, rs2 := rs2 }
  | .mul sg rd rs1 rs2 => { op := 0x18, s := sg, rd := rd, rs1 := rs1, rs2 := rs2 }
  | .div sg rd rs1 rs2 => { op := 0x19, s := sg, rd := rd, rs1 := rs1, rs2 := rs2 }
  | .mod sg rd rs1 rs2 => { op := 0x1A, s := sg, rd := rd, rs1 := rs1, rs2 := rs2 }
  | .mul10 rd rs1 => { op := 0x1B, rd := rd, rs1 := rs1 }
  | .div10 rd rs1 => { op := 0x1C, rd := rd, rs1 := rs1 }
  | .shl rd rs1 count => { op := 0x20, rd := rd, rs1 := rs1, imm16 := count }
  | .shr sg rd rs1 count => { op := 0x21, s := sg, rd := rd, rs1 := rs1, imm16 := count }
  | .cmp sg rs1 rs2 => { op := 0x24, s := sg, rs1 := rs1, rs2 := rs2 }
  | .eq rs1 rs2 => { op := 0x25, rs1 := rs1, rs2 := rs2 }
  | .ne rs1 rs2 => { op := 0x26, rs1 := rs1, rs2 := rs2 }
  | .cast sg rd rs1 m => { op := 0x28, s := sg, rd := rd, rs1 := rs1, imm16 := m }
  | .getbit rs1 index => { op := 0x29, rs1 := rs1, imm16 := index }
  | .setbit v rd index => { op := 0x2A, s := v, rd := rd, imm16 := index }
  | .idxmsb rs1 => { op := 0x2B, rs1 := rs1 }
  | .todec sg rs1 => { op := 0x2C, s := sg, rs1 := rs1 }
  | .tohex rs1 => { op := 0x2D, rs1 := rs1 }
  | .fromdec rd n => { op := 0x2E, rd := rd, imm16 := n }
  | .fromhex rd n => { op := 0x2F, rd := rd, imm16 := n }
  | .fxfromi rd rs1 f => { op := 0x30, rd := rd, rs1 := rs1, imm16 := joinImm f 0 }
  | .fxadd rd rs1 rs2 f => { op := 0x31, rd := rd, rs1 := rs1, rs2 := rs2, imm16 := joinImm f 0 }
  | .fxsub rd rs1 rs2 f => { op := 0x32, rd := rd, rs1 := rs1, rs2 := rs2, imm16 := joinImm f 0 }
  | .fxmul rd rs1 rs2 f => { op := 0x33, rd := rd, rs1 := rs1, rs2 := rs2, imm16 := joinImm f 0 }
  | .fxdiv rd rs1 rs2 f => { op := 0x34, rd := rd, rs1 := rs1, rs2 := rs2, imm16 := joinImm f 0 }
  | .fxfromd rd n f _ => { op := 0x38, rd := rd, imm16 := joinImm f n }
  | .fxtod rs1 f => { op := 0x39, rs1 := rs1, imm16 := joinImm f 0 }
  | .fxtodec rs1 f => { op := 0x3A, rs1 := rs1, imm16 := joinImm f 0 }
  | .fxfromdec rd n f => { op := 0x3B, rd := rd, imm16 := joinImm f n }

/-- The extension words of a command (R59). -/
def extensionOf : Instr → List Word
  | .ldi32 _ _ _ imm32 => [imm32]
  | .setw _ _ imm32 => [imm32]
  | .ldi64 _ _ _ imm64 => imm64Words imm64
  | .fxfromd _ _ _ imm64 => imm64Words imm64
  | .nop | .clrst | .rdst | .sbclr | .sbput _ | .sbget _ | .sblen => []
  | .mov _ _ | .getw _ _ => []
  | .add _ _ _ | .sub _ _ _ | .neg _ _ | .not _ _ | .and _ _ _ | .or _ _ _ | .xor _ _ _ => []
  | .mul _ _ _ _ | .div _ _ _ _ | .mod _ _ _ _ | .mul10 _ _ | .div10 _ _ => []
  | .shl _ _ _ | .shr _ _ _ _ => []
  | .cmp _ _ _ | .eq _ _ | .ne _ _ => []
  | .cast _ _ _ _ | .getbit _ _ | .setbit _ _ _ | .idxmsb _ => []
  | .todec _ _ | .tohex _ | .fromdec _ _ | .fromhex _ _ => []
  | .fxfromi _ _ _ | .fxadd _ _ _ _ | .fxsub _ _ _ _ | .fxmul _ _ _ _ | .fxdiv _ _ _ _ => []
  | .fxtod _ _ | .fxtodec _ _ | .fxfromdec _ _ _ => []

/-- The words of a well-formed command: its header word, then its extension words (R55, R57, R59). -/
def encode (i : Instr) : List Word := (headerOf i).toWord :: extensionOf i

end Sys2Proof
end

