-- ==== Sys2Proof/Machine/Port.lean ====
section
/-!
DEFINITION. The command port (`30_encoding.md` R55, R56, R59; `70_reset_and_hazards.md` R190, R193, R198): how the words of the
next command are taken from what the host has sent.
-/

namespace Sys2Proof.Machine

open Sys2Proof

/-- What the block finds on its port. -/
inductive Received where
  /-- All words of a command, and what the host has sent after them. -/
  | command (words : List Word) (port : List PortEvent)
  /-- `rst` was asserted before the command was complete; a partly received command is forgotten (R190). -/
  | reset (port : List PortEvent)
  /-- The words that have arrived so far are no whole command: the block waits (R56, R193). -/
  | waiting (words : List Word)
deriving DecidableEq, Repr

/-- The words received are a whole command: as many as its header asks for (R59). -/
def commandComplete : List Word → Bool
  | [] => false
  | h :: ext => decide (1 + ext.length = commandLength h)

/-- Takes words from the port, in the order the host sent them, until a command is complete, `rst` is asserted, or nothing
more has arrived (R55, R56, R190). -/
def receive (words : List Word) : List PortEvent → Received
  | [] => if commandComplete words then .command words [] else .waiting words
  | e :: port =>
    if commandComplete words then .command words (e :: port)
    else match e with
      | .word w => receive (words ++ [w]) port
      | .rst => .reset port

/-- The words of the one command that an instruction's bits spell (`tableWords`): its header and as many words after it as
the header asks for. -/
def firstCommand (words : List Word) : List Word :=
  match words with
  | [] => []
  | h :: _ => words.take (commandLength h)

/-- The words of a command on the port, before everything the host has sent so far; no command partly received. -/
def State.offer (s : State) (words : List Word) : State :=
  { s with rx := [], port := words.map .word ++ s.port }

/-- The state in which a command runs: its words have been accepted from the port (R56). -/
def State.accepted (s : State) (port : List PortEvent) : State := { s with rx := [], port := port }

/-- A header that spells no command completes with IllegalCommand (R62, R63); its extension words have been consumed with it
(R62), an undefined opcode has none (R63). -/
def State.illegal (s : State) : Host.Outcome State Fault Refusal := s.finish (.error .illegalCommand)

end Sys2Proof.Machine
end

