-- ==== Sys2Proof/Machine/Step.lean ====
section
/-!
DEFINITION. One step of the block: one command (R201), or a reset (R190), or the wait for words that have not arrived (R56,
R193).
-/

namespace Sys2Proof.Machine

open Sys2Proof

/-- The block takes the next command from its port and executes it (R55, R77, R195). Where `rst` comes first, the state is that
of reset (R190). Where no whole command has arrived the block waits: "it is not a fault, and no response is produced" (R56);
only the words received so far are taken from the port. -/
def step (s : State) : Host.Outcome State Fault Refusal :=
  match receive s.rx s.port with
  | .command words port =>
    match decode words with
    | .ok (i, _) => exec i (s.accepted port)
    | .error _ => (s.accepted port).illegal
  | .reset port => .next (s.applyReset port)
  | .waiting words => .next { s with rx := words, port := [] }

/-- `s` with the instruction of an opcode-table row as the next command on the port, so that the next step runs it: the load of
a program from outside (log 5). -/
def State.withFetchWord (s : State) (nbits w : Nat) : State := s.offer (firstCommand (tableWords nbits w))

end Sys2Proof.Machine
end

