-- ==== Sys2Proof/Machine/Assembly.lean ====
section
/-!
DEFINITION. The assembly text of a command (R65) and the pseudo-instructions (R66). The block sees words, not text (D37): no
step uses this file. Numbers are written in decimal, one of the two spellings R65 allows (log 21).
-/

namespace Sys2Proof.Machine

open Sys2Proof

/-- x0 to x7 (R21, R65). -/
def asmReg (r : Reg) : String := "x" ++ toString r.val

/-- `.S` sets S = 1 and `.U` sets S = 0 (R65). -/
def asmSuffix (sg : Bool) : String := if sg then ".S" else ".U"

/-- `F=k` marks the fraction word count (R65). -/
def asmF (f : Nat) : String := "F=" ++ toString f

/-- MNEMONIC operands: the operands in the order rd, rs1, rs2, then immediates (R65). -/
def asmLine (mnemonic : String) (operands : List String) : String :=
  if operands.isEmpty then mnemonic else mnemonic ++ " " ++ String.intercalate ", " operands

/-- The assembly line of a command (R65). -/
def asm : Instr → String
  | .nop => asmLine "NOP" []
  | .clrst => asmLine "CLRST" []
  | .rdst => asmLine "RDST" []
  | .sbclr => asmLine "SBCLR" []
  | .sbput char => asmLine "SBPUT" [toString char.toNat]
  | .sbget index => asmLine "SBGET" [toString index]
  | .sblen => asmLine "SBLEN" []
  | .ldi32 sg rd n imm32 => asmLine ("LDI32" ++ asmSuffix sg) [asmReg rd, toString n, toString imm32.toNat]
  | .ldi64 sg rd n imm64 => asmLine ("LDI64" ++ asmSuffix sg) [asmReg rd, toString n, toString imm64.toNat]
  | .mov rd rs1 => asmLine "MOV" [asmReg rd, asmReg rs1]
  | .getw rs1 index => asmLine "GETW" [asmReg rs1, toString index]
  | .setw rd index imm32 => asmLine "SETW" [asmReg rd, toString index, toString imm32.toNat]
  | .add rd rs1 rs2 => asmLine "ADD" [asmReg rd, asmReg rs1, asmReg rs2]
  | .sub rd rs1 rs2 => asmLine "SUB" [asmReg rd, asmReg rs1, asmReg rs2]
  | .neg rd rs1 => asmLine "NEG" [asmReg rd, asmReg rs1]
  | .not rd rs1 => asmLine "NOT" [asmReg rd, asmReg rs1]
  | .and rd rs1 rs2 => asmLine "AND" [asmReg rd, asmReg rs1, asmReg rs2]
  | .or rd rs1 rs2 => asmLine "OR" [asmReg rd, asmReg rs1, asmReg rs2]
  | .xor rd rs1 rs2 => asmLine "XOR" [asmReg rd, asmReg rs1, asmReg rs2]
  | .mul sg rd rs1 rs2 => asmLine ("MUL" ++ asmSuffix sg) [asmReg rd, asmReg rs1, asmReg rs2]
  | .div sg rd rs1 rs2 => asmLine ("DIV" ++ asmSuffix sg) [asmReg rd, asmReg rs1, asmReg rs2]
  | .mod sg rd rs1 rs2 => asmLine ("MOD" ++ asmSuffix sg) [asmReg rd, asmReg rs1, asmReg rs2]
  | .mul10 rd rs1 => asmLine "MUL10" [asmReg rd, asmReg rs1]
  | .div10 rd rs1 => asmLine "DIV10" [asmReg rd, asmReg rs1]
  | .shl rd rs1 count => asmLine "SHL" [asmReg rd, asmReg rs1, toString count]
  | .shr sg rd rs1 count => asmLine ("SHR" ++ asmSuffix sg) [asmReg rd, asmReg rs1, toString count]
  | .cmp sg rs1 rs2 => asmLine ("CMP" ++ asmSuffix sg) [asmReg rs1, asmReg rs2]
  | .eq rs1 rs2 => asmLine "EQ" [asmReg rs1, asmReg rs2]
  | .ne rs1 rs2 => asmLine "NE" [asmReg rs1, asmReg rs2]
  | .cast sg rd rs1 m => asmLine ("CAST" ++ asmSuffix sg) [asmReg rd, asmReg rs1, toString m]
  | .getbit rs1 index => asmLine "GETBIT" [asmReg rs1, toString index]
  | .setbit v rd index => asmLine "SETBIT" [asmReg rd, toString index, toString v.toNat]
  | .idxmsb rs1 => asmLine "IDXMSB" [asmReg rs1]
  | .todec sg rs1 => asmLine ("TODEC" ++ asmSuffix sg) [asmReg rs1]
  | .tohex rs1 => asmLine "TOHEX" [asmReg rs1]
  | .fromdec rd n => asmLine "FROMDEC" [asmReg rd, toString n]
  | .fromhex rd n => asmLine "FROMHEX" [asmReg rd, toString n]
  | .fxfromi rd rs1 f => asmLine "FXFROMI" [asmReg rd, asmReg rs1, asmF f]
  | .fxadd rd rs1 rs2 f => asmLine "FXADD" [asmReg rd, asmReg rs1, asmReg rs2, asmF f]
  | .fxsub rd rs1 rs2 f => asmLine "FXSUB" [asmReg rd, asmReg rs1, asmReg rs2, asmF f]
  | .fxmul rd rs1 rs2 f => asmLine "FXMUL" [asmReg rd, asmReg rs1, asmReg rs2, asmF f]
  | .fxdiv rd rs1 rs2 f => asmLine "FXDIV" [asmReg rd, asmReg rs1, asmReg rs2, asmF f]
  | .fxfromd rd n f imm64 => asmLine "FXFROMD" [asmReg rd, toString n, asmF f, toString imm64.toNat]
  | .fxtod rs1 f => asmLine "FXTOD" [asmReg rs1, asmF f]
  | .fxtodec rs1 f => asmLine "FXTODEC" [asmReg rs1, asmF f]
  | .fxfromdec rd n f => asmLine "FXFROMDEC" [asmReg rd, toString n, asmF f]

/-- `PUTS "text"`: SBCLR, then one SBPUT for each character in order (R66). -/
def puts (text : List Byte) : List Instr := .sbclr :: text.map .sbput

/-- `ZERO rd, n`: LDI32.U rd, n, 0 (R66). -/
def zeroReg (rd : Reg) (n : Nat) : List Instr := [.ldi32 false rd n 0]

/-- `FXLDI rd, n, F=k, imm32`: LDI32.S rd, n, imm32, then FXFROMI rd, rd, F=k (R66). -/
def fxldi (rd : Reg) (n f : Nat) (imm32 : Word) : List Instr := [.ldi32 true rd n imm32, .fxfromi rd rd f]

end Sys2Proof.Machine
end

