-- ==== Sys2Proof/Safety.lean ====
section
/-!
DEFINITION. The terms claims are stated in: which registers and fields a command names (R25, R28, R60, R170), the invariant every
step keeps, the states a host can bring the block into, and when two states cannot be told apart by any command (R35, R41, R191).
-/

namespace Sys2Proof

/-- The wide register a command writes (the "result" column of R60). -/
def Instr.dest : Instr → Option Reg
  | .nop | .clrst | .rdst | .sbclr | .sbput _ | .sbget _ | .sblen => none
  | .ldi32 _ rd _ _ | .ldi64 _ rd _ _ | .mov rd _ | .setw rd _ _ => some rd
  | .getw _ _ => none
  | .add rd _ _ | .sub rd _ _ | .neg rd _ | .not rd _ | .and rd _ _ | .or rd _ _ | .xor rd _ _ => some rd
  | .mul _ rd _ _ | .div _ rd _ _ | .mod _ rd _ _ | .mul10 rd _ | .div10 rd _ => some rd
  | .shl rd _ _ | .shr _ rd _ _ => some rd
  | .cmp _ _ _ | .eq _ _ | .ne _ _ => none
  | .cast _ rd _ _ | .setbit _ rd _ => some rd
  | .getbit _ _ | .idxmsb _ => none
  | .todec _ _ | .tohex _ => none
  | .fromdec rd _ | .fromhex rd _ => some rd
  | .fxfromi rd _ _ | .fxadd rd _ _ _ | .fxsub rd _ _ _ | .fxmul rd _ _ _ | .fxdiv rd _ _ _ => some rd
  | .fxfromd rd _ _ _ | .fxfromdec rd _ _ => some rd
  | .fxtod _ _ | .fxtodec _ _ => none

/-- The wide registers a command reads, in the order R177 examines them; SETW and SETBIT read rd (R94, R132). -/
def Instr.sources : Instr → List Reg
  | .nop | .clrst | .rdst | .sbclr | .sbput _ | .sbget _ | .sblen => []
  | .ldi32 _ _ _ _ | .ldi64 _ _ _ _ => []
  | .mov _ rs1 | .getw rs1 _ => [rs1]
  | .setw rd _ _ => [rd]
  | .add _ rs1 rs2 | .sub _ rs1 rs2 | .and _ rs1 rs2 | .or _ rs1 rs2 | .xor _ rs1 rs2 => [rs1, rs2]
  | .neg _ rs1 | .not _ rs1 => [rs1]
  | .mul _ _ rs1 rs2 | .div _ _ rs1 rs2 | .mod _ _ rs1 rs2 => [rs1, rs2]
  | .mul10 _ rs1 | .div10 _ rs1 => [rs1]
  | .shl _ rs1 _ | .shr _ _ rs1 _ => [rs1]
  | .cmp _ rs1 rs2 | .eq rs1 rs2 | .ne rs1 rs2 => [rs1, rs2]
  | .cast _ _ rs1 _ | .getbit rs1 _ | .idxmsb rs1 => [rs1]
  | .setbit _ rd _ => [rd]
  | .todec _ rs1 | .tohex rs1 => [rs1]
  | .fromdec _ _ | .fromhex _ _ => []
  | .fxfromi _ rs1 _ => [rs1]
  | .fxadd _ rs1 rs2 _ | .fxsub _ rs1 rs2 _ | .fxmul _ rs1 rs2 _ | .fxdiv _ rs1 rs2 _ => [rs1, rs2]
  | .fxfromd _ _ _ _ | .fxfromdec _ _ _ => []
  | .fxtod rs1 _ | .fxtodec rs1 _ => [rs1]

/-- The width field of the commands that have one (R58, R170: "LDI32, LDI64, CAST, FROMDEC, FROMHEX, FXFROMD, FXFROMDEC"). -/
def Instr.widthField : Instr → Option Nat
  | .ldi32 _ _ n _ | .ldi64 _ _ n _ => some n
  | .cast _ _ _ m => some m
  | .fromdec _ n | .fromhex _ n => some n
  | .fxfromd _ n _ _ | .fxfromdec _ n _ => some n
  | _ => none

/-- The fraction word count F of a fixed-point command (R58, R149). -/
def Instr.fractionField : Instr → Option Nat
  | .fxfromi _ _ f => some f
  | .fxadd _ _ _ f | .fxsub _ _ _ f | .fxmul _ _ _ f | .fxdiv _ _ _ f => some f
  | .fxfromd _ _ f _ | .fxfromdec _ _ f => some f
  | .fxtod _ f | .fxtodec _ f => some f
  | _ => none

/-- The commands that write RES (R28: "RDST, SBGET, SBLEN, GETW, DIV10 (the remainder), CMP, EQ, NE, GETBIT, IDXMSB,
FXTOD"). -/
def Instr.writesRes : Instr → Bool
  | .rdst | .sbget _ | .sblen | .getw _ _ | .div10 _ _ => true
  | .cmp _ _ _ | .eq _ _ | .ne _ _ | .getbit _ _ | .idxmsb _ | .fxtod _ _ => true
  | _ => false

/-- The commands that write SLEN (R30: SBCLR, SBPUT, TODEC, TOHEX, FXTODEC). -/
def Instr.writesSlen : Instr → Bool
  | .sbclr | .sbput _ | .todec _ _ | .tohex _ | .fxtodec _ _ => true
  | _ => false

/-- The commands that write bytes of SB (R41: SBPUT and the renderers). -/
def Instr.writesSb : Instr → Bool
  | .sbput _ | .todec _ _ | .tohex _ | .fxtodec _ _ => true
  | _ => false

/-- The commands that can draw an unspecified value (R161, R163). -/
def Instr.mayDraw : Instr → Bool
  | .fxfromd _ _ _ _ | .fxtod _ _ => true
  | _ => false

/-- The 18 undefined opcodes, as R63 lists them. -/
def undefinedOpcodes : List Nat :=
  [0x07, 0x0D, 0x0E, 0x0F, 0x17, 0x1D, 0x1E, 0x1F, 0x22, 0x23, 0x27, 0x35, 0x36, 0x37, 0x3C, 0x3D, 0x3E, 0x3F]

namespace Machine

/-- Register `r` holds the value `a`: valid, with the words of `a` and the width tag a.length (R21). -/
abbrev State.Holds (s : State) (r : Reg) (a : Wide) : Prop := s.x[r] = WReg.of a

/-- The command completes with OK and the effects of `t` (R178). -/
abbrev State.CompletesTo (s : State) (i : Instr) (t : State) : Prop := exec i s = .next t.completeOk

/-- The command completes with the non-OK status `e`: nothing is written but STATUS (R178). -/
abbrev State.FailsWith (s : State) (i : Instr) (e : Err) : Prop := exec i s = .next (s.completeErr e)

/-- The state that differs from `s` in that register `r` now holds `a` (R22). -/
abbrev State.withX (s : State) (r : Reg) (a : Wide) : State := { s with x := s.x.set r.val (WReg.of a) }

/-- The state that differs from `s` in RES (R28). -/
abbrev State.withRes (s : State) (k : BitVec 64) : State := { s with res := k }

/-- No whole command has arrived: no word at all, or fewer than the header asks for (R56). -/
def notYetWhole (words : List Word) : Prop := words = [] ∨ ∃ h ext, words = h :: ext ∧ 1 + ext.length < commandLength h

/-- The two sources hold values (R23) of one width (R100). -/
structure State.HoldsPair (s : State) (r1 r2 : Reg) (a b : Wide) : Prop where
  first : s.Holds r1 a
  second : s.Holds r2 b
  width : a.length = b.length

/-- A character that is a decimal digit (R43, R144). -/
abbrev isDecDigit (c : Byte) : Prop := 0x30 ≤ c.toNat ∧ c.toNat ≤ 0x39

/-- The number a list of decimal digit characters denotes, most significant first (R140, R144). -/
def decValue (ds : List Byte) : Nat := ds.foldl (fun acc c => 10 * acc + (c.toNat - 0x30)) 0

/-- A character that is a hexadecimal digit where upper case is accepted or not (R43, R147). -/
abbrev isHexDigit (upper : Bool) (c : Byte) : Prop :=
  isDecDigit c ∨ (0x61 ≤ c.toNat ∧ c.toNat ≤ 0x66) ∨ (upper = true ∧ 0x41 ≤ c.toNat ∧ c.toNat ≤ 0x46)

/-- The number a list of hexadecimal digit characters denotes, most significant first: 'a' and 'A' are 10 (R43, R146). -/
def hexValue (ds : List Byte) : Nat :=
  ds.foldl (fun acc c => 16 * acc + (if c.toNat ≤ 0x39 then c.toNat - 0x30 else c.toNat % 0x20 + 9)) 0

/-- The characters of a string as ASCII bytes (R43). -/
def asciiOf (chars : List Char) : List Byte := chars.map (fun c => BitVec.ofNat 8 c.toNat)

/-- The real number a finite double's pattern stands for: (−1)^s · 1.f · 2^(e−1023), and (−1)^s · 0.f · 2^(−1022) for
exponent field 0 (R17; the bias 1023 is G3; PRESUMED, log 14: the spec does not define a subnormal's number). -/
def doubleValue (d : BitVec 64) : ℚ :=
  (if dsign d then -1 else 1) *
    (if dexp d = 0 then (dman d : ℚ) / 2 ^ 1074 else (2 ^ 52 + dman d : ℚ) * 2 ^ dexp d / 2 ^ 1075)

/-- The codes of R170: 0x00, 0x01 to 0x04, 0x10 to 0x16; the others "are never produced". -/
def producedCode (c : BitVec 8) : Bool := decide (c.toNat ≤ 0x04 ∨ (0x10 ≤ c.toNat ∧ c.toNat ≤ 0x16))

/-- What every state a run reaches satisfies. -/
structure State.Inv (s : State) : Prop where
  /-- The parameters are in range (R7, R8). -/
  cfg_wf : s.cfg.wf = true
  /-- 1 ≤ n ≤ NMAX for a valid register (R21). -/
  widths : ∀ r : Reg, s.x[r].valid = true → 1 ≤ s.x[r].n ∧ s.x[r].n ≤ s.cfg.nmax
  /-- 0 ≤ SLEN ≤ SBSIZE (R30). -/
  slen_le : s.slen.toNat ≤ s.cfg.sbsize
  /-- The string buffer is in canonical form, with addresses 0 to SBSIZE − 1 only (R47). -/
  sb_wf : s.sb.wf = true
  sb_bound : ∀ c ∈ s.sb, c.1 < s.cfg.sbsize
  /-- STATUS[31:9] reads as 0 (R29). -/
  reserved_zero : statusReserved s.status = 0
  /-- LAST is a code of R170, and EANY is 1 where LAST is a failure (R29). -/
  last_code : producedCode (statusLast s.status) = true
  last_eany : statusLast s.status ≠ okCode → statusEany s.status = true
  /-- The status of every response is a code of R170. -/
  rsp_code : ∀ r ∈ s.rsp, producedCode r.status = true
  /-- The words received so far are no whole command (R56). -/
  rx_partial : commandComplete s.rx = false

/-- The states a host can bring the block into: reset with parameters in range, sending words or `rst`, and steps. -/
inductive Reachable : State → Prop where
  | reset (c : Config) (h : c.wf = true) : Reachable (State.resetWith c)
  | send (s : State) (events : List PortEvent) (h : Reachable s) : Reachable { s with port := s.port ++ events }
  | step (s t : State) (h : Reachable s) (hst : Machine.step s = .next t) : Reachable t

/-- Two states that differ only where the spec says nothing can be observed: the width tag and words of an invalid register
(R36), and the bytes of SB at SLEN and above (R41). -/
structure State.ObsEq (s t : State) : Prop where
  valid : ∀ r : Reg, s.x[r].valid = t.x[r].valid
  words : ∀ r : Reg, s.x[r].valid = true → s.x[r].w = t.x[r].w
  res : s.res = t.res
  status : s.status = t.status
  slen : s.slen = t.slen
  text : ∀ a : Nat, a < s.slen.toNat → s.sb.read a = t.sb.read a
  sb_wf : s.sb.wf = true ∧ t.sb.wf = true
  rx : s.rx = t.rx
  port : s.port = t.port
  rsp : s.rsp = t.rsp
  draws : s.draws = t.draws
  cfg : s.cfg = t.cfg

end Machine

end Sys2Proof
end

