-- ==== Sys2Proof/Certificates/Slice0/Obligations.lean ====
section
/-!
DEFINITION. The statements for the provers, in the terms of Sys2Proof/Safety.lean. `s.CompletesTo i t` says that exec answers the
next state: the effects `t`, then the completion with OK; so a statement that gives `t` as an update of `s` says in one
equation the result and that everything else is unchanged.
-/

open Sys2Proof Sys2Proof.Machine

/-! ### Encoding -/

/-- The worked encodings of R67: each row's words decode to its command, and the command encodes to them. -/
def Obligations.WorkedEncodings : Prop :=
  ∀ p ∈ ([ (Instr.nop, [0x00000000]),
           (.ldi32 false 2 4 0x8765, [0x20800004, 0x00008765]),
           (.ldi64 false 1 4 0x123456789ABCDEF0, [0x24400004, 0x9ABCDEF0, 0x12345678]),
           (.setw 1 2 0x9ABCDEF0, [0x30400002, 0x9ABCDEF0]),
           (.div false 3 1 2, [0x64CA0000]),
           (.mod false 4 1 2, [0x690A0000]),
           (.mul true 1 1 2, [0x624A0000]),
           (.shr true 2 1 7, [0x86880007]),
           (.tohex 3, [0xB4180000]),
           (.fxmul 3 1 2 2, [0xCCCA0200]),
           (.fxfromd 1 6 2 0x408F410000000000, [0xE0400206, 0x00000000, 0x408F4100]) ] : List (Instr × List Word)),
    decode p.2 = .ok (p.1, []) ∧ encode p.1 = p.2

/-- Decoding the words of a well-formed command gives it back, with what follows it untouched. -/
def Obligations.DecodeOfEncode : Prop :=
  ∀ (i : Instr) (rest : List Word), i.wellFormed = true → decode (encode i ++ rest) = .ok (i, rest)

/-- Whatever words decode to a command are the words of that command, which is well-formed: one spelling each (R64). -/
def Obligations.EncodeOfDecode : Prop :=
  ∀ (words rest : List Word) (i : Instr), decode words = .ok (i, rest) → i.wellFormed = true ∧ encode i ++ rest = words

/-- R62: a header with a defined opcode, its extension words behind it, spells a command exactly when every field the command
does not use is zero (immhi where it uses only immlo, immlo where it uses only immhi), that is when (h AND mask) = match;
otherwise the command consumes its extension words and completes with IllegalCommand. -/
def Obligations.LegalSpellingIsMaskMatch : Prop :=
  ∀ (h : Word) (ext : List Word) (r : OpRow), opRow (Header.ofWord h).op = some r → ext.length = r.ext →
    ((∃ i, decode (h :: ext) = .ok (i, [])) ↔ unusedZero r (Header.ofWord h) = true) ∧
    (unusedZero r (Header.ofWord h) = true ↔ h &&& r.mask = r.matchWord) ∧
    (unusedZero r (Header.ofWord h) = false → ∀ (s : State) (k : Nat) (port : List PortEvent), k ≤ ext.length →
      s.rx = (h :: ext).take k → s.port = ((h :: ext).drop k).map .word ++ port →
      step s = .next (({ s with rx := [], port := port } : State).completeErr .illegalCommand))

/-- R63: the 18 opcodes outside the map are exactly those listed, and a header with one is a one-word command, whatever its
other bits, that completes with IllegalCommand. -/
def Obligations.UndefinedOpcodeIsOneIllegalWord : Prop :=
  (∀ op : Nat, op < 64 → (opRow op = none ↔ op ∈ undefinedOpcodes)) ∧
  ∀ (s : State) (h : Word) (port : List PortEvent), (Header.ofWord h).op ∈ undefinedOpcodes → s.rx = [] →
    s.port = .word h :: port →
    step s = .next (({ s with port := port } : State).completeErr .illegalCommand)

/-- R59: the length of a command is known from its opcode alone, and the extension words are imm32, or imm64 low word first. -/
def Obligations.LengthAndExtensionWords : Prop :=
  (∀ h : Word, commandLength h =
    if (Header.ofWord h).op = 0x08 ∨ (Header.ofWord h).op = 0x0C then 2
    else if (Header.ofWord h).op = 0x09 ∨ (Header.ofWord h).op = 0x38 then 3 else 1) ∧
  ∀ (h : Word) (words rest : List Word) (i : Instr), decode (h :: words) = .ok (i, rest) →
    match i with
    | .ldi32 _ _ _ imm32 | .setw _ _ imm32 => words = imm32 :: rest
    | .ldi64 _ _ _ imm64 | .fxfromd _ _ _ imm64 =>
      ∃ first second : Word, words = first :: second :: rest ∧
        imm64.toNat = second.toNat * 2 ^ 32 + first.toNat
    | _ => words = rest

/-! ### The step -/

/-- When the words received so far and the words on the port are the words of a command, a step is that command's meaning, in
the state where its words have been accepted. -/
def Obligations.StepRunsDecodedCommand : Prop :=
  ∀ (s : State) (words : List Word) (k : Nat) (i : Instr) (port : List PortEvent),
    decode words = .ok (i, []) → k < words.length → s.rx = words.take k →
    s.port = (words.drop k).map .word ++ port →
    step s = exec i { s with rx := [], port := port }

/-- R56: a command whose words have not all arrived has not started; the block waits, with no response and no effect. -/
def Obligations.IncompleteCommandWaits : Prop :=
  ∀ (s : State) (words : List Word), notYetWhole (s.rx ++ words) → s.port = words.map .word →
    step s = .next { s with rx := s.rx ++ words, port := [] }

/-- Reset (R190, R191; that the responses, the draw counter and the rest of the port stand is the model's choice, log 6): a
partly received command is forgotten and the state is that of reset. -/
def Obligations.ResetForgetsPartialCommand : Prop :=
  ∀ (s : State) (words : List Word) (port : List PortEvent), notYetWhole (s.rx ++ words) →
    s.port = words.map .word ++ .rst :: port →
    ∃ t, step s = .next t ∧ (∀ r : Reg, t.x[r].valid = false) ∧ t.res = 0 ∧ t.status = 0 ∧ t.slen = 0 ∧
      t.rx = [] ∧ t.port = port ∧ t.rsp = s.rsp ∧ t.draws = s.draws ∧ t.cfg = s.cfg

/-- R37, and what R36, R38 and R191 fix of the rest: the state after reset, for every setting of the parameters; the defaults
of R7. -/
def Obligations.ResetState : Prop :=
  (∀ c : Config, (State.resetWith c).res = 0 ∧ (State.resetWith c).status = 0 ∧
    statusLast (State.resetWith c).status = 0x00 ∧ statusEany (State.resetWith c).status = false ∧
    (State.resetWith c).slen = 0 ∧ (State.resetWith c).rx = [] ∧ (State.resetWith c).cfg = c ∧
    ∀ r : Reg, (State.resetWith c).x[r].valid = false) ∧
  State.reset = State.resetWith Config.standard ∧ Config.standard.nmax = 16 ∧ Config.standard.sbsize = 1024

/-! ### Completion and frames -/

/-- R178: a command that completes with a non-OK status changes STATUS alone, LAST <- the status and EANY <- 1; with OK, LAST <-
0x00 and EANY is unchanged, but for CLRST. -/
def Obligations.FailureChangesStatusOnly : Prop :=
  ∀ (i : Instr) (s : State), ∃ t, exec i s = .next t ∧
    ((statusLast t.status = okCode ∧ (i ≠ .clrst → statusEany t.status = statusEany s.status)) ∨
     (∃ e : Err, statusLast t.status = e.code ∧ e.code ≠ okCode ∧ statusEany t.status = true ∧
      statusReserved t.status = statusReserved s.status ∧
      t.x = s.x ∧ t.res = s.res ∧ t.slen = s.slen ∧ t.sb = s.sb ∧ t.rx = s.rx ∧ t.port = s.port ∧
      t.draws = s.draws ∧ t.cfg = s.cfg))

/-- The codes of R170, and what STATUS holds after either completion: LAST, EANY and the reserved bits. -/
def Obligations.StatusCodes : Prop :=
  [Err.divideByZero, .invalidDigit, .invalidHexDigit, .badFormat].map Err.code = [0x01, 0x02, 0x03, 0x04] ∧
  [Err.illegalCommand, .registerInvalid, .widthMismatch, .widthRange, .indexRange, .fractionRange, .stringOverflow].map
    Err.code = [0x10, 0x11, 0x12, 0x13, 0x14, 0x15, 0x16] ∧
  ∀ (s : State) (e : Err),
    statusLast s.completeOk.status = 0x00 ∧ statusEany s.completeOk.status = statusEany s.status ∧
    statusReserved s.completeOk.status = statusReserved s.status ∧
    statusLast (s.completeErr e).status = e.code ∧ statusEany (s.completeErr e).status = true ∧
    statusReserved (s.completeErr e).status = statusReserved s.status

/-- R179: a step that takes a command from the port produces exactly one response, with the value now in LAST and the value
now in RES, the old one on a non-OK status; a step that takes none produces none. -/
def Obligations.OneResponsePerCommand : Prop :=
  ∀ s t : State, step s = .next t →
    match receive s.rx s.port with
    | .command _ _ => t.rsp = { status := statusLast t.status, res := t.res } :: s.rsp ∧
        producedCode (statusLast t.status) = true ∧ (statusLast t.status ≠ okCode → t.res = s.res)
    | .reset _ => t.rsp = s.rsp
    | .waiting _ => t.rsp = s.rsp

/-- R25: no command writes a wide register other than the one it names as destination, and none reads a register other than
its sources: in a state with other contents there, it answers the same and writes the same. -/
def Obligations.OnlyNamedRegisters : Prop :=
  (∀ (i : Instr) (s t : State), exec i s = .next t → ∀ r : Reg, i.dest ≠ some r → t.x[r] = s.x[r]) ∧
  ∀ (i : Instr) (s s' t : State), s' = { s with x := s'.x } → (∀ r ∈ i.sources, s.x[r] = s'.x[r]) → exec i s = .next t →
    ∃ t', exec i s' = .next t' ∧ t' = { t with x := t'.x } ∧
      ∀ r : Reg, i.dest = some r → statusLast t.status = okCode → t'.x[r] = t.x[r]

/-- The frame of every command (R28, R30, R41): RES, SLEN, SB and the model's draw counter change only under the commands the
rules name; the parameters, the port and the words received never do, nor do the reserved bits of STATUS under any command but
CLRST. -/
def Obligations.FrameOfEveryCommand : Prop :=
  ∀ (i : Instr) (s t : State), exec i s = .next t →
    (i.writesRes = false → t.res = s.res) ∧ (i.writesSlen = false → t.slen = s.slen) ∧
    (i.writesSb = false → ∀ a : Nat, t.sb.read a = s.sb.read a) ∧ (i.mayDraw = false → t.draws = s.draws) ∧
    (i ≠ .clrst → statusReserved t.status = statusReserved s.status) ∧
    t.rx = s.rx ∧ t.port = s.port ∧ t.cfg = s.cfg

/-- Which bytes of SB a command that writes text stores to: SBPUT the byte at SLEN, a renderer the bytes from 0 to the length of
the text it renders; every other byte reads as before. -/
def Obligations.StoredBytes : Prop :=
  (∀ (s t : State) (char : Byte), s.sb.wf = true → exec (.sbput char) s = .next t →
    ∀ a : Nat, a ≠ s.slen.toNat → t.sb.read a = s.sb.read a) ∧
  (∀ (s t : State) (sg : Bool) (rs1 : Reg) (v : Wide), s.sb.wf = true → s.Holds rs1 v → exec (.todec sg rs1) s = .next t →
    ∀ a : Nat, (decText sg v).length ≤ a → t.sb.read a = s.sb.read a) ∧
  (∀ (s t : State) (rs1 : Reg) (v : Wide), s.sb.wf = true → s.Holds rs1 v → exec (.tohex rs1) s = .next t →
    ∀ a : Nat, (hexText v).length ≤ a → t.sb.read a = s.sb.read a) ∧
  (∀ (s t : State) (rs1 : Reg) (f : Nat) (v : Wide), s.sb.wf = true → s.Holds rs1 v → exec (.fxtodec rs1 f) s = .next t →
    ∀ a : Nat, (fxText f v).length ≤ a → t.sb.read a = s.sb.read a)

/-! ### The check order -/

/-- R23: a command one of whose sources has never been written completes with RegisterInvalid (its width field, checked
before, being in range), whatever its other operands are. -/
def Obligations.InvalidSourceFails : Prop :=
  ∀ (i : Instr) (s : State) (r : Reg), r ∈ i.sources → s.x[r].valid = false →
    (∀ n, i.widthField = some n → 1 ≤ n ∧ n ≤ s.cfg.nmax) → s.FailsWith i .registerInvalid

/-- A width field that is 0 or greater than NMAX gives WidthRange, whatever the registers and the text hold (R177 step 3). -/
def Obligations.WidthFieldOutOfRangeFails : Prop :=
  ∀ (i : Instr) (s : State) (n : Nat), i.widthField = some n → (n = 0 ∨ s.cfg.nmax < n) → s.FailsWith i .widthRange

/-- Two valid sources of different widths give WidthMismatch, for every command with two wide sources, whatever F and the
divisor are (R177 step 5). -/
def Obligations.WidthMismatchFails : Prop :=
  ∀ (i : Instr) (s : State) (r1 r2 : Reg) (a b : Wide), i.sources = [r1, r2] → s.Holds r1 a → s.Holds r2 b →
    a.length ≠ b.length → s.FailsWith i .widthMismatch

/-- R149: every fixed-point command requires 1 ≤ F ≤ n − 1, n being the width field or the width of its sources (valid and of
one width), and gives FractionRange otherwise, whatever the divisor and the text are (R177 step 6). -/
def Obligations.FractionOutOfRangeFails : Prop :=
  ∀ (i : Instr) (s : State) (n f : Nat), i.fractionField = some f → (f = 0 ∨ n ≤ f) →
    (∀ m, i.widthField = some m → m = n ∧ 1 ≤ m ∧ m ≤ s.cfg.nmax) →
    (∀ r ∈ i.sources, ∃ a, s.Holds r a ∧ a.length = n) →
    s.FailsWith i .fractionRange

/-- An index at or beyond its bound gives IndexRange: a word index at n, a bit index at 32·n, and, whatever the registers hold,
a string index at SLEN, so every index where SLEN = 0 (R177 step 6, R85). -/
def Obligations.IndexOutOfRangeFails : Prop :=
  ∀ (s : State) (r : Reg) (a : Wide) (index : Nat) (imm32 : Word) (v : Bool),
    (s.slen.toNat ≤ index → s.FailsWith (.sbget index) .indexRange) ∧
    (s.Holds r a →
      (a.length ≤ index → s.FailsWith (.getw r index) .indexRange ∧ s.FailsWith (.setw r index imm32) .indexRange) ∧
      (32 * a.length ≤ index → s.FailsWith (.getbit r index) .indexRange ∧ s.FailsWith (.setbit v r index) .indexRange))

/-- R171: a divisor whose value is zero gives DivideByZero for DIV and MOD, signed and unsigned, and for FXDIV, whatever the
dividend is; DIV10 never gives it, whatever its source is. -/
def Obligations.ZeroDivisorFails : Prop :=
  ∀ (s : State) (rd rs1 rs2 : Reg) (a b : Wide) (sg : Bool) (f : Nat),
    (s.HoldsPair rs1 rs2 a b → uval b = 0 →
      s.FailsWith (.div sg rd rs1 rs2) .divideByZero ∧ s.FailsWith (.mod sg rd rs1 rs2) .divideByZero ∧
      (1 ≤ f → f < a.length → s.FailsWith (.fxdiv rd rs1 rs2 f) .divideByZero)) ∧
    ∀ t, exec (.div10 rd rs1) s = .next t → statusLast t.status ≠ Err.divideByZero.code

/-- R54, and the first sentence of R53: SBPUT into a full buffer, and a renderer whose text is longer than SBSIZE, give
StringOverflow and write nothing. -/
def Obligations.TextTooLongFails : Prop :=
  ∀ (s : State) (char : Byte) (sg : Bool) (rs1 : Reg) (f : Nat) (a : Wide),
    (s.slen.toNat = s.cfg.sbsize → s.FailsWith (.sbput char) .stringOverflow) ∧
    (s.Holds rs1 a →
      (s.cfg.sbsize < (decText sg a).length → s.FailsWith (.todec sg rs1) .stringOverflow) ∧
      (s.cfg.sbsize < 8 * a.length → s.FailsWith (.tohex rs1) .stringOverflow) ∧
      (1 ≤ f → f < a.length → s.cfg.sbsize < (fxText f a).length → s.FailsWith (.fxtodec rs1 f) .stringOverflow))

/-! ### System and string-buffer commands -/

/-- NOP, CLRST, RDST, SBCLR and SBLEN (R80 to R83, R86) complete from every state, with exactly these effects. -/
def Obligations.SystemCommands : Prop :=
  ∀ s : State, s.CompletesTo .nop s ∧ s.CompletesTo .clrst { s with status := 0 } ∧
    s.CompletesTo .rdst (s.withRes (s.status.setWidth 64)) ∧ s.CompletesTo .sbclr { s with slen := 0 } ∧
    s.CompletesTo .sblen (s.withRes (s.slen.setWidth 64))

/-- SBPUT appends one character to the string, and SBGET reads the character at an index of it (R84, R85). -/
def Obligations.StringBufferCharacters : Prop :=
  ∀ (s : State) (char : Byte) (index : Nat), s.cfg.wf = true → s.sb.wf = true →
    (s.slen.toNat < s.cfg.sbsize → ∃ t, s.CompletesTo (.sbput char) t ∧ t.text = s.text ++ [char] ∧
      t.slen.toNat = s.slen.toNat + 1 ∧ t.sb.wf = true ∧ t = { s with sb := t.sb, slen := t.slen }) ∧
    (∀ c : Byte, s.text[index]? = some c → s.CompletesTo (.sbget index) (s.withRes (c.setWidth 64)))

/-! ### Construction, copy, word access -/

/-- LDI32 and LDI64 build wide(n, sext or zext of the immediate) (R90, R91). -/
def Obligations.NativeIntegers : Prop :=
  ∀ (s : State) (sg : Bool) (rd : Reg) (n : Nat) (imm32 : Word) (imm64 : BitVec 64), 1 ≤ n → n ≤ s.cfg.nmax →
    s.CompletesTo (.ldi32 sg rd n imm32) (s.withX rd (wide n (if sg then imm32.toInt else imm32.toNat))) ∧
    s.CompletesTo (.ldi64 sg rd n imm64) (s.withX rd (wide n (if sg then imm64.toInt else imm64.toNat)))

/-- MOV copies the value and its width; GETW reads word `index`; SETW changes word `index` alone (R92, R93, R94). -/
def Obligations.CopyAndWordAccess : Prop :=
  ∀ (s : State) (rd rs1 : Reg) (a : Wide) (index : Nat) (imm32 w : Word), s.Holds rs1 a →
    s.CompletesTo (.mov rd rs1) (s.withX rd a) ∧
    (a[index]? = some w → s.CompletesTo (.getw rs1 index) (s.withRes (w.setWidth 64)) ∧
      ∃ b : Wide, s.CompletesTo (.setw rs1 index imm32) (s.withX rs1 b) ∧ b.length = a.length ∧
        ∀ k : Nat, k < a.length → b[k]? = if k = index then some imm32 else a[k]?)

/-! ### Integer arithmetic -/

/-- ADD, SUB and NEG in numbers: U(a) + U(b), U(a) − U(b) and −U(a), modulo 2^(32n) (R100, R101, R102). -/
def Obligations.AddSubNegValues : Prop :=
  ∀ (s : State) (rd rs1 rs2 : Reg) (a b : Wide), s.HoldsPair rs1 rs2 a b →
    s.CompletesTo (.add rd rs1 rs2) (s.withX rd (wide a.length ((uval a : Int) + uval b))) ∧
    s.CompletesTo (.sub rd rs1 rs2) (s.withX rd (wide a.length ((uval a : Int) - uval b))) ∧
    s.CompletesTo (.neg rd rs1) (s.withX rd (wide a.length (-(uval a : Int))))

/-- NOT, AND, OR and XOR as operations on the bits of U (R103 to R106). -/
def Obligations.BitwiseValues : Prop :=
  ∀ (s : State) (rd rs1 rs2 : Reg) (a b : Wide), s.HoldsPair rs1 rs2 a b →
    s.CompletesTo (.not rd rs1) (s.withX rd (wide a.length ((2 ^ (32 * a.length) : Int) - 1 - uval a))) ∧
    s.CompletesTo (.and rd rs1 rs2) (s.withX rd (wide a.length (uval a &&& uval b : Nat))) ∧
    s.CompletesTo (.or rd rs1 rs2) (s.withX rd (wide a.length (uval a ||| uval b : Nat))) ∧
    s.CompletesTo (.xor rd rs1 rs2) (s.withX rd (wide a.length (uval a ^^^ uval b : Nat)))

/-- MUL is the product modulo 2^(32n), whatever S is (R110). -/
def Obligations.MultiplyValue : Prop :=
  ∀ (s : State) (sg : Bool) (rd rs1 rs2 : Reg) (a b : Wide), s.HoldsPair rs1 rs2 a b →
    s.CompletesTo (.mul sg rd rs1 rs2) (s.withX rd (wide a.length ((uval a : Int) * uval b)))

/-- DIV and MOD by a divisor other than zero: unsigned the quotient and remainder of U(a) by U(b), signed those of S(a) by S(b)
rounded toward zero, modulo 2^(32n) (R111, R112). -/
def Obligations.DivideValues : Prop :=
  ∀ (s : State) (rd rs1 rs2 : Reg) (a b : Wide), s.HoldsPair rs1 rs2 a b → uval b ≠ 0 →
    s.CompletesTo (.div false rd rs1 rs2) (s.withX rd (wide a.length (uval a / uval b : Nat))) ∧
    s.CompletesTo (.mod false rd rs1 rs2) (s.withX rd (wide a.length (uval a % uval b : Nat))) ∧
    s.CompletesTo (.div true rd rs1 rs2) (s.withX rd (wide a.length ((sval a).tdiv (sval b)))) ∧
    s.CompletesTo (.mod true rd rs1 rs2) (s.withX rd (wide a.length ((sval a).tmod (sval b))))

/-- MUL10 and DIV10: ten times U(a), and the quotient and remainder of U(a) by ten (R113, R114). -/
def Obligations.TimesTenAndDivideByTen : Prop :=
  ∀ (s : State) (rd rs1 : Reg) (a : Wide), s.Holds rs1 a →
    s.CompletesTo (.mul10 rd rs1) (s.withX rd (wide a.length (10 * uval a : Nat))) ∧
    s.CompletesTo (.div10 rd rs1)
      ((s.withX rd (wide a.length (uval a / 10 : Nat))).withRes (BitVec.ofNat 64 (uval a % 10)))

/-- R115: the laws of the family. -/
def Obligations.DivisionLaws : Prop :=
  ∀ a b : Wide, a.length = b.length →
    (uval b ≠ 0 → (∀ sg : Bool, wAdd (wMul (divmod sg a b).1 b) (divmod sg a b).2 = a) ∧
      uval (divmod false a b).2 < uval b ∧
      (uval (divmod true a b).2 = 0 ∨ signBit (divmod true a b).2 = signBit a)) ∧
    mulWords true a b = mulWords false a b ∧
    mul10Words a = mulWords false a (wide a.length 10) ∧
    div10Words a = (divmod false a (wide a.length 10)).1

/-! ### Shifts, compares, casts, bits -/

/-- SHL is U(a)·2^count; SHR is U(a) div 2^count when S = 0 and floor(S(a) / 2^count) when S = 1; all modulo 2^(32n), for every
count (R120, R121). -/
def Obligations.ShiftValues : Prop :=
  ∀ (s : State) (rd rs1 : Reg) (a : Wide) (count : Nat), s.Holds rs1 a →
    s.CompletesTo (.shl rd rs1 count) (s.withX rd (wide a.length (uval a * 2 ^ count : Nat))) ∧
    s.CompletesTo (.shr false rd rs1 count) (s.withX rd (wide a.length (uval a / 2 ^ count : Nat))) ∧
    s.CompletesTo (.shr true rd rs1 count) (s.withX rd (wide a.length (sval a / 2 ^ count)))

/-- R122: a left shift undoes a right shift but for the low bits, which it clears. -/
def Obligations.ShiftRightThenLeft : Prop :=
  ∀ (a : Wide) (k : Nat) (sg : Bool),
    (k < 32 * a.length →
      shlWords (shrWords sg a k) k = wide a.length (uval a - uval a % 2 ^ k : Nat) ∧
      (shlWords (shrWords sg a k) k = a ↔ uval a % 2 ^ k = 0)) ∧
    (32 * a.length ≤ k → shlWords (shrWords sg a k) k = wide a.length 0)

/-- CMP gives the sign of U(a) − U(b) or of S(a) − S(b), EQ and NE whether the words are the same (R125, R126, R127). -/
def Obligations.CompareValues : Prop :=
  ∀ (s : State) (rs1 rs2 : Reg) (a b : Wide), s.HoldsPair rs1 rs2 a b →
    s.CompletesTo (.cmp false rs1 rs2) (s.withRes (BitVec.ofInt 64 ((uval a : Int) - uval b).sign)) ∧
    s.CompletesTo (.cmp true rs1 rs2) (s.withRes (BitVec.ofInt 64 (sval a - sval b).sign)) ∧
    s.CompletesTo (.eq rs1 rs2) (s.withRes (if a = b then 1 else 0)) ∧
    s.CompletesTo (.ne rs1 rs2) (s.withRes (if a = b then 0 else 1))

/-- CAST gives wide(m, U(a)) or wide(m, S(a)): a widening keeps the value, a narrowing drops the high words (R130). -/
def Obligations.CastValue : Prop :=
  ∀ (s : State) (sg : Bool) (rd rs1 : Reg) (a : Wide) (m : Nat), s.Holds rs1 a → 1 ≤ m → m ≤ s.cfg.nmax →
    s.CompletesTo (.cast sg rd rs1 m) (s.withX rd (wide m (if sg then sval a else uval a)))

/-- GETBIT reads bit `index` of U; SETBIT gives it the value v and changes no other bit and no width (R131, R132). -/
def Obligations.BitAccess : Prop :=
  ∀ (s : State) (r : Reg) (a : Wide) (index : Nat) (v : Bool), s.Holds r a → index < 32 * a.length →
    s.CompletesTo (.getbit r index) (s.withRes (if (uval a).testBit index then 1 else 0)) ∧
    ∃ b : Wide, s.CompletesTo (.setbit v r index) (s.withX r b) ∧ b.length = a.length ∧
      ∀ k : Nat, (uval b).testBit k = if k = index then v else (uval a).testBit k

/-- IDXMSB gives MSB_NONE = 2^64 − 1 for zero, else the b with 2^b ≤ U(a) < 2^(b+1), which is below 32·n (R133). -/
def Obligations.HighestBitIndex : Prop :=
  ∀ (s : State) (rs1 : Reg) (a : Wide), s.Holds rs1 a →
    (uval a = 0 → s.CompletesTo (.idxmsb rs1) (s.withRes (BitVec.ofNat 64 (2 ^ 64 - 1)))) ∧
    (∀ b : Nat, 2 ^ b ≤ uval a → uval a < 2 ^ (b + 1) →
      b < 32 * a.length ∧ s.CompletesTo (.idxmsb rs1) (s.withRes (BitVec.ofNat 64 b)))

/-! ### Text -/

/-- TODEC writes the decimal numeral of S(a) or U(a), as the library's `Nat.toDigits` spells the magnitude: no leading zeros,
"0" for zero, "-" before a negative value (R140). -/
def Obligations.DecimalText : Prop :=
  ∀ (s : State) (sg : Bool) (rs1 : Reg) (a : Wide) (text : List Byte), s.Holds rs1 a →
    text = (if sg = true ∧ sval a < 0 then [0x2D] else []) ++
      asciiOf (Nat.toDigits 10 (if sg then (sval a).natAbs else uval a)) →
    text.length ≤ s.cfg.sbsize → s.CompletesTo (.todec sg rs1) (s.setText text)

/-- TOHEX writes 8·n characters of "0123456789abcdef", most significant nibble first (R142). -/
def Obligations.HexText : Prop :=
  ∀ (s : State) (rs1 : Reg) (a : Wide) (text : List Byte), s.Holds rs1 a → text.length = 8 * a.length →
    (∀ k : Nat, k < 8 * a.length →
      text[k]? = (asciiOf "0123456789abcdef".toList)[uval a / 16 ^ (8 * a.length - 1 - k) % 16]?) →
    8 * a.length ≤ s.cfg.sbsize → s.CompletesTo (.tohex rs1) (s.setText text)

/-- What `str <- text` leaves (R13): the buffer holds the text, and the bytes beyond it are as before. -/
def Obligations.TextIsStored : Prop :=
  ∀ (s : State) (text : List Byte), s.cfg.wf = true → s.sb.wf = true → text.length ≤ s.cfg.sbsize →
    (s.setText text).text = text ∧ (s.setText text).slen.toNat = text.length ∧ (s.setText text).sb.wf = true ∧
    (∀ a : Nat, text.length ≤ a → (s.setText text).sb.read a = s.sb.read a) ∧
    s.setText text = { s with sb := (s.setText text).sb, slen := (s.setText text).slen }

/-- FROMDEC (R144): a text of an optional '-' and digits gives plus or minus the decimal number modulo 2^(32n); no digit at all
gives BadFormat, any other character InvalidDigit. -/
def Obligations.DecimalParse : Prop :=
  ∀ (s : State) (rd : Reg) (n : Nat) (neg : Bool) (ds : List Byte), 1 ≤ n → n ≤ s.cfg.nmax →
    s.text = (if neg then [0x2D] else []) ++ ds → (neg = false → ds.head? ≠ some 0x2D) →
    (ds = [] → s.FailsWith (.fromdec rd n) .badFormat) ∧
    ((∃ c ∈ ds, ¬ isDecDigit c) → s.FailsWith (.fromdec rd n) .invalidDigit) ∧
    (ds ≠ [] → (∀ c ∈ ds, isDecDigit c) → s.CompletesTo (.fromdec rd n)
      (s.withX rd (wide n (if neg then -(decValue ds : Int) else decValue ds))))

/-- FROMHEX (R146, R147), for both settings of HEX_UPPER_IN: an optional '-', the prefix, and hexadecimal digits give plus or
minus the number modulo 2^(32n); a missing prefix or no digit after it gives BadFormat, any other character
InvalidHexDigit. -/
def Obligations.HexParse : Prop :=
  ∀ (s : State) (rd : Reg) (n : Nat) (neg : Bool) (body : List Byte), 1 ≤ n → n ≤ s.cfg.nmax →
    s.text = (if neg then [0x2D] else []) ++ body → (neg = false → body.head? ≠ some 0x2D) →
    ((¬ ∃ ds, body = 0x30 :: 0x78 :: ds ∨ (s.cfg.hexUpperIn = true ∧ body = 0x30 :: 0x58 :: ds)) →
      s.FailsWith (.fromhex rd n) .badFormat) ∧
    ∀ ds : List Byte, (body = 0x30 :: 0x78 :: ds ∨ (s.cfg.hexUpperIn = true ∧ body = 0x30 :: 0x58 :: ds)) →
      (ds = [] → s.FailsWith (.fromhex rd n) .badFormat) ∧
      ((∃ c ∈ ds, ¬ isHexDigit s.cfg.hexUpperIn c) → s.FailsWith (.fromhex rd n) .invalidHexDigit) ∧
      (ds ≠ [] → (∀ c ∈ ds, isHexDigit s.cfg.hexUpperIn c) → s.CompletesTo (.fromhex rd n)
        (s.withX rd (wide n (if neg then -(hexValue ds : Int) else hexValue ds))))

/-- R148: TODEC followed by FROMDEC of width n gives the value again; so does FROMHEX on the text of TOHEX with "0x" before it,
while FROMHEX directly on that text completes with BadFormat. -/
def Obligations.TextRoundTrips : Prop :=
  ∀ (s : State) (sg : Bool) (rs1 rd : Reg) (a : Wide), s.cfg.wf = true → s.sb.wf = true → s.Holds rs1 a →
    1 ≤ a.length → a.length ≤ s.cfg.nmax →
    (∀ t, exec (.todec sg rs1) s = .next t → statusLast t.status = okCode →
      t.CompletesTo (.fromdec rd a.length) (t.withX rd a)) ∧
    (∀ t, exec (.tohex rs1) s = .next t → statusLast t.status = okCode →
      t.FailsWith (.fromhex rd a.length) .badFormat ∧
      ∀ u : State, u.cfg = t.cfg → u.text = [0x30, 0x78] ++ t.text →
        u.CompletesTo (.fromhex rd a.length) (u.withX rd a))

/-- R53: with widths up to 16 words no rendering is longer than 156 (TODEC), 128 (TOHEX) or 492 (FXTODEC) characters, so none
overflows the default buffer. -/
def Obligations.RenderedLengths : Prop :=
  ∀ (a : Wide) (sg : Bool) (f : Nat), 1 ≤ a.length → a.length ≤ 16 →
    (decText sg a).length ≤ 156 ∧ (hexText a).length = 8 * a.length ∧ (hexText a).length ≤ 128 ∧
    (1 ≤ f → f < a.length → (fxText f a).length ≤ 492)

/-! ### Fixed point -/

/-- FXFROMI, FXADD and FXSUB (R150, R151, R152). -/
def Obligations.FixedFromIntegerAddSub : Prop :=
  ∀ (s : State) (rd rs1 rs2 : Reg) (f : Nat) (a b : Wide), s.HoldsPair rs1 rs2 a b → 1 ≤ f → f < a.length →
    s.CompletesTo (.fxfromi rd rs1 f) (s.withX rd (wide a.length (sval a * 2 ^ (32 * f)))) ∧
    s.CompletesTo (.fxadd rd rs1 rs2 f) (s.withX rd (wide a.length (sval a + sval b))) ∧
    s.CompletesTo (.fxsub rd rs1 rs2 f) (s.withX rd (wide a.length (sval a - sval b)))

/-- FXMUL gives floor(S(a)·S(b) / 2^(32F)) modulo 2^(32n): the widened intermediate loses nothing (R153, R155). -/
def Obligations.FixedMultiply : Prop :=
  ∀ (s : State) (rd rs1 rs2 : Reg) (f : Nat) (a b : Wide), s.HoldsPair rs1 rs2 a b → 1 ≤ f → f < a.length →
    s.CompletesTo (.fxmul rd rs1 rs2 f) (s.withX rd (wide a.length (sval a * sval b / 2 ^ (32 * f))))

/-- FXDIV by a divisor other than zero gives S(a)·2^(32F) / S(b) rounded toward zero, modulo 2^(32n) (R154, R155). -/
def Obligations.FixedDivide : Prop :=
  ∀ (s : State) (rd rs1 rs2 : Reg) (f : Nat) (a b : Wide), s.HoldsPair rs1 rs2 a b → 1 ≤ f → f < a.length → uval b ≠ 0 →
    s.CompletesTo (.fxdiv rd rs1 rs2 f) (s.withX rd (wide a.length ((sval a * 2 ^ (32 * f)).tdiv (sval b))))

/-- FXFROMD (R160, R161): zero for exponent field 0; floor(|d|·2^(32F)) with the sign of d for 1 to 2046, |d| being
(2^52 + mantissa)·2^exponent / 2^1075; for 2047 some value of width n, and one draw counted (log 8). -/
def Obligations.FixedFromDouble : Prop :=
  ∀ (s : State) (rd : Reg) (n f : Nat) (d : BitVec 64), 1 ≤ f → f < n → n ≤ s.cfg.nmax →
    (dexp d = 0 → s.CompletesTo (.fxfromd rd n f d) (s.withX rd (wide n 0))) ∧
    (dexp d ≠ 0 → dexp d ≠ 2047 → s.CompletesTo (.fxfromd rd n f d)
      (s.withX rd (wide n ((if dsign d then -1 else 1) *
        ((2 ^ 52 + dman d) * 2 ^ (dexp d + 32 * f) / 2 ^ 1075 : Nat))))) ∧
    (dexp d = 2047 → ∃ v : Wide, v.length = n ∧
      s.CompletesTo (.fxfromd rd n f d) { s.withX rd v with draws := s.draws + 1 })

/-- FXTOD (R162, R163): +0.0 for zero; with 2^p ≤ |S(a)| < 2^(p+1) and e = p − 32F + 1023 in 1..2046, the pattern of sign,
exponent e and the 52 bits below the leading one, low bits dropped; with e outside, some RES, and one draw counted (log 9). -/
def Obligations.FixedToDouble : Prop :=
  ∀ (s : State) (rs1 : Reg) (f : Nat) (a : Wide), s.Holds rs1 a → 1 ≤ f → f < a.length →
    (uval a = 0 → s.CompletesTo (.fxtod rs1 f) (s.withRes 0)) ∧
    ∀ p : Nat, 2 ^ p ≤ (sval a).natAbs → (sval a).natAbs < 2 ^ (p + 1) →
      (32 * f + 1 ≤ p + 1023 → p + 1023 ≤ 32 * f + 2046 → ∃ d : BitVec 64, s.CompletesTo (.fxtod rs1 f) (s.withRes d) ∧
        dsign d = decide (sval a < 0) ∧ dexp d = p + 1023 - 32 * f ∧
        2 ^ 52 + dman d = (sval a).natAbs * 2 ^ 52 / 2 ^ p) ∧
      ((p + 1023 < 32 * f + 1 ∨ 32 * f + 2046 < p + 1023) → ∃ k : BitVec 64,
        s.CompletesTo (.fxtod rs1 f) { s.withRes k with draws := s.draws + 1 })

/-- R163: the exponent FXTOD computes lies in 1023 − 32F .. 1022 + 32W; it is a legal normal exponent for every value exactly
when F ≤ 31 and W ≤ 32; where it is none the command completes OK with some RES and a draw, which takes a width above 32, so
that with NMAX ≤ 32 the case cannot arise. That a draw is one count of `draws` is the model's choice (log 9), no rule of the
spec. -/
def Obligations.ExponentRange : Prop :=
  (∀ W F : Nat, 1 ≤ W → 1 ≤ F →
    ((∀ a : Wide, a.length = W + F → ∀ p : Nat, 2 ^ p ≤ (sval a).natAbs → (sval a).natAbs < 2 ^ (p + 1) →
        1 ≤ fxExponent F p ∧ fxExponent F p ≤ 2046) ↔ F ≤ 31 ∧ W ≤ 32) ∧
    ∀ a : Wide, a.length = W + F → ∀ p : Nat, 2 ^ p ≤ (sval a).natAbs → (sval a).natAbs < 2 ^ (p + 1) →
      1023 - 32 * (F : Int) ≤ fxExponent F p ∧ fxExponent F p ≤ 1022 + 32 * (W : Int)) ∧
  ∀ (s : State) (rs1 : Reg) (f p : Nat) (a : Wide), s.Holds rs1 a → 1 ≤ f → f < a.length →
    2 ^ p ≤ (sval a).natAbs → (sval a).natAbs < 2 ^ (p + 1) → (fxExponent f p < 1 ∨ 2046 < fxExponent f p) →
    32 < a.length ∧ ∃ k : BitVec 64, s.CompletesTo (.fxtod rs1 f) { s.withRes k with draws := s.draws + 1 }

/-- R164: for a finite double x with |x| < 2^(32W−1), FXTOD converts what FXFROMD wrote exactly; and it gives a double within
2^(−32F) of x for every normal x and zero at every F, and for a subnormal x where F ≤ 31. The number a pattern stands for,
a subnormal's above all, is `doubleValue`'s reading (log 14, PRESUMED), no rule of the spec. -/
def Obligations.DoubleRoundTrip : Prop :=
  ∀ (s t : State) (rd : Reg) (n f : Nat) (d : BitVec 64), 1 ≤ f → f < n → n ≤ s.cfg.nmax → dexp d ≠ 2047 →
    |doubleValue d| < 2 ^ (32 * (n - f) - 1) → exec (.fxfromd rd n f d) s = .next t →
    ∃ (a : Wide) (k : BitVec 64), t.Holds rd a ∧ a.length = n ∧ t.CompletesTo (.fxtod rd f) (t.withRes k) ∧
      doubleValue k = (sval a : ℚ) / 2 ^ (32 * f) ∧
      (dexp d ≠ 0 ∨ dman d = 0 ∨ f ≤ 31 → |doubleValue k - doubleValue d| < 1 / 2 ^ (32 * f))

/-- FXTODEC writes sign, whole part, point and the exact decimal expansion of the fraction: at least one digit, at most 32·F,
no trailing zero but the single "0" of a zero fraction (R165, R166, R168). -/
def Obligations.FixedText : Prop :=
  ∀ (s : State) (rs1 : Reg) (f : Nat) (a : Wide), s.Holds rs1 a → 1 ≤ f → f < a.length →
    ∃ ds : List Byte, (∀ c ∈ ds, isDecDigit c) ∧ 1 ≤ ds.length ∧ ds.length ≤ 32 * f ∧
      (ds ≠ [0x30] → ds.getLast? ≠ some 0x30) ∧
      decValue ds * 2 ^ (32 * f) = (sval a).natAbs % 2 ^ (32 * f) * 10 ^ ds.length ∧
      ∀ text : List Byte, text = (if sval a < 0 then [0x2D] else []) ++
          asciiOf (Nat.toDigits 10 ((sval a).natAbs / 2 ^ (32 * f))) ++ [0x2E] ++ ds →
        text.length ≤ s.cfg.sbsize → s.CompletesTo (.fxtodec rs1 f) (s.setText text)

/-- FXFROMDEC (R167): an optional '-', digits, and optionally a point and digits give plus or minus
I·2^(32F) + floor(0.D·2^(32F)), modulo 2^(32n); a missing integer part or nothing after the point gives BadFormat; another
character among the digits InvalidDigit. -/
def Obligations.FixedParse : Prop :=
  ∀ (s : State) (rd : Reg) (n f : Nat) (neg : Bool) (is : List Byte) (frac : Option (List Byte)),
    1 ≤ f → f < n → n ≤ s.cfg.nmax → 0x2E ∉ is → (neg = false → is.head? ≠ some 0x2D) →
    s.text = (if neg then [0x2D] else []) ++ is ++ (frac.map (fun ds => 0x2E :: ds)).getD [] →
    ((∃ c ∈ is, ¬ isDecDigit c) → s.FailsWith (.fxfromdec rd n f) .invalidDigit) ∧
    (is = [] → s.FailsWith (.fxfromdec rd n f) .badFormat) ∧
    (is ≠ [] → (∀ c ∈ is, isDecDigit c) →
      (frac = some [] → s.FailsWith (.fxfromdec rd n f) .badFormat) ∧
      (∀ ds, frac = some ds → (∃ c ∈ ds, ¬ isDecDigit c) → s.FailsWith (.fxfromdec rd n f) .invalidDigit) ∧
      (frac ≠ some [] → (∀ c ∈ frac.getD [], isDecDigit c) → s.CompletesTo (.fxfromdec rd n f)
        (s.withX rd (wide n ((if neg then -1 else 1) *
          (decValue is * 2 ^ (32 * f) + decValue (frac.getD []) * 2 ^ (32 * f) / 10 ^ (frac.getD []).length : Nat))))))

/-- Every text FXTODEC writes parses back, with the same n and F, to the value it came from (R167). -/
def Obligations.FixedTextRoundTrip : Prop :=
  ∀ (s t : State) (rs1 rd : Reg) (f : Nat) (a : Wide), s.cfg.wf = true → s.sb.wf = true → s.Holds rs1 a →
    1 ≤ f → f < a.length → a.length ≤ s.cfg.nmax → exec (.fxtodec rs1 f) s = .next t → statusLast t.status = okCode →
    t.CompletesTo (.fxfromdec rd a.length f) (t.withX rd a)

/-! ### Invariants and what cannot be observed -/

/-- The state after reset satisfies the invariant, for every setting of the parameters in range, the defaults among them. -/
def Obligations.ResetSatisfiesInvariant : Prop :=
  (∀ c : Config, c.wf = true → (State.resetWith c).Inv) ∧ State.reset.Inv

/-- Every step keeps the invariant: widths within NMAX, SLEN within SBSIZE, the buffer in canonical form within its addresses,
reserved bits 0, LAST and every response a code of R170. -/
def Obligations.StepKeepsInvariant : Prop :=
  ∀ s t : State, s.Inv → step s = .next t → t.Inv

/-- Whatever a host sends, every state the block reaches satisfies the invariant, and its next step answers a next state. -/
def Obligations.ReachableStatesAreSafe : Prop :=
  ∀ s : State, Reachable s → s.Inv ∧ ∃ t, step s = .next t

/-- What is not observable never shows (R35, R36, R41, R191): two states that differ only in the contents of invalid
registers and in the bytes at SLEN and above take steps to two such states again, with the same responses. -/
def Obligations.UnobservableStateNeverShows : Prop :=
  ∀ s s' : State, s.ObsEq s' → ∃ t t', step s = .next t ∧ step s' = .next t' ∧ t.ObsEq t'
end

