-- ==== Sys2Proof/Laws/Wide.lean ====
section
/-!
SUPPORT. Lemmas about wide values: U is a bijection between the values of width n and the numbers below 2^(32n), wide(n, k) is
its inverse modulo 2^(32n) (R10, R12), and the helpers of R18 in terms of U and S.
-/

namespace Sys2Proof.Machine

open Sys2Proof

/-! ### The modulus -/

theorem wmod_zero : wmod 0 = 1 := rfl

theorem wmod_succ (n : Nat) : wmod (n + 1) = 2 ^ 32 * wmod n := by
  simp only [wmod, ← pow_add]
  congr 1
  omega

theorem wmod_pos (n : Nat) : 0 < wmod n := Nat.two_pow_pos _

theorem wmod_add (m n : Nat) : wmod (m + n) = wmod m * wmod n := by
  simp only [wmod, ← pow_add]
  congr 1
  omega

/-! ### U and its inverse -/

@[simp] theorem uval_nil : uval [] = 0 := rfl

@[simp] theorem uval_cons (w : Word) (ws : Wide) : uval (w :: ws) = w.toNat + 2 ^ 32 * uval ws := rfl

theorem uval_lt (a : Wide) : uval a < wmod a.length := by
  induction a with
  | nil => simp [wmod_zero]
  | cons w ws ih =>
    rw [uval_cons, List.length_cons, wmod_succ]
    have := w.isLt
    omega

@[simp] theorem length_wideNat (n k : Nat) : (wideNat n k).length = n := by
  induction n generalizing k with
  | zero => rfl
  | succ n ih => simp [wideNat, ih]

theorem uval_wideNat (n k : Nat) : uval (wideNat n k) = k % wmod n := by
  induction n generalizing k with
  | zero => simp [wideNat, wmod_zero, Nat.mod_one]
  | succ n ih =>
    rw [wideNat, uval_cons, ih, wmod_succ, BitVec.toNat_ofNat, Nat.mod_mul]

theorem wideNat_uval (a : Wide) : wideNat a.length (uval a) = a := by
  induction a with
  | nil => rfl
  | cons w ws ih =>
    have hw := w.isLt
    have hlow : (w.toNat + 2 ^ 32 * uval ws) / 2 ^ 32 = uval ws := by omega
    have hword : BitVec.ofNat 32 (w.toNat + 2 ^ 32 * uval ws) = w := by
      apply BitVec.eq_of_toNat_eq
      rw [BitVec.toNat_ofNat]
      omega
    rw [List.length_cons, wideNat, uval_cons, hlow, hword, ih]

/-- Two values of one width with one U are the same value. -/
theorem uval_injective {a b : Wide} (hlen : a.length = b.length) (h : uval a = uval b) : a = b := by
  rw [← wideNat_uval a, ← wideNat_uval b, hlen, h]

@[simp] theorem length_wide (n : Nat) (k : Int) : (wide n k).length = n := length_wideNat _ _

/-- U(wide(n, k)) = k mod 2^(32n) (R10). -/
theorem uval_wide (n : Nat) (k : Int) : (uval (wide n k) : Int) = k % (wmod n : Int) := by
  have hpos : (0 : Int) < (wmod n : Int) := by exact_mod_cast wmod_pos n
  have h0 := Int.emod_nonneg k (ne_of_gt hpos)
  have hlt := Int.emod_lt_of_pos k hpos
  rw [wide, uval_wideNat, Nat.mod_eq_of_lt (by omega)]
  omega

theorem uval_wide_natCast (n k : Nat) : uval (wide n k) = k % wmod n := by
  have h := uval_wide n k
  exact_mod_cast h

theorem uval_wide_of_lt {n k : Nat} (h : k < wmod n) : uval (wide n k) = k := by
  rw [uval_wide_natCast, Nat.mod_eq_of_lt h]

/-- wide(n, k) depends on k modulo 2^(32n) only (R12). -/
theorem wide_eq_iff (n : Nat) (k l : Int) : wide n k = wide n l ↔ k % (wmod n : Int) = l % (wmod n : Int) := by
  constructor
  · intro h
    rw [← uval_wide, ← uval_wide, h]
  · intro h
    rw [wide, wide, h]

/-- The value of width n with U(v) = k mod 2^(32n) is unique (R10). -/
theorem eq_wide_iff (a : Wide) (k : Int) : a = wide a.length k ↔ (uval a : Int) = k % (wmod a.length : Int) := by
  constructor
  · intro h
    rw [← uval_wide, ← h]
  · intro h
    apply uval_injective (by simp)
    have := uval_wide a.length k
    omega

@[simp] theorem wide_uval (a : Wide) : wide a.length (uval a) = a := by
  symm
  rw [eq_wide_iff]
  have := uval_lt a
  rw [Int.emod_eq_of_lt (by omega) (by exact_mod_cast this)]

theorem wide_add_mul_wmod (n : Nat) (k l : Int) : wide n (k + l * (wmod n : Int)) = wide n k := by
  rw [wide_eq_iff]
  exact Int.add_mul_emod_self_right ..

/-- wide(n, k) = wide(n, l) for k and l that differ by a multiple of the modulus. -/
theorem wide_congr {n : Nat} {k l : Int} (h : k ≡ l [ZMOD (wmod n : Int)]) : wide n k = wide n l :=
  (wide_eq_iff n k l).2 h

theorem uval_wide_modEq (n : Nat) (k : Int) : (uval (wide n k) : Int) ≡ k [ZMOD (wmod n : Int)] := by
  rw [uval_wide]
  exact Int.mod_modEq k _

/-! ### The sign and S -/

theorem signBit_cons_cons (v w : Word) (ws : Wide) : signBit (v :: w :: ws) = signBit (w :: ws) := by
  simp [signBit, List.getLast?_cons_cons]

/-- The sign is 1 exactly when U(v) is in the upper half of the range (R10). -/
theorem signBit_iff (a : Wide) : signBit a = true ↔ a ≠ [] ∧ wmod a.length ≤ 2 * uval a := by
  induction a with
  | nil => simp [signBit]
  | cons w ws ih =>
    cases ws with
    | nil =>
      have h1 : wmod 1 = 4294967296 := by simp [wmod]
      have hs : signBit [w] = w.msb := rfl
      rw [hs, BitVec.msb_eq_decide, decide_eq_true_eq]
      simp only [uval_cons, uval_nil, List.length_cons, List.length_nil, Nat.zero_add, h1]
      constructor
      · intro h
        exact ⟨List.cons_ne_nil _ _, by omega⟩
      · intro h
        have := h.2
        omega
    | cons v vs =>
      rw [signBit_cons_cons, ih, uval_cons w, List.length_cons (a := w), wmod_succ]
      have hw := w.isLt
      obtain ⟨k, hk⟩ : ∃ k, wmod (v :: vs).length = 2 * k :=
        ⟨2 ^ 31 * wmod vs.length, by rw [List.length_cons, wmod_succ]; ring⟩
      rw [hk]
      constructor
      · intro h
        exact ⟨List.cons_ne_nil _ _, by omega⟩
      · intro h
        exact ⟨List.cons_ne_nil _ _, by omega⟩

theorem sval_def (a : Wide) : sval a = (uval a : Int) - (if signBit a then (wmod a.length : Int) else 0) := rfl

theorem sval_modEq (a : Wide) : sval a ≡ (uval a : Int) [ZMOD (wmod a.length : Int)] := by
  rw [sval_def]
  split
  · simp [Int.ModEq]
  · simp [Int.ModEq]

@[simp] theorem wide_sval (a : Wide) : wide a.length (sval a) = a := by
  rw [wide_congr (sval_modEq a), wide_uval]

theorem sval_of_signBit {a : Wide} (h : signBit a = true) : sval a = (uval a : Int) - (wmod a.length : Int) := by
  simp [sval_def, h]

theorem sval_of_not_signBit {a : Wide} (h : signBit a = false) : sval a = (uval a : Int) := by
  simp [sval_def, h]

/-- The sign is 1 exactly when S(v) < 0. -/
theorem signBit_iff_sval_neg (a : Wide) : signBit a = true ↔ sval a < 0 := by
  have hlt := uval_lt a
  cases h : signBit a
  · simp [sval_of_not_signBit h]
  · rw [sval_of_signBit h]
    simp only [true_iff]
    omega

/-! ### The helpers of R18 -/

@[simp] theorem length_wAdd (a b : Wide) : (wAdd a b).length = a.length := by simp [wAdd]

@[simp] theorem length_wNot (a : Wide) : (wNot a).length = a.length := by simp [wNot]

@[simp] theorem length_wNeg (a : Wide) : (wNeg a).length = a.length := by simp [wNeg]

@[simp] theorem length_wSub (a b : Wide) : (wSub a b).length = a.length := by simp [wSub]

@[simp] theorem length_wAbs (a : Wide) : (wAbs a).length = a.length := by
  unfold wAbs
  split <;> simp

@[simp] theorem length_wMul (a b : Wide) : (wMul a b).length = a.length := by simp [wMul]

@[simp] theorem length_wShl (a : Wide) (c : Nat) : (wShl a c).length = a.length := by simp [wShl]

@[simp] theorem length_wLsr (a : Wide) (c : Nat) : (wLsr a c).length = a.length := by simp [wLsr]

@[simp] theorem length_wAsr (a : Wide) (c : Nat) : (wAsr a c).length = a.length := by simp [wAsr]

@[simp] theorem length_wCast (a : Wide) (m : Nat) (sg : Bool) : (wCast a m sg).length = m := by simp [wCast]

theorem xor_ones_toNat (w : Word) : (w ^^^ 0xFFFFFFFF).toNat = 2 ^ 32 - 1 - w.toNat := by
  have h : w ^^^ 0xFFFFFFFF = ~~~ w := by
    have : (0xFFFFFFFF : Word) = BitVec.allOnes 32 := by decide
    rw [this, BitVec.xor_allOnes]
  rw [h, BitVec.toNat_not]

/-- U(w_not(a)) = 2^(32n) − 1 − U(a) (R18). -/
theorem uval_wNot (a : Wide) : uval (wNot a) = wmod a.length - 1 - uval a := by
  induction a with
  | nil => simp [wNot, wmod_zero]
  | cons w ws ih =>
    have hw := w.isLt
    have hlt := uval_lt ws
    have hcons : wNot (w :: ws) = (w ^^^ 0xFFFFFFFF) :: wNot ws := rfl
    rw [hcons, uval_cons, uval_cons, ih, xor_ones_toNat, List.length_cons, wmod_succ]
    omega

/-- w_neg(a) = wide(n, −U(a)) (R18). -/
theorem wNeg_eq (a : Wide) : wNeg a = wide a.length (-(uval a : Int)) := by
  rw [wNeg, wAdd, length_wNot]
  apply wide_congr
  have hlt := uval_lt a
  have h1 := uval_wide_modEq a.length 1
  have hnot : (uval (wNot a) : Int) = (wmod a.length : Int) - 1 - uval a := by
    rw [uval_wNot]
    omega
  rw [hnot]
  calc (wmod a.length : Int) - 1 - uval a + uval (wide a.length 1)
      ≡ (wmod a.length : Int) - 1 - uval a + 1 [ZMOD (wmod a.length : Int)] := Int.ModEq.add_left _ h1
    _ = -(uval a : Int) + 1 * (wmod a.length : Int) := by ring
    _ ≡ -(uval a : Int) [ZMOD (wmod a.length : Int)] := by
      simp [Int.ModEq]

/-- w_sub(a, b) = wide(n, U(a) − U(b)) for operands of one width (R18). -/
theorem wSub_eq {a b : Wide} (h : a.length = b.length) : wSub a b = wide a.length ((uval a : Int) - uval b) := by
  rw [wSub, wAdd, wNeg_eq, ← h]
  apply wide_congr
  rw [sub_eq_add_neg]
  exact Int.ModEq.add_left _ (uval_wide_modEq _ _)

/-- U(w_abs(a)) = |S(a)|, for the most negative value too (R18). -/
theorem uval_wAbs (a : Wide) : uval (wAbs a) = (sval a).natAbs := by
  have hlt := uval_lt a
  unfold wAbs
  cases h : signBit a
  · simp [sval_of_not_signBit h]
  · have hs := (signBit_iff_sval_neg a).1 h
    rw [sval_of_signBit h] at hs ⊢
    simp only [if_true]
    rw [wNeg_eq]
    have hu := uval_wide a.length (-(uval a : Int))
    have hpos : 0 < uval a := by
      rw [signBit_iff] at h
      have := wmod_pos a.length
      omega
    have hmod : (-(uval a : Int)) % (wmod a.length : Int) = (wmod a.length : Int) - uval a := by
      rw [← Int.add_emod_right, Int.emod_eq_of_lt] <;> omega
    rw [hmod] at hu
    omega

theorem fillWord_toNat (b : Bool) : (fillWord b).toNat = if b then 2 ^ 32 - 1 else 0 := by
  cases b <;> rfl

/-- Appending words above: U of a value in terms of its low and its high words. -/
theorem uval_append (a b : Wide) : uval (a ++ b) = uval a + wmod a.length * uval b := by
  induction a with
  | nil => simp [wmod_zero]
  | cons w ws ih =>
    rw [List.cons_append, uval_cons, uval_cons, ih, List.length_cons, wmod_succ]
    ring

theorem uval_replicate_fill (m : Nat) (b : Bool) : uval (List.replicate m (fillWord b)) = if b then wmod m - 1 else 0 := by
  induction m with
  | zero => simp [wmod_zero]
  | succ m ih =>
    have := wmod_pos m
    rw [List.replicate_succ, uval_cons, ih, fillWord_toNat, wmod_succ]
    cases b
    · simp
    · simp
      omega

/-- The low words of a value: U modulo 2^(32m). -/
theorem uval_take (a : Wide) (m : Nat) (h : m ≤ a.length) : uval (a.take m) = uval a % wmod m := by
  have hsplit := uval_append (a.take m) (a.drop m)
  rw [List.take_append_drop, List.length_take, Nat.min_eq_left h] at hsplit
  have hlt := uval_lt (a.take m)
  rw [List.length_take, Nat.min_eq_left h] at hlt
  rw [hsplit, Nat.add_mul_mod_self_left, Nat.mod_eq_of_lt hlt]

/-- A cast keeps the low words and appends the fill, or drops the high words (R130). -/
theorem wCast_eq_append (a : Wide) (m : Nat) (sg : Bool) :
    wCast a m sg = a.take m ++ List.replicate (m - a.length) (fillWord (sg && signBit a)) := by
  apply List.ext_getElem
  · simp
    omega
  · intro i h1 h2
    simp only [wCast, List.getElem_map, List.getElem_range]
    simp only [length_wCast] at h1
    by_cases hi : i < a.length
    · rw [List.getElem_append_left (by simp; omega)]
      simp [List.getD_eq_getElem?_getD, hi]
    · rw [List.getElem_append_right (by simp; omega)]
      simp [List.getD_eq_getElem?_getD, hi]

end Sys2Proof.Machine
end

