-- ==== Sys2Proof/Laws/Bits.lean ====
section
/-!
SUPPORT. The bits of a wide value: bit i of U(a) is bit i mod 32 of word i div 32 (R131), which determines the value; and the
bits of wide(n, k).
-/

namespace Sys2Proof.Machine

open Sys2Proof

/-- Bit i of U(a) is the bit GETBIT reads (R131). -/
theorem testBit_uval (a : Wide) (i : Nat) : (uval a).testBit i = bitOf a i := by
  induction a generalizing i with
  | nil => simp [bitOf]
  | cons w ws ih =>
    rw [uval_cons, Nat.add_comm, Nat.testBit_two_pow_mul_add _ w.isLt]
    by_cases hi : i < 32
    · simp [hi, bitOf, Nat.div_eq_of_lt hi, Nat.mod_eq_of_lt hi, BitVec.getLsbD]
    · have hdiv : i / 32 = (i - 32) / 32 + 1 := by omega
      have hmod : i % 32 = (i - 32) % 32 := by omega
      simp [hi, ih, bitOf, hdiv, hmod]

/-- A bit at 32·n or above is 0. -/
theorem bitOf_of_le {a : Wide} {i : Nat} (h : 32 * a.length ≤ i) : bitOf a i = false := by
  have : a.length ≤ i / 32 := by omega
  simp [bitOf, List.getD_eq_getElem?_getD, this]

/-- The bits of a word of the value. -/
theorem getLsbD_getD (a : Wide) (i j : Nat) (hj : j < 32) : (a.getD i 0).getLsbD j = bitOf a (32 * i + j) := by
  simp [bitOf, show (32 * i + j) / 32 = i by omega, show (32 * i + j) % 32 = j by omega]

/-- Two values of one width with the same bits are the same value. -/
theorem ext_bitOf {a b : Wide} (hlen : a.length = b.length) (h : ∀ i, i < 32 * a.length → bitOf a i = bitOf b i) :
    a = b := by
  apply uval_injective hlen
  apply Nat.eq_of_testBit_eq
  intro i
  rw [testBit_uval, testBit_uval]
  by_cases hi : i < 32 * a.length
  · exact h i hi
  · rw [bitOf_of_le (by omega), bitOf_of_le (by omega)]

/-- The bits of wide(n, k) for a natural number k. -/
theorem bitOf_wide (n k i : Nat) : bitOf (wide n k) i = (decide (i < 32 * n) && k.testBit i) := by
  rw [← testBit_uval, uval_wide_natCast, wmod, Nat.testBit_mod_two_pow]

/-- A value is wide(n, k) when its bits are those of k. -/
theorem eq_wide_of_bits {a : Wide} {n k : Nat} (hlen : a.length = n) (h : ∀ i, i < 32 * n → bitOf a i = k.testBit i) :
    a = wide n k := by
  apply ext_bitOf (by simp [hlen])
  intro i hi
  rw [bitOf_wide, h i (hlen ▸ hi)]
  simp [hlen ▸ hi]

/-- A value given word by word. -/
theorem bitOf_map_range (n : Nat) (f : Nat → Word) {i : Nat} (hi : i < 32 * n) :
    bitOf ((List.range n).map f) i = (f (i / 32)).getLsbD (i % 32) := by
  have : i / 32 < n := by omega
  simp [bitOf, List.getD_eq_getElem?_getD, this]

/-- A word-by-word operation that acts bit by bit (R104 to R106). -/
theorem bitOf_zipWith {a b : Wide} (h : a.length = b.length) (f : Word → Word → Word) (g : Bool → Bool → Bool)
    (hfg : ∀ (u v : Word) (j : Nat), j < 32 → (f u v).getLsbD j = g (u.getLsbD j) (v.getLsbD j)) {i : Nat}
    (hi : i < 32 * a.length) : bitOf (List.zipWith f a b) i = g (bitOf a i) (bitOf b i) := by
  have h1 : i / 32 < a.length := by omega
  have h2 : i / 32 < b.length := by omega
  simp only [bitOf, List.getD_eq_getElem?_getD]
  rw [List.getElem?_eq_getElem (by simpa using ⟨h1, h2⟩), List.getElem?_eq_getElem h1, List.getElem?_eq_getElem h2]
  simp only [Option.getD_some, List.getElem_zipWith]
  exact hfg _ _ _ (Nat.mod_lt _ (by omega))

/-! ### SETBIT (R132) -/

theorem getLsbD_setWordBit (w : Word) (k : Nat) (v : Bool) (j : Nat) (hk : k < 32) (hj : j < 32) :
    (setWordBit w k v).getLsbD j = if j = k then v else w.getLsbD j := by
  have hp : (BitVec.ofNat 32 (2 ^ k)).getLsbD j = decide (j = k) := by
    rw [BitVec.getLsbD_ofNat, Nat.testBit_two_pow]
    simp [hj, eq_comm]
  unfold setWordBit
  cases v
  · by_cases h : j = k <;> simp_all
  · by_cases h : j = k <;> simp_all

@[simp] theorem length_setBitOf (a : Wide) (index : Nat) (v : Bool) : (setBitOf a index v).length = a.length := by
  simp [setBitOf]

/-- SETBIT changes the one bit (R132). -/
theorem bitOf_setBitOf {a : Wide} {index : Nat} (v : Bool) (h : index < 32 * a.length) (i : Nat) :
    bitOf (setBitOf a index v) i = if i = index then v else bitOf a i := by
  have hw : index / 32 < a.length := by omega
  by_cases hi : i / 32 = index / 32
  · have hset : (setBitOf a index v).getD (i / 32) 0 = setWordBit (a.getD (index / 32) 0) (index % 32) v := by
      simp [setBitOf, List.getD_eq_getElem?_getD, hi, hw]
    rw [bitOf, hset, getLsbD_setWordBit _ _ _ _ (Nat.mod_lt _ (by omega)) (Nat.mod_lt _ (by omega))]
    by_cases hm : i % 32 = index % 32
    · have : i = index := by omega
      simp [this]
    · have : i ≠ index := fun e => hm (by rw [e])
      simp [hm, this, bitOf, hi]
  · have hne : i ≠ index := fun e => hi (by rw [e])
    have hne' : index / 32 ≠ i / 32 := fun e => hi e.symm
    simp [bitOf, setBitOf, List.getD_eq_getElem?_getD, hne', hne]

/-! ### The highest 1 bit (R133) -/

/-- `topBit a k` is none when no bit below k is 1. -/
theorem topBit_eq_none_iff (a : Wide) (k : Nat) : topBit a k = none ↔ ∀ i, i < k → bitOf a i = false := by
  induction k with
  | zero => simp [topBit]
  | succ k ih =>
    rw [topBit]
    by_cases h : bitOf a k = true
    · simp only [h, if_true, reduceCtorEq, false_iff]
      intro hall
      simp [hall k (by omega)] at h
    · simp only [h, if_false, ih, Bool.false_eq_true]
      constructor
      · intro hall i hi
        rcases Nat.lt_succ_iff_lt_or_eq.1 hi with hi | hi
        · exact hall i hi
        · simpa [hi] using h
      · exact fun hall i hi => hall i (by omega)

/-- `topBit a k` is the largest index below k of a 1 bit. -/
theorem topBit_eq_some_iff (a : Wide) (k b : Nat) :
    topBit a k = some b ↔ b < k ∧ bitOf a b = true ∧ ∀ i, b < i → i < k → bitOf a i = false := by
  induction k with
  | zero => simp [topBit]
  | succ k ih =>
    rw [topBit]
    by_cases h : bitOf a k = true
    · simp only [h, if_true, Option.some.injEq]
      constructor
      · rintro rfl
        exact ⟨by omega, h, fun i h1 h2 => by omega⟩
      · rintro ⟨h1, -, h3⟩
        by_contra hne
        simp [h3 k (by omega) (by omega)] at h
    · simp only [h, if_false, ih, Bool.false_eq_true]
      constructor
      · rintro ⟨h1, h2, h3⟩
        refine ⟨by omega, h2, fun i hi1 hi2 => ?_⟩
        rcases Nat.lt_succ_iff_lt_or_eq.1 hi2 with hi | hi
        · exact h3 i hi1 hi
        · simpa [hi] using h
      · rintro ⟨h1, h2, h3⟩
        have hbk : b ≠ k := fun e => h (e ▸ h2)
        exact ⟨by omega, h2, fun i hi1 hi2 => h3 i hi1 (by omega)⟩

/-- No 1 bit: the value is zero. -/
theorem topBit_eq_none_iff_uval (a : Wide) : topBit a (32 * a.length) = none ↔ uval a = 0 := by
  rw [topBit_eq_none_iff]
  constructor
  · intro h
    apply Nat.eq_of_testBit_eq
    intro i
    rw [testBit_uval, Nat.zero_testBit]
    by_cases hi : i < 32 * a.length
    · exact h i hi
    · exact bitOf_of_le (by omega)
  · intro h i _
    rw [← testBit_uval, h, Nat.zero_testBit]

/-- The highest 1 bit is at b exactly when 2^b ≤ U(a) < 2^(b+1). -/
theorem topBit_eq_some_iff_uval (a : Wide) (b : Nat) :
    topBit a (32 * a.length) = some b ↔ 2 ^ b ≤ uval a ∧ uval a < 2 ^ (b + 1) := by
  rw [topBit_eq_some_iff]
  constructor
  · rintro ⟨h1, h2, h3⟩
    constructor
    · exact Nat.ge_two_pow_of_testBit (by rw [testBit_uval, h2])
    · apply Nat.lt_pow_two_of_testBit
      intro i hi
      rw [testBit_uval]
      by_cases hl : i < 32 * a.length
      · exact h3 i (by omega) hl
      · exact bitOf_of_le (by omega)
  · rintro ⟨h1, h2⟩
    have hlt := uval_lt a
    have hb : b < 32 * a.length := (Nat.pow_lt_pow_iff_right (by omega)).1 (Nat.lt_of_le_of_lt h1 hlt)
    refine ⟨hb, ?_, fun i hi _ => ?_⟩
    · rw [← testBit_uval, Nat.testBit_eq_decide_div_mod_eq]
      have hdiv : uval a / 2 ^ b = 1 := by
        apply Nat.div_eq_of_lt_le <;> rw [pow_succ] at * <;> omega
      simp [hdiv]
    · rw [← testBit_uval]
      exact Nat.testBit_lt_two_pow (Nat.lt_of_lt_of_le h2 (Nat.pow_le_pow_right (by omega) (by omega)))

end Sys2Proof.Machine
end

