-- ==== Sys2Proof/Laws/Arith.lean ====
section
/-!
SUPPORT. What the word algorithms of add, multiply, divide and compare compute, as numbers (R100, R110, R111, R125), and the
value of a cast (R130).
-/

namespace Sys2Proof.Machine

open Sys2Proof

/-! ### Helpers by value -/

theorem modEq_of_eq {n k l : Int} (h : k = l) : k ≡ l [ZMOD n] := h ▸ Int.ModEq.refl k

/-- A sum of values is the value of the sum (R12). -/
theorem wAdd_wide (n : Nat) (k l : Int) : wAdd (wide n k) (wide n l) = wide n (k + l) := by
  rw [wAdd, length_wide]
  exact wide_congr (Int.ModEq.add (uval_wide_modEq n k) (uval_wide_modEq n l))

/-- A value represents −k where it represented k (R12, R18). -/
theorem wNeg_wide (n : Nat) (k : Int) : wNeg (wide n k) = wide n (-k) := by
  rw [wNeg_eq, length_wide]
  exact wide_congr (Int.ModEq.neg (uval_wide_modEq n k))

theorem wMul_wide (n : Nat) (k l : Int) : wMul (wide n k) (wide n l) = wide n (k * l) := by
  rw [wMul, length_wide]
  exact wide_congr (Int.ModEq.mul (uval_wide_modEq n k) (uval_wide_modEq n l))

theorem wShl_wide (n : Nat) (k : Int) (c : Nat) : wShl (wide n k) c = wide n (k * 2 ^ c) := by
  rw [wShl, length_wide]
  apply wide_congr
  push_cast
  exact Int.ModEq.mul_right _ (uval_wide_modEq n k)

/-- A value is the one its number represents: U or S, both modulo 2^(32n). -/
theorem wAbs_eq (a : Wide) : wAbs a = wide a.length ((sval a).natAbs : Nat) := by
  apply uval_injective (by simp)
  rw [uval_wAbs, uval_wide_natCast, Nat.mod_eq_of_lt]
  rw [← uval_wAbs]
  have := uval_lt (wAbs a)
  rwa [length_wAbs] at this

/-! ### ADD (R100) -/

theorem length_addCarry {a b : Wide} (h : a.length = b.length) (c : Bool) : (addCarry a b c).length = a.length := by
  induction a generalizing b c with
  | nil => simp [addCarry]
  | cons w ws ih =>
    cases b with
    | nil => simp at h
    | cons v vs => simp [addCarry, ih (by simpa using h)]

/-- The carry chain adds. -/
theorem uval_addCarry {a b : Wide} (h : a.length = b.length) (c : Bool) :
    uval (addCarry a b c) = (uval a + uval b + c.toNat) % wmod a.length := by
  induction a generalizing b c with
  | nil => simp [addCarry, wmod_zero, Nat.mod_one]
  | cons w ws ih =>
    cases b with
    | nil => simp at h
    | cons v vs =>
      have hw := w.isLt
      have hv := v.isLt
      have hc : c.toNat ≤ 1 := by cases c <;> simp
      rw [addCarry, uval_cons, ih (by simpa using h), List.length_cons, wmod_succ, uval_cons, uval_cons, adc32,
        BitVec.toNat_ofNat, Nat.mod_mul]
      have hcarry : (decide ((w.toNat + v.toNat + c.toNat) / 2 ^ 32 = 1)).toNat = (w.toNat + v.toNat + c.toNat) / 2 ^ 32 := by
        by_cases hd : (w.toNat + v.toNat + c.toNat) / 2 ^ 32 = 1
        · rw [decide_eq_true hd, hd]
          rfl
        · have : (w.toNat + v.toNat + c.toNat) / 2 ^ 32 = 0 := by omega
          rw [decide_eq_false hd, this]
          rfl
      rw [hcarry]
      have hdiv : (w.toNat + 2 ^ 32 * uval ws + (v.toNat + 2 ^ 32 * uval vs) + c.toNat) / 2 ^ 32 =
          uval ws + uval vs + (w.toNat + v.toNat + c.toNat) / 2 ^ 32 := by omega
      have hmod : (w.toNat + 2 ^ 32 * uval ws + (v.toNat + 2 ^ 32 * uval vs) + c.toNat) % 2 ^ 32 =
          (w.toNat + v.toNat + c.toNat) % 2 ^ 32 := by omega
      rw [hdiv, hmod]

/-- The carry chain is w_add (R18, R100). -/
theorem addCarry_eq_wAdd {a b : Wide} (h : a.length = b.length) : addCarry a b false = wAdd a b := by
  apply uval_injective (by simp [length_addCarry h])
  rw [uval_addCarry h, wAdd, ← Nat.cast_add, uval_wide_natCast]
  simp

/-! ### MUL (R110) -/

/-- The two words of mul32 are the product (R15). -/
theorem mul32_value (u v : Word) : (mul32 u v).2.toNat * 2 ^ 32 + (mul32 u v).1.toNat = u.toNat * v.toNat := by
  have hu := u.isLt
  have hv := v.isLt
  have hlt : u.toNat * v.toNat < 2 ^ 32 * 2 ^ 32 := Nat.mul_lt_mul'' hu hv
  simp only [mul32, BitVec.toNat_ofNat]
  rw [Nat.mod_eq_of_lt (Nat.div_lt_of_lt_mul hlt)]
  omega

/-- U of the words below i of a. -/
def lowSum (a : Wide) (i : Nat) : Nat := uval (a.take i)

theorem lowSum_succ (a : Wide) (i : Nat) : lowSum a (i + 1) = lowSum a i + 2 ^ (32 * i) * (a.getD i 0).toNat := by
  by_cases h : i < a.length
  · have hmin : min i a.length = i := by omega
    rw [lowSum, lowSum, List.take_add_one, uval_append]
    simp [List.getD_eq_getElem?_getD, h, wmod, hmin]
  · have h1 : a.take (i + 1) = a := List.take_of_length_le (by omega)
    have h2 : a.take i = a := List.take_of_length_le (by omega)
    simp [lowSum, h1, h2, List.getD_eq_getElem?_getD, Nat.le_of_not_lt h]

/-- The inner loop adds word i of a times the words of b below j. -/
theorem schoolbook_inner (n : Nat) (a b : Wide) (i : Nat) (k : Int) (j : Nat) :
    (List.range j).foldl (fun r j => wAdd r (partialProduct n a b i j)) (wide n k) =
      wide n (k + ((a.getD i 0).toNat * 2 ^ (32 * i) * lowSum b j : Nat)) := by
  induction j with
  | zero => simp [lowSum]
  | succ j ih =>
    rw [List.range_succ, List.foldl_append, ih, List.foldl_cons, List.foldl_nil]
    have hp : partialProduct n a b i j = wide n (((a.getD i 0).toNat * (b.getD j 0).toNat * 2 ^ (32 * (i + j)) : Nat) : Int) := by
      simp only [partialProduct, mul32_value]
    rw [hp, wAdd_wide, lowSum_succ]
    congr 1
    push_cast
    rw [show 32 * (i + j) = 32 * i + 32 * j by ring, pow_add]
    ring

/-- The words of b from n − i up contribute nothing modulo 2^(32n). -/
theorem schoolbook_row (b : Wide) (n i w : Nat) (hi : i ≤ n) (hb : b.length = n) :
    ((w * 2 ^ (32 * i) * lowSum b (n - i) : Nat) : Int) ≡ ((w * 2 ^ (32 * i) * uval b : Nat) : Int) [ZMOD (wmod n : Int)] := by
  have hsplit := uval_append (b.take (n - i)) (b.drop (n - i))
  rw [List.take_append_drop, List.length_take, hb, Nat.min_eq_left (by omega)] at hsplit
  have hw : 2 ^ (32 * i) * wmod (n - i) = wmod n := by
    rw [wmod, wmod, ← pow_add]
    congr 1
    omega
  have : w * 2 ^ (32 * i) * uval b = w * 2 ^ (32 * i) * lowSum b (n - i) + wmod n * (w * uval (b.drop (n - i))) := by
    rw [hsplit, ← hw, lowSum]
    ring
  rw [this]
  push_cast
  simp [Int.ModEq]

/-- Schoolbook multiplication with the partial products past word n−1 dropped is the product modulo 2^(32n) (R18, R110). -/
theorem schoolbook_eq {n : Nat} {a b : Wide} (ha : a.length = n) (hb : b.length = n) :
    schoolbook n a b = wide n ((uval a : Int) * uval b) := by
  have houter : ∀ i, i ≤ n →
      (List.range i).foldl
        (fun r i => (List.range (n - i)).foldl (fun r j => wAdd r (partialProduct n a b i j)) r) (wide n 0) =
        wide n ((lowSum a i * uval b : Nat) : Int) := by
    intro i
    induction i with
    | zero => simp [lowSum]
    | succ i ih =>
      intro hi
      rw [List.range_succ, List.foldl_append, ih (by omega), List.foldl_cons, List.foldl_nil, schoolbook_inner]
      apply wide_congr
      rw [lowSum_succ]
      have hrow := schoolbook_row b n i (a.getD i 0).toNat (by omega) hb
      have := Int.ModEq.add_left ((lowSum a i * uval b : Nat) : Int) hrow
      refine this.trans ?_
      apply modEq_of_eq
      push_cast
      ring
  rw [schoolbook, houter n (Nat.le_refl n)]
  have : lowSum a n = uval a := by rw [lowSum, List.take_of_length_le (by omega)]
  rw [this]
  push_cast
  rfl

/-- MUL gives the product modulo 2^(32n), signed and unsigned (R110, R115). -/
theorem mulWords_eq {a b : Wide} (h : a.length = b.length) (sg : Bool) :
    mulWords sg a b = wide a.length ((uval a : Int) * uval b) := by
  cases sg
  · simp only [mulWords, Bool.false_eq_true, if_false]
    exact schoolbook_eq rfl h.symm
  · simp only [mulWords, if_true]
    rw [schoolbook_eq (length_wAbs a) (by simp [h]), uval_wAbs, uval_wAbs]
    have hmul : (sval a * sval b) ≡ ((uval a : Int) * uval b) [ZMOD (wmod a.length : Int)] :=
      Int.ModEq.mul (sval_modEq a) (h ▸ sval_modEq b)
    have ha := signBit_iff_sval_neg a
    have hb := signBit_iff_sval_neg b
    cases hsa : signBit a <;> cases hsb : signBit b <;> rw [hsa] at ha <;> rw [hsb] at hb <;>
      simp only [Bool.false_eq_true, false_iff, true_iff, not_lt] at ha hb <;>
      simp only [Bool.xor_false, Bool.xor_true, Bool.not_false, Bool.not_true, Bool.false_eq_true, if_true, if_false,
        wNeg_wide] <;> refine wide_congr (Int.ModEq.trans (modEq_of_eq ?_) hmul)
    · rw [Int.natAbs_of_nonneg ha, Int.natAbs_of_nonneg hb]
    · rw [Int.natAbs_of_nonneg ha, Int.ofNat_natAbs_of_nonpos (Int.le_of_lt hb)]
      ring
    · rw [Int.natAbs_of_nonneg hb, Int.ofNat_natAbs_of_nonpos (Int.le_of_lt ha)]
      ring
    · rw [Int.ofNat_natAbs_of_nonpos (Int.le_of_lt ha), Int.ofNat_natAbs_of_nonpos (Int.le_of_lt hb)]
      ring

/-! ### DIV and MOD (R111, R112) -/

/-- The restoring loop divides: from a running remainder below B, its result is quotient and remainder. -/
theorem divLoop_spec (A B : Nat) (hB : 0 < B) (k Q R : Nat) (hR : R < B) :
    divLoop A B k Q R = (Q + (R * 2 ^ k + A % 2 ^ k) / B, (R * 2 ^ k + A % 2 ^ k) % B) := by
  induction k generalizing Q R with
  | zero => simp [divLoop, Nat.mod_one, Nat.div_eq_of_lt hR, Nat.mod_eq_of_lt hR]
  | succ k ih =>
    have hsplit : A % 2 ^ (k + 1) = A % 2 ^ k + 2 ^ k * (A / 2 ^ k % 2) := Nat.mod_pow_succ
    have hval : R * 2 ^ (k + 1) + A % 2 ^ (k + 1) = (2 * R + A / 2 ^ k % 2) * 2 ^ k + A % 2 ^ k := by
      rw [hsplit]
      ring
    have hbit : A / 2 ^ k % 2 < 2 := Nat.mod_lt _ (by omega)
    rw [divLoop, hval]
    by_cases hle : B ≤ 2 * R + A / 2 ^ k % 2
    · simp only [hle, if_true]
      rw [ih _ _ (by omega)]
      have hx : (2 * R + A / 2 ^ k % 2) * 2 ^ k + A % 2 ^ k =
          ((2 * R + A / 2 ^ k % 2 - B) * 2 ^ k + A % 2 ^ k) + B * 2 ^ k := by
        have : (2 * R + A / 2 ^ k % 2) * 2 ^ k = (2 * R + A / 2 ^ k % 2 - B) * 2 ^ k + B * 2 ^ k := by
          rw [← Nat.add_mul, Nat.sub_add_cancel hle]
        omega
      rw [hx, Nat.add_mul_div_left _ _ hB, Nat.add_mul_mod_self_left, Prod.mk.injEq]
      exact ⟨by omega, rfl⟩
    · simp only [hle, if_false]
      rw [ih _ _ (by omega)]

/-- Unsigned divmod (R111). -/
theorem divmod_false {a b : Wide} (hb : uval b ≠ 0) :
    divmod false a b = (wide a.length (uval a / uval b : Nat), wide a.length (uval a % uval b : Nat)) := by
  have hlt := uval_lt a
  rw [wmod] at hlt
  simp [divmod, divLoop_spec _ _ (Nat.pos_of_ne_zero hb) _ _ _ (Nat.pos_of_ne_zero hb), Nat.mod_eq_of_lt hlt]

theorem sval_ne_zero {b : Wide} (hb : uval b ≠ 0) : sval b ≠ 0 := by
  have hlt := uval_lt b
  rw [sval_def]
  split <;> omega

/-- Signed divmod is division rounded toward zero (R111, R112). -/
theorem divmod_true {a b : Wide} (hb : uval b ≠ 0) :
    divmod true a b = (wide a.length ((sval a).tdiv (sval b)), wide a.length ((sval a).tmod (sval b))) := by
  have hpos : 0 < (sval b).natAbs := Int.natAbs_pos.2 (sval_ne_zero hb)
  have hlt : (sval a).natAbs < 2 ^ (32 * a.length) := by
    have := uval_lt (wAbs a)
    rwa [uval_wAbs, length_wAbs, wmod] at this
  simp only [divmod, if_true, uval_wAbs, divLoop_spec _ _ hpos _ _ _ hpos, Nat.mod_eq_of_lt hlt, Nat.zero_mul, Nat.zero_add,
    Bool.true_and, wNeg_wide]
  have ha := signBit_iff_sval_neg a
  have hb' := signBit_iff_sval_neg b
  generalize sval a = x at *
  generalize sval b = y at *
  have key : ∀ p q : Nat, (((p / q : Nat) : Int) = (p : Int).tdiv q) ∧ (((p % q : Nat) : Int) = (p : Int).tmod q) :=
    fun p q => ⟨by rw [Int.tdiv_eq_ediv_of_nonneg (by omega)]; simp, by rw [Int.tmod_eq_emod_of_nonneg (by omega)]; simp⟩
  rw [(key _ _).1, (key _ _).2]
  cases hsa : signBit a <;> cases hsb : signBit b <;> rw [hsa] at ha <;> rw [hsb] at hb' <;>
    simp only [Bool.false_eq_true, false_iff, true_iff, not_lt] at ha hb' <;>
    simp only [Bool.xor_false, Bool.xor_true, Bool.not_false, Bool.not_true, Bool.false_eq_true, if_true, if_false]
  · rw [Int.natAbs_of_nonneg ha, Int.natAbs_of_nonneg hb']
  · rw [Int.natAbs_of_nonneg ha, Int.ofNat_natAbs_of_nonpos (Int.le_of_lt hb')]
    simp
  · rw [Int.natAbs_of_nonneg hb', Int.ofNat_natAbs_of_nonpos (Int.le_of_lt ha)]
    simp
  · rw [Int.ofNat_natAbs_of_nonpos (Int.le_of_lt ha), Int.ofNat_natAbs_of_nonpos (Int.le_of_lt hb')]
    simp

/-! ### MUL10 (R113) -/

theorem mul10Words_eq (a : Wide) : mul10Words a = wide a.length (10 * uval a : Nat) := by
  have h := wide_uval a
  rw [mul10Words, ← h, wShl_wide, wShl_wide, wAdd_wide, length_wide, h]
  congr 1
  push_cast
  ring

/-! ### Compares (R125) -/

theorem ucmpFromTop_append (x y : List Word) (u v : Word) (h : x.length = y.length) :
    ucmpFromTop (x ++ [u]) (y ++ [v]) = if ucmpFromTop x y ≠ 0 then ucmpFromTop x y
      else if u.toNat < v.toNat then -1 else if v.toNat < u.toNat then 1 else 0 := by
  induction x generalizing y with
  | nil =>
    cases y with
    | nil => simp [ucmpFromTop]
    | cons _ _ => simp at h
  | cons w ws ih =>
    cases y with
    | nil => simp at h
    | cons z zs =>
      simp only [List.cons_append, ucmpFromTop, ih zs (by simpa using h)]
      split
      · simp
      · split
        · simp
        · rfl

/-- ucmp is the sign of the difference of U (R125). -/
theorem ucmp_eq {a b : Wide} (h : a.length = b.length) : ucmp a b = ((uval a : Int) - uval b).sign := by
  induction a generalizing b with
  | nil =>
    cases b with
    | nil => rfl
    | cons _ _ => simp at h
  | cons w ws ih =>
    cases b with
    | nil => simp at h
    | cons v vs =>
      have hl : ws.length = vs.length := by simpa using h
      have hw := w.isLt
      have hv := v.isLt
      rw [ucmp, List.reverse_cons, List.reverse_cons, ucmpFromTop_append _ _ _ _ (by simp [hl])]
      change (if ucmp ws vs ≠ 0 then ucmp ws vs else _) = _
      rw [ih hl, uval_cons, uval_cons]
      push_cast
      rcases lt_trichotomy (uval ws) (uval vs) with hlt | heq | hgt
      · rw [Int.sign_eq_neg_one_of_neg (by omega), Int.sign_eq_neg_one_of_neg (by omega)]
        simp
      · rw [heq, sub_self, Int.sign_zero]
        simp only [ne_eq, not_true, if_false]
        split
        · rw [Int.sign_eq_neg_one_of_neg (by omega)]
        · split
          · rw [Int.sign_eq_one_of_pos (by omega)]
          · have : w.toNat = v.toNat := by omega
            simp [this]
      · rw [Int.sign_eq_one_of_pos (by omega), Int.sign_eq_one_of_pos (by omega)]
        simp

/-- Equal exactly when the words are the same (R126). -/
theorem ucmp_eq_zero_iff {a b : Wide} (h : a.length = b.length) : ucmp a b = 0 ↔ a = b := by
  rw [ucmp_eq h, Int.sign_eq_zero_iff_zero]
  constructor
  · intro he
    exact uval_injective h (by omega)
  · rintro rfl
    omega

/-- CMP is the sign of the difference of U or of S (R125). -/
theorem compareWords_eq {a b : Wide} (h : a.length = b.length) (sg : Bool) :
    compareWords sg a b = (if sg then (sval a - sval b).sign else ((uval a : Int) - uval b).sign) := by
  cases sg
  · simp [compareWords, ucmp_eq h]
  · have ha := signBit_iff_sval_neg a
    have hb := signBit_iff_sval_neg b
    simp only [compareWords, Bool.true_and, if_true]
    cases hsa : signBit a <;> cases hsb : signBit b <;> rw [hsa] at ha <;> rw [hsb] at hb <;>
      simp only [Bool.false_eq_true, false_iff, true_iff, not_lt] at ha hb
    · simp [ucmp_eq h, sval_of_not_signBit hsa, sval_of_not_signBit hsb]
    · rw [Int.sign_eq_one_of_pos (by omega)]
      simp
    · rw [Int.sign_eq_neg_one_of_neg (by omega)]
      simp
    · simp [ucmp_eq h, sval_of_signBit hsa, sval_of_signBit hsb, h]

/-! ### CAST (R130) -/

/-- A cast gives U or S of its operand modulo 2^(32m) (R18, R130). -/
theorem wCast_eq (a : Wide) (m : Nat) (sg : Bool) : wCast a m sg = wide m (if sg then sval a else (uval a : Int)) := by
  have hcast : wide m (if sg then sval a else (uval a : Int)) = wide m ((uval a : Int) - (if sg && signBit a then (wmod a.length : Int) else 0)) := by
    cases sg <;> simp [sval_def]
  rw [hcast]
  apply uval_injective (by simp)
  rw [wCast_eq_append, uval_append, uval_replicate_fill, List.length_take]
  have hlt := uval_lt a
  by_cases hm : m ≤ a.length
  · obtain ⟨d, hd⟩ : ∃ d, a.length = m + d := ⟨a.length - m, by omega⟩
    have hz : wmod (m - a.length) - 1 = 0 := by simp [show m - a.length = 0 by omega, wmod_zero]
    rw [uval_take a m hm, hz]
    have hu := uval_wide m ((uval a : Int) - (if sg && signBit a then (wmod a.length : Int) else 0))
    have : ((uval a : Int) - (if sg && signBit a then (wmod a.length : Int) else 0)) % (wmod m : Int) = (uval a : Int) % (wmod m : Int) := by
      split
      · rw [hd, wmod_add]
        push_cast
        rw [sub_eq_add_neg, ← mul_neg, Int.add_mul_emod_self_left]
      · simp
    rw [this] at hu
    simp only [ite_self, Nat.mul_zero, Nat.add_zero]
    exact_mod_cast hu.symm
  · obtain ⟨d, hd⟩ : ∃ d, m = a.length + d := ⟨m - a.length, by omega⟩
    have hw : wmod m = wmod a.length * wmod d := by rw [hd, wmod_add]
    have hpos := wmod_pos d
    rw [List.take_of_length_le (by omega), Nat.min_eq_right (by omega), show m - a.length = d by omega]
    have hu := uval_wide m ((uval a : Int) - (if sg && signBit a then (wmod a.length : Int) else 0))
    have hge : wmod a.length ≤ wmod m := by
      rw [hw]
      exact Nat.le_mul_of_pos_right _ hpos
    split at hu
    · rename_i hs
      simp only [hs, if_true]
      rw [← Int.add_emod_right, Int.emod_eq_of_lt (by omega) (by omega)] at hu
      zify [Nat.one_le_iff_ne_zero.2 (Nat.pos_iff_ne_zero.1 hpos)]
      rw [hu, hw]
      push_cast
      ring
    · rename_i hs
      simp only [hs, if_false, Bool.false_eq_true]
      rw [Int.emod_eq_of_lt (by omega) (by omega)] at hu
      omega

/-! ### LDI32 and LDI64 (R90, R91) -/

/-- The words of LDI32 are those of the one-word immediate, cast (R90). -/
theorem ldi32Words_eq (sg : Bool) {n : Nat} (hn : 1 ≤ n) (k : Word) :
    ldi32Words sg n k = wide n (if sg then k.toInt else k.toNat) := by
  have h : ldi32Words sg n k = wCast [k] n sg := by
    rw [wCast_eq_append, ldi32Words]
    simp [List.take_of_length_le, hn, signBit]
  have hs : sval [k] = k.toInt := by
    rw [sval_def, BitVec.toInt_eq_msb_cond]
    simp only [uval_cons, uval_nil, signBit, List.getLast?_singleton, wmod, List.length_cons, List.length_nil]
    split <;> simp_all
  rw [h, wCast_eq, hs]
  simp

/-- The words of LDI64 are those of the two-word immediate, cast (R91). -/
theorem ldi64Words_eq (sg : Bool) (n : Nat) (k : BitVec 64) :
    ldi64Words sg n k = wide n (if sg then k.toInt else k.toNat) := by
  have hm : (k.extractLsb' 32 32).msb = k.msb := by
    rw [BitVec.msb_eq_getLsbD_last, BitVec.msb_eq_getLsbD_last]
    simp
  have h : ldi64Words sg n k = wCast [k.extractLsb' 0 32, k.extractLsb' 32 32] n sg := by
    have hcons : ∀ l : List Word, k.extractLsb' 0 32 :: k.extractLsb' 32 32 :: l =
        [k.extractLsb' 0 32, k.extractLsb' 32 32] ++ l := fun _ => rfl
    rw [wCast_eq_append, ldi64Words, hcons, List.take_append]
    simp [signBit, hm]
  have hu : uval [k.extractLsb' 0 32, k.extractLsb' 32 32] = k.toNat := by
    have := k.isLt
    simp only [uval_cons, uval_nil, BitVec.extractLsb'_toNat, Nat.shiftRight_eq_div_pow]
    omega
  have hs : sval [k.extractLsb' 0 32, k.extractLsb' 32 32] = k.toInt := by
    rw [sval_def, BitVec.toInt_eq_msb_cond, hu]
    simp only [signBit, List.getLast?_cons_cons, List.getLast?_singleton, hm, wmod, List.length_cons, List.length_nil]
    split <;> simp_all
  rw [h, wCast_eq, hs, hu]

/-! ### The range of S (R10) -/

/-- A value that fits is its own S. -/
theorem sval_wide {n : Nat} {k : Int} (hn : 1 ≤ n) (h1 : -(2 ^ (32 * n - 1) : Int) ≤ k) (h2 : k < 2 ^ (32 * n - 1)) :
    sval (wide n k) = k := by
  have hhalf : (wmod n : Int) = 2 * 2 ^ (32 * n - 1) := by
    rw [wmod]
    push_cast
    rw [← pow_succ']
    congr 1
    omega
  have hu := uval_wide n k
  have hsign := signBit_iff (wide n k)
  rw [length_wide] at hsign
  have hne : wide n k ≠ [] := by
    intro e
    have := length_wide n k
    rw [e] at this
    simp at this
    omega
  generalize (2 ^ (32 * n - 1) : Int) = hf at *
  by_cases hk : 0 ≤ k
  · rw [Int.emod_eq_of_lt hk (by omega)] at hu
    have : signBit (wide n k) = false := by
      by_contra hc
      rw [Bool.not_eq_false, hsign] at hc
      omega
    rw [sval_of_not_signBit this, hu]
  · rw [← Int.add_emod_right, Int.emod_eq_of_lt (by omega) (by omega)] at hu
    have : signBit (wide n k) = true := hsign.2 ⟨hne, by omega⟩
    rw [sval_of_signBit this, hu, length_wide]
    ring

/-- S is in the two's complement range of the width (R10). -/
theorem sval_range (a : Wide) (ha : a ≠ []) :
    -(2 ^ (32 * a.length - 1) : Int) ≤ sval a ∧ sval a < 2 ^ (32 * a.length - 1) := by
  have hlen : 1 ≤ a.length := List.length_pos_iff.2 ha
  have hhalf : (wmod a.length : Int) = 2 * 2 ^ (32 * a.length - 1) := by
    rw [wmod]
    push_cast
    rw [← pow_succ']
    congr 1
    omega
  have hlt := uval_lt a
  have hsign := signBit_iff a
  generalize (2 ^ (32 * a.length - 1) : Int) = hf at *
  cases hs : signBit a
  · rw [sval_of_not_signBit hs]
    rw [hs] at hsign
    simp only [Bool.false_eq_true, false_iff, not_and, not_le] at hsign
    have := hsign ha
    omega
  · rw [sval_of_signBit hs]
    have := (hsign.1 hs).2
    omega

end Sys2Proof.Machine
end

