-- ==== Sys2Proof/Laws/Encoding.lean ====
section
/-!
SUPPORT. The header word as fields and the fields as a word are inverse to each other (R57), the rows of the opcode map are
found by their opcode and none overlaps another (R60, R61), and the two words of a 64-bit immediate (R59).
-/

namespace Sys2Proof

/-- The fields of a header are in range: op 6 bits, imm16 16 bits (R57). -/
def Header.inRange (h : Header) : Prop := h.op < 2 ^ 6 ∧ h.imm16 < 2 ^ 16

theorem Header.toNat_toWord {h : Header} (hr : h.inRange) :
    h.toWord.toNat =
      h.op * 2 ^ 26 + h.s.toNat * 2 ^ 25 + h.rd.val * 2 ^ 22 + h.rs1.val * 2 ^ 19 + h.rs2.val * 2 ^ 16 + h.imm16 := by
  have h1 := hr.1
  have h2 := hr.2
  have hs : h.s.toNat ≤ 1 := by cases h.s <;> simp
  have hrd := h.rd.isLt
  have hrs1 := h.rs1.isLt
  have hrs2 := h.rs2.isLt
  rw [Header.toWord, BitVec.toNat_ofNat, Nat.mod_eq_of_lt]
  omega

/-- The fields of the word of a header are the fields of the header (R57). -/
theorem Header.ofWord_toWord {h : Header} (hr : h.inRange) : Header.ofWord h.toWord = h := by
  have hw := Header.toNat_toWord hr
  obtain ⟨op, s, rd, rs1, rs2, imm16⟩ := h
  have h1 : op < 2 ^ 6 := hr.1
  have h2 : imm16 < 2 ^ 16 := hr.2
  have hrd := rd.isLt
  have hrs1 := rs1.isLt
  have hrs2 := rs2.isLt
  simp only at hw
  rw [Header.ofWord, hw]
  have hs : s.toNat ≤ 1 := by cases s <;> simp
  congr 1
  · omega
  · have : (op * 2 ^ 26 + s.toNat * 2 ^ 25 + rd.val * 2 ^ 22 + rs1.val * 2 ^ 19 + rs2.val * 2 ^ 16 + imm16) / 2 ^ 25 % 2 = s.toNat := by
      omega
    rw [this]
    cases s <;> rfl
  · apply Fin.ext
    rw [Fin.ofNat]
    simp only
    omega
  · apply Fin.ext
    rw [Fin.ofNat]
    simp only
    omega
  · apply Fin.ext
    rw [Fin.ofNat]
    simp only
    omega
  · omega

/-- The word of the fields of a word is the word (R57). -/
theorem Header.toWord_ofWord (w : Word) : (Header.ofWord w).toWord = w := by
  have hw := w.isLt
  apply BitVec.eq_of_toNat_eq
  have hr : (Header.ofWord w).inRange := ⟨by simp only [Header.ofWord]; omega, by simp only [Header.ofWord]; omega⟩
  rw [Header.toNat_toWord hr]
  have hs : (decide (w.toNat / 2 ^ 25 % 2 = 1)).toNat = w.toNat / 2 ^ 25 % 2 := by
    rcases Nat.mod_two_eq_zero_or_one (w.toNat / 2 ^ 25) with h | h <;> rw [h] <;> rfl
  simp only [Header.ofWord, Fin.ofNat, hs]
  omega

theorem Header.ofWord_inRange (w : Word) : (Header.ofWord w).inRange := by
  have hw := w.isLt
  exact ⟨by simp only [Header.ofWord]; omega, by simp only [Header.ofWord]; omega⟩

theorem Header.immhi_lt {h : Header} (hr : h.inRange) : h.immhi < 2 ^ 8 := by
  have := hr.2
  simp only [Header.immhi]
  omega

theorem Header.immlo_lt (h : Header) : h.immlo < 2 ^ 8 := Nat.mod_lt _ (by decide)

/-- imm16 is immhi and immlo side by side (R57). -/
theorem Header.joinImm_halves (h : Header) : joinImm h.immhi h.immlo = h.imm16 := by
  simp only [joinImm, Header.immhi, Header.immlo]
  omega

theorem joinImm_div {hi lo : Nat} (h : lo < 2 ^ 8) : joinImm hi lo / 2 ^ 8 = hi := by
  simp only [joinImm]
  omega

theorem joinImm_mod {hi lo : Nat} (h : lo < 2 ^ 8) : joinImm hi lo % 2 ^ 8 = lo := by
  simp only [joinImm]
  omega

theorem joinImm_lt {hi lo : Nat} (h1 : hi < 2 ^ 8) (h2 : lo < 2 ^ 8) : joinImm hi lo < 2 ^ 16 := by
  simp only [joinImm]
  omega

/-- The two extension words of a 64-bit immediate, read back, give it (R59). -/
theorem imm64Of_imm64Words (k : BitVec 64) : imm64Of (imm64Words k) = k := by
  have hk := k.isLt
  apply BitVec.eq_of_toNat_eq
  simp only [imm64Of, imm64Words, List.getD_cons_succ, List.getD_cons_zero, BitVec.toNat_ofNat]
  omega

/-- The words of the immediate two extension words spell are those words (R59). -/
theorem imm64Words_imm64Of (first second : Word) : imm64Words (imm64Of [first, second]) = [first, second] := by
  have h1 := first.isLt
  have h2 := second.isLt
  have h : (imm64Of [first, second]).toNat = second.toNat * 2 ^ 32 + first.toNat := by
    simp only [imm64Of, List.getD_cons_succ, List.getD_cons_zero, BitVec.toNat_ofNat]
    omega
  simp only [imm64Words, h, List.cons.injEq, and_true]
  constructor <;> apply BitVec.eq_of_toNat_eq <;> rw [BitVec.toNat_ofNat] <;> omega

/-- A row found for an opcode is a row of the map with that opcode (R60). -/
theorem opRow_some {op : Nat} {r : OpRow} (h : opRow op = some r) : r ∈ opcodeTable ∧ r.op = op :=
  ⟨List.mem_of_find?_eq_some h, by simpa using List.find?_some h⟩

/-- No two rows of the opcode map have an opcode in common, so no two overlap (R60). -/
theorem opcodeTable_opcodes_distinct : opcodeTable.Pairwise (fun r q => r.op ≠ q.op) := by decide

/-- The bits of imm16 a command does not use (R58, R60). -/
def ImmUse.unusedMask : ImmUse → Nat
  | .none => 0xFFFF
  | .lo => 0xFF00
  | .hi => 0x00FF
  | .full => 0x0000

/-- The part of a header's imm16 a command does not use. -/
def ImmUse.unusedPart (u : ImmUse) (h : Header) : Nat :=
  match u with
  | .none => h.imm16
  | .lo => h.immhi * 2 ^ 8
  | .hi => h.immlo
  | .full => 0

/-- The mask of every row has a 1 at every bit of the opcode and of each unused field, and a 0 at every bit of a used field,
as the used-fields column of R60 gives it. -/
theorem opcodeTable_masks : ∀ r ∈ opcodeTable, r.mask.toNat =
    0x3F * 2 ^ 26 + (if r.s then 0 else 1) * 2 ^ 25 + (if r.rd then 0 else 7) * 2 ^ 22 + (if r.rs1 then 0 else 7) * 2 ^ 19 +
      (if r.rs2 then 0 else 7) * 2 ^ 16 + r.imm.unusedMask := by
  decide

/-- What a decoded list of words is made of: a header word with a row, no nonzero unused field, the extension words the row
asks for, and the rest. -/
theorem decode_eq_ok (words rest : List Word) (i : Instr) (h : decode words = .ok (i, rest)) :
    ∃ w ext r, words = w :: (ext ++ rest) ∧ opRow (Header.ofWord w).op = some r ∧ ext.length = r.ext ∧
      unusedZero r (Header.ofWord w) = true ∧ buildInstr (Header.ofWord w) ext = some i := by
  cases words with
  | nil => simp [decode] at h
  | cons w tail =>
    simp only [decode] at h
    split at h
    · simp at h
    · rename_i r hr
      split at h
      · simp at h
      · rename_i hlen
        split at h
        · rename_i hz
          split at h
          · rename_i j hj
            simp only [Except.ok.injEq, Prod.mk.injEq] at h
            obtain ⟨rfl, rfl⟩ := h
            exact ⟨w, tail.take r.ext, r, by simp, hr, by simp; omega, hz, hj⟩
          · simp at h
        · simp at h

/-- The decoder on a header word with a row, no nonzero unused field, and its extension words. -/
theorem decode_of_row {w : Word} {ext rest : List Word} {r : OpRow} {i : Instr} (hr : opRow (Header.ofWord w).op = some r)
    (hlen : ext.length = r.ext) (hz : unusedZero r (Header.ofWord w) = true)
    (hb : buildInstr (Header.ofWord w) ext = some i) : decode (w :: (ext ++ rest)) = .ok (i, rest) := by
  simp [decode, hr, hz, ← hlen, hb]

/-- A mask of two fields side by side acts on each. -/
theorem and_side_by_side {k a x b y : Nat} (hx : x < 2 ^ k) (hy : y < 2 ^ k) :
    (a * 2 ^ k + x) &&& (b * 2 ^ k + y) = (a &&& b) * 2 ^ k + (x &&& y) := by
  have hxy : x &&& y < 2 ^ k := lt_of_le_of_lt Nat.and_le_left hx
  apply Nat.eq_of_testBit_eq
  intro j
  rw [Nat.testBit_and, mul_comm a, mul_comm b, mul_comm (a &&& b), Nat.testBit_two_pow_mul_add _ hx,
    Nat.testBit_two_pow_mul_add _ hy, Nat.testBit_two_pow_mul_add _ hxy]
  split <;> rw [Nat.testBit_and]

theorem and_field {k x : Nat} (hx : x < 2 ^ k) (used : Bool) :
    x &&& (if used then 0 else 2 ^ k - 1) = if used then 0 else x := by
  cases used
  · simp only [Bool.false_eq_true, if_false]
    rw [Nat.and_two_pow_sub_one_eq_mod, Nat.mod_eq_of_lt hx]
  · simp

/-- The fields that must be zero, one by one (R62). -/
theorem unusedZero_iff (r : OpRow) (h : Header) : unusedZero r h = true ↔
    (r.s = true ∨ h.s = false) ∧ (r.rd = true ∨ h.rd.val = 0) ∧ (r.rs1 = true ∨ h.rs1.val = 0) ∧
      (r.rs2 = true ∨ h.rs2.val = 0) ∧ r.imm.unusedPart h = 0 := by
  have h0 (q : Reg) : q = 0 ↔ q.val = 0 := Fin.ext_iff
  obtain ⟨_, _, s, rd, rs1, rs2, imm, _, _⟩ := r
  have hm (k : Nat) : k * 2 ^ 8 = 0 ↔ k = 0 := by omega
  cases imm <;> simp only [unusedZero, ImmUse.unusedPart, and_assoc, h0, hm, Bool.and_eq_true, Bool.or_eq_true,
    Bool.not_eq_true', beq_iff_eq]

/-- R62's two tests agree: every unused field is zero exactly when (h AND mask) = match. -/
theorem unusedZero_iff_mask {h : Word} {r : OpRow} (hr : opRow (Header.ofWord h).op = some r) :
    unusedZero r (Header.ofWord h) = true ↔ h &&& r.mask = r.matchWord := by
  have hrow := opRow_some hr
  have hmask := opcodeTable_masks r hrow.1
  have hin := Header.ofWord_inRange h
  have hto := Header.toNat_toWord hin
  rw [Header.toWord_ofWord] at hto
  generalize Header.ofWord h = hd at *
  have hrd := hd.rd.isLt
  have hrs1 := hd.rs1.isLt
  have hrs2 := hd.rs2.isLt
  have hs : hd.s.toNat < 2 ^ 1 := by cases hd.s <;> decide
  have hop : hd.op < 2 ^ 6 := hin.1
  have himm : hd.imm16 < 2 ^ 16 := hin.2
  have hhi : hd.immhi < 2 ^ 8 := Header.immhi_lt hin
  have hlo : hd.immlo < 2 ^ 8 := Header.immlo_lt hd
  have hji : hd.immhi * 2 ^ 8 + hd.immlo = hd.imm16 := Header.joinImm_halves hd
  have hm16 : hd.imm16 &&& r.imm.unusedMask = r.imm.unusedPart hd := by
    cases r.imm
    · exact (Nat.and_two_pow_sub_one_eq_mod hd.imm16 16).trans (Nat.mod_eq_of_lt himm)
    · show hd.imm16 &&& 0xFF00 = hd.immhi * 2 ^ 8
      have h1 := and_side_by_side (k := 8) (a := hd.immhi) (x := hd.immlo) (b := 0xFF) (y := 0) hlo (by decide)
      have h2 := Nat.and_two_pow_sub_one_eq_mod hd.immhi 8
      rw [Nat.mod_eq_of_lt hhi] at h2
      rw [hji] at h1
      simpa [h2] using h1
    · show hd.imm16 &&& 0x00FF = hd.immlo
      have h1 := and_side_by_side (k := 8) (a := hd.immhi) (x := hd.immlo) (b := 0) (y := 0xFF) hlo (by decide)
      have h2 := Nat.and_two_pow_sub_one_eq_mod hd.immlo 8
      rw [Nat.mod_eq_of_lt hlo] at h2
      rw [hji] at h1
      simpa [h2] using h1
    · exact Nat.and_zero _
  have hand : (h &&& r.mask).toNat = hd.op * 2 ^ 26 + ((if r.s then 0 else hd.s.toNat) * 2 ^ 25 +
      ((if r.rd then 0 else hd.rd.val) * 2 ^ 22 + ((if r.rs1 then 0 else hd.rs1.val) * 2 ^ 19 +
        ((if r.rs2 then 0 else hd.rs2.val) * 2 ^ 16 +
          r.imm.unusedPart hd)))) := by
    have hmm : r.imm.unusedMask < 2 ^ 16 := by
      cases r.imm <;> decide
    have hb : ∀ (b : Bool) (m : Nat), (if b then 0 else m : Nat) ≤ m := by intro b m; cases b <;> simp
    have b1 := hb r.s 1
    have b2 := hb r.rd 7
    have b3 := hb r.rs1 7
    have b4 := hb r.rs2 7
    rw [BitVec.toNat_and, hto, hmask]
    simp only [Nat.add_assoc]
    have e0 := Nat.and_two_pow_sub_one_eq_mod hd.op 6
    have e1 := and_field (k := 1) hs r.s
    have e2 := and_field (k := 3) hrd r.rd
    have e3 := and_field (k := 3) hrs1 r.rs1
    have e4 := and_field (k := 3) hrs2 r.rs2
    norm_num at e0 e1 e2 e3 e4
    rw [and_side_by_side, and_side_by_side (k := 25), and_side_by_side (k := 22), and_side_by_side (k := 19),
      and_side_by_side (k := 16), hm16, e0, e1, e2, e3, e4, Nat.mod_eq_of_lt (show hd.op < 64 from hop)] <;> omega
  have heq : h &&& r.mask = r.matchWord ↔ (h &&& r.mask).toNat = hd.op * 2 ^ 26 := by
    rw [← BitVec.toNat_inj, OpRow.matchWord, BitVec.toNat_ofNat, Nat.mod_eq_of_lt (by rw [hrow.2]; omega), hrow.2]
  rw [heq, hand]
  have hz : ∀ (b : Bool) (m : Nat), ((if b then 0 else m : Nat) = 0 ↔ b = true ∨ m = 0) := by
    intro b m; cases b <;> simp
  have hz1 := hz r.s hd.s.toNat
  have hz2 := hz r.rd hd.rd.val
  have hz3 := hz r.rs1 hd.rs1.val
  have hz4 := hz r.rs2 hd.rs2.val
  have hb : hd.s.toNat = 0 ↔ hd.s = false := by cases hd.s <;> simp
  rw [unusedZero_iff, ← hb, ← hz1, ← hz2, ← hz3, ← hz4]
  generalize (if r.s then 0 else hd.s.toNat : Nat) = x1
  generalize (if r.rd then 0 else hd.rd.val : Nat) = x2
  generalize (if r.rs1 then 0 else hd.rs1.val : Nat) = x3
  generalize (if r.rs2 then 0 else hd.rs2.val : Nat) = x4
  generalize r.imm.unusedPart hd = x5
  omega
end Sys2Proof
end

