-- ==== Sys2Proof/Laws/State.lean ====
section
/-!
SUPPORT. One lemma per field per update of State, true by rfl, so that no later proof unfolds a record update; and what a
register reads as after a write.
-/

namespace Sys2Proof.Machine

open Sys2Proof

/-! ### State.writeX -/

@[simp] theorem State.writeX_x (s : State) (r : Reg) (v : Wide) : (s.writeX r v).x = s.x.set r.val (WReg.of v) := rfl

@[simp] theorem State.writeX_res (s : State) (r : Reg) (v : Wide) : (s.writeX r v).res = s.res := rfl

@[simp] theorem State.writeX_status (s : State) (r : Reg) (v : Wide) : (s.writeX r v).status = s.status := rfl

@[simp] theorem State.writeX_slen (s : State) (r : Reg) (v : Wide) : (s.writeX r v).slen = s.slen := rfl

@[simp] theorem State.writeX_sb (s : State) (r : Reg) (v : Wide) : (s.writeX r v).sb = s.sb := rfl

@[simp] theorem State.writeX_rx (s : State) (r : Reg) (v : Wide) : (s.writeX r v).rx = s.rx := rfl

@[simp] theorem State.writeX_port (s : State) (r : Reg) (v : Wide) : (s.writeX r v).port = s.port := rfl

@[simp] theorem State.writeX_rsp (s : State) (r : Reg) (v : Wide) : (s.writeX r v).rsp = s.rsp := rfl

@[simp] theorem State.writeX_draws (s : State) (r : Reg) (v : Wide) : (s.writeX r v).draws = s.draws := rfl

@[simp] theorem State.writeX_cfg (s : State) (r : Reg) (v : Wide) : (s.writeX r v).cfg = s.cfg := rfl

/-! ### State.setRes -/

@[simp] theorem State.setRes_x (s : State) (k : BitVec 64) : (s.setRes k).x = s.x := rfl

@[simp] theorem State.setRes_res (s : State) (k : BitVec 64) : (s.setRes k).res = k := rfl

@[simp] theorem State.setRes_status (s : State) (k : BitVec 64) : (s.setRes k).status = s.status := rfl

@[simp] theorem State.setRes_slen (s : State) (k : BitVec 64) : (s.setRes k).slen = s.slen := rfl

@[simp] theorem State.setRes_sb (s : State) (k : BitVec 64) : (s.setRes k).sb = s.sb := rfl

@[simp] theorem State.setRes_rx (s : State) (k : BitVec 64) : (s.setRes k).rx = s.rx := rfl

@[simp] theorem State.setRes_port (s : State) (k : BitVec 64) : (s.setRes k).port = s.port := rfl

@[simp] theorem State.setRes_rsp (s : State) (k : BitVec 64) : (s.setRes k).rsp = s.rsp := rfl

@[simp] theorem State.setRes_draws (s : State) (k : BitVec 64) : (s.setRes k).draws = s.draws := rfl

@[simp] theorem State.setRes_cfg (s : State) (k : BitVec 64) : (s.setRes k).cfg = s.cfg := rfl

/-! ### State.setText -/

@[simp] theorem State.setText_x (s : State) (t : List Byte) : (s.setText t).x = s.x := rfl

@[simp] theorem State.setText_res (s : State) (t : List Byte) : (s.setText t).res = s.res := rfl

@[simp] theorem State.setText_status (s : State) (t : List Byte) : (s.setText t).status = s.status := rfl

@[simp] theorem State.setText_slen (s : State) (t : List Byte) : (s.setText t).slen = BitVec.ofNat 16 t.length := rfl

@[simp] theorem State.setText_sb (s : State) (t : List Byte) : (s.setText t).sb = s.sb.writeBytes 0 t := rfl

@[simp] theorem State.setText_rx (s : State) (t : List Byte) : (s.setText t).rx = s.rx := rfl

@[simp] theorem State.setText_port (s : State) (t : List Byte) : (s.setText t).port = s.port := rfl

@[simp] theorem State.setText_rsp (s : State) (t : List Byte) : (s.setText t).rsp = s.rsp := rfl

@[simp] theorem State.setText_draws (s : State) (t : List Byte) : (s.setText t).draws = s.draws := rfl

@[simp] theorem State.setText_cfg (s : State) (t : List Byte) : (s.setText t).cfg = s.cfg := rfl

/-! ### State.countDraw -/

@[simp] theorem State.countDraw_x (s : State) : (s.countDraw).x = s.x := rfl

@[simp] theorem State.countDraw_res (s : State) : (s.countDraw).res = s.res := rfl

@[simp] theorem State.countDraw_status (s : State) : (s.countDraw).status = s.status := rfl

@[simp] theorem State.countDraw_slen (s : State) : (s.countDraw).slen = s.slen := rfl

@[simp] theorem State.countDraw_sb (s : State) : (s.countDraw).sb = s.sb := rfl

@[simp] theorem State.countDraw_rx (s : State) : (s.countDraw).rx = s.rx := rfl

@[simp] theorem State.countDraw_port (s : State) : (s.countDraw).port = s.port := rfl

@[simp] theorem State.countDraw_rsp (s : State) : (s.countDraw).rsp = s.rsp := rfl

@[simp] theorem State.countDraw_draws (s : State) : (s.countDraw).draws = s.draws + 1 := rfl

@[simp] theorem State.countDraw_cfg (s : State) : (s.countDraw).cfg = s.cfg := rfl

/-! ### State.completeOk -/

@[simp] theorem State.completeOk_x (s : State) : (s.completeOk).x = s.x := rfl

@[simp] theorem State.completeOk_res (s : State) : (s.completeOk).res = s.res := rfl

@[simp] theorem State.completeOk_status (s : State) : (s.completeOk).status = statusAfterOk s.status := rfl

@[simp] theorem State.completeOk_slen (s : State) : (s.completeOk).slen = s.slen := rfl

@[simp] theorem State.completeOk_sb (s : State) : (s.completeOk).sb = s.sb := rfl

@[simp] theorem State.completeOk_rx (s : State) : (s.completeOk).rx = s.rx := rfl

@[simp] theorem State.completeOk_port (s : State) : (s.completeOk).port = s.port := rfl

@[simp] theorem State.completeOk_rsp (s : State) : (s.completeOk).rsp = { status := statusLast (statusAfterOk s.status), res := s.res } :: s.rsp := rfl

@[simp] theorem State.completeOk_draws (s : State) : (s.completeOk).draws = s.draws := rfl

@[simp] theorem State.completeOk_cfg (s : State) : (s.completeOk).cfg = s.cfg := rfl

/-! ### State.completeErr -/

@[simp] theorem State.completeErr_x (s : State) (e : Err) : (s.completeErr e).x = s.x := rfl

@[simp] theorem State.completeErr_res (s : State) (e : Err) : (s.completeErr e).res = s.res := rfl

@[simp] theorem State.completeErr_status (s : State) (e : Err) : (s.completeErr e).status = statusAfterErr e s.status := rfl

@[simp] theorem State.completeErr_slen (s : State) (e : Err) : (s.completeErr e).slen = s.slen := rfl

@[simp] theorem State.completeErr_sb (s : State) (e : Err) : (s.completeErr e).sb = s.sb := rfl

@[simp] theorem State.completeErr_rx (s : State) (e : Err) : (s.completeErr e).rx = s.rx := rfl

@[simp] theorem State.completeErr_port (s : State) (e : Err) : (s.completeErr e).port = s.port := rfl

@[simp] theorem State.completeErr_rsp (s : State) (e : Err) : (s.completeErr e).rsp = { status := statusLast (statusAfterErr e s.status), res := s.res } :: s.rsp := rfl

@[simp] theorem State.completeErr_draws (s : State) (e : Err) : (s.completeErr e).draws = s.draws := rfl

@[simp] theorem State.completeErr_cfg (s : State) (e : Err) : (s.completeErr e).cfg = s.cfg := rfl

/-! ### State.accepted -/

@[simp] theorem State.accepted_x (s : State) (q : List PortEvent) : (s.accepted q).x = s.x := rfl

@[simp] theorem State.accepted_res (s : State) (q : List PortEvent) : (s.accepted q).res = s.res := rfl

@[simp] theorem State.accepted_status (s : State) (q : List PortEvent) : (s.accepted q).status = s.status := rfl

@[simp] theorem State.accepted_slen (s : State) (q : List PortEvent) : (s.accepted q).slen = s.slen := rfl

@[simp] theorem State.accepted_sb (s : State) (q : List PortEvent) : (s.accepted q).sb = s.sb := rfl

@[simp] theorem State.accepted_rx (s : State) (q : List PortEvent) : (s.accepted q).rx = [] := rfl

@[simp] theorem State.accepted_port (s : State) (q : List PortEvent) : (s.accepted q).port = q := rfl

@[simp] theorem State.accepted_rsp (s : State) (q : List PortEvent) : (s.accepted q).rsp = s.rsp := rfl

@[simp] theorem State.accepted_draws (s : State) (q : List PortEvent) : (s.accepted q).draws = s.draws := rfl

@[simp] theorem State.accepted_cfg (s : State) (q : List PortEvent) : (s.accepted q).cfg = s.cfg := rfl

/-! ### State.offer -/

@[simp] theorem State.offer_x (s : State) (ws : List Word) : (s.offer ws).x = s.x := rfl

@[simp] theorem State.offer_res (s : State) (ws : List Word) : (s.offer ws).res = s.res := rfl

@[simp] theorem State.offer_status (s : State) (ws : List Word) : (s.offer ws).status = s.status := rfl

@[simp] theorem State.offer_slen (s : State) (ws : List Word) : (s.offer ws).slen = s.slen := rfl

@[simp] theorem State.offer_sb (s : State) (ws : List Word) : (s.offer ws).sb = s.sb := rfl

@[simp] theorem State.offer_rx (s : State) (ws : List Word) : (s.offer ws).rx = [] := rfl

@[simp] theorem State.offer_port (s : State) (ws : List Word) : (s.offer ws).port = ws.map .word ++ s.port := rfl

@[simp] theorem State.offer_rsp (s : State) (ws : List Word) : (s.offer ws).rsp = s.rsp := rfl

@[simp] theorem State.offer_draws (s : State) (ws : List Word) : (s.offer ws).draws = s.draws := rfl

@[simp] theorem State.offer_cfg (s : State) (ws : List Word) : (s.offer ws).cfg = s.cfg := rfl

/-! ### State.applyReset -/

@[simp] theorem State.applyReset_x (s : State) (q : List PortEvent) : (s.applyReset q).x = Vector.replicate 8 WReg.invalid := rfl

@[simp] theorem State.applyReset_res (s : State) (q : List PortEvent) : (s.applyReset q).res = 0 := rfl

@[simp] theorem State.applyReset_status (s : State) (q : List PortEvent) : (s.applyReset q).status = 0 := rfl

@[simp] theorem State.applyReset_slen (s : State) (q : List PortEvent) : (s.applyReset q).slen = 0 := rfl

@[simp] theorem State.applyReset_sb (s : State) (q : List PortEvent) : (s.applyReset q).sb = [] := rfl

@[simp] theorem State.applyReset_rx (s : State) (q : List PortEvent) : (s.applyReset q).rx = [] := rfl

@[simp] theorem State.applyReset_port (s : State) (q : List PortEvent) : (s.applyReset q).port = q := rfl

@[simp] theorem State.applyReset_rsp (s : State) (q : List PortEvent) : (s.applyReset q).rsp = s.rsp := rfl

@[simp] theorem State.applyReset_draws (s : State) (q : List PortEvent) : (s.applyReset q).draws = s.draws := rfl

@[simp] theorem State.applyReset_cfg (s : State) (q : List PortEvent) : (s.applyReset q).cfg = s.cfg := rfl

/-! ### Reading a register -/

@[simp] theorem WReg.of_valid (v : Wide) : (WReg.of v).valid = true := rfl

@[simp] theorem WReg.of_w (v : Wide) : (WReg.of v).w = v := rfl

@[simp] theorem WReg.of_n (v : Wide) : (WReg.of v).n = v.length := rfl

theorem State.writeX_get_self (s : State) (r : Reg) (v : Wide) : (s.writeX r v).x[r] = WReg.of v := by
  simp [State.writeX]

theorem State.writeX_get_ne (s : State) {r q : Reg} (v : Wide) (h : q ≠ r) : (s.writeX r v).x[q] = s.x[q] := by
  have hv : r.val ≠ q.val := fun e => h (Fin.ext e.symm)
  simp [State.writeX, hv]

theorem State.applyReset_get (s : State) (q : List PortEvent) (r : Reg) : (s.applyReset q).x[r] = WReg.invalid := by
  simp

end Sys2Proof.Machine
end

