-- ==== Sys2Proof/Laws/Ops.lean ====
section
/-!
SUPPORT. One lemma per shared operation: what each operand read and each check answers, what the shapes of a command are on
operands that pass its checks, what a completion leaves in STATUS and in the response, and the string a text leaves.
-/

namespace Sys2Proof.Machine

open Sys2Proof

/-! ### Sequencing of checks -/

@[simp] theorem except_ok_bind {α β : Type} (a : α) (f : α → Except Err β) : (Except.ok a >>= f) = f a := rfl

@[simp] theorem except_error_bind {α β : Type} (e : Err) (f : α → Except Err β) :
    ((Except.error e : Except Err α) >>= f) = Except.error e := rfl

@[simp] theorem except_pure {α : Type} (a : α) : (pure a : Except Err α) = Except.ok a := rfl

/-- A sequence of checks answers OK exactly when its first part does and the rest, from its result, does. -/
theorem except_bind_eq_ok {α β : Type} (x : Except Err α) (f : α → Except Err β) (b : β) :
    (x >>= f) = .ok b ↔ ∃ a, x = .ok a ∧ f a = .ok b := by
  cases x <;> simp

/-- A sequence of checks fails with the status of the first check that fails (R177). -/
theorem except_bind_eq_error {α β : Type} (x : Except Err α) (f : α → Except Err β) (e : Err) :
    (x >>= f) = .error e ↔ x = .error e ∨ ∃ a, x = .ok a ∧ f a = .error e := by
  cases x <;> simp

/-! ### Completion (R178, R179) -/

@[simp] theorem State.finish_ok (s t : State) : s.finish (.ok t) = .next t.completeOk := rfl

@[simp] theorem State.finish_error (s : State) (e : Err) : s.finish (.error e) = .next (s.completeErr e) := rfl

/-- A completion is one of two. -/
theorem State.finish_eq_next (s u : State) (r : Except Err State) :
    s.finish r = .next u ↔ (∃ t, r = .ok t ∧ u = t.completeOk) ∨ (∃ e, r = .error e ∧ u = s.completeErr e) := by
  cases r <;> simp [eq_comm]

/-- The bits of STATUS (R29). -/
theorem getLsbD_statusOf (r : BitVec 23) (e : Bool) (l : BitVec 8) (i : Nat) :
    (statusOf r e l).getLsbD i = if i < 8 then l.getLsbD i else if i = 8 then e else r.getLsbD (i - 9) := by
  have h : (statusOf r e l).getLsbD i = ((r ++ BitVec.ofBool e : BitVec 24) ++ l).getLsbD i := rfl
  rw [h, BitVec.getLsbD_append]
  split
  · rfl
  · have h2 : (r ++ BitVec.ofBool e : BitVec 24).getLsbD (i - 8) =
        (r ++ BitVec.ofBool e : BitVec (23 + 1)).getLsbD (i - 8) := rfl
    rw [h2, BitVec.getLsbD_append]
    by_cases h8 : i = 8
    · subst h8
      simp
    · rw [if_neg (by omega), if_neg h8]
      congr 1

@[simp] theorem statusLast_statusOf (r : BitVec 23) (e : Bool) (l : BitVec 8) : statusLast (statusOf r e l) = l := by
  apply BitVec.eq_of_getLsbD_eq
  intro i hi
  rw [statusLast, BitVec.getLsbD_extractLsb', getLsbD_statusOf, decide_eq_true hi, Bool.true_and, if_pos (by omega),
    Nat.zero_add]

@[simp] theorem statusEany_statusOf (r : BitVec 23) (e : Bool) (l : BitVec 8) : statusEany (statusOf r e l) = e := by
  rw [statusEany, getLsbD_statusOf]
  rfl

@[simp] theorem statusReserved_statusOf (r : BitVec 23) (e : Bool) (l : BitVec 8) : statusReserved (statusOf r e l) = r := by
  apply BitVec.eq_of_getLsbD_eq
  intro i hi
  rw [statusReserved, BitVec.getLsbD_extractLsb', getLsbD_statusOf, decide_eq_true hi, Bool.true_and, if_neg (by omega),
    if_neg (by omega), Nat.add_sub_cancel_left]

@[simp] theorem statusLast_afterOk (st : BitVec 32) : statusLast (statusAfterOk st) = okCode := by simp [statusAfterOk]

@[simp] theorem statusEany_afterOk (st : BitVec 32) : statusEany (statusAfterOk st) = statusEany st := by
  simp [statusAfterOk]

@[simp] theorem statusReserved_afterOk (st : BitVec 32) : statusReserved (statusAfterOk st) = statusReserved st := by
  simp [statusAfterOk]

@[simp] theorem statusLast_afterErr (e : Err) (st : BitVec 32) : statusLast (statusAfterErr e st) = e.code := by
  simp [statusAfterErr]

@[simp] theorem statusEany_afterErr (e : Err) (st : BitVec 32) : statusEany (statusAfterErr e st) = true := by
  simp [statusAfterErr]

@[simp] theorem statusReserved_afterErr (e : Err) (st : BitVec 32) :
    statusReserved (statusAfterErr e st) = statusReserved st := by
  simp [statusAfterErr]

/-- A non-OK status is not OK (R170). -/
theorem Err.code_ne_ok (e : Err) : e.code ≠ okCode := by cases e <;> decide

/-- Different statuses have different codes (R170). -/
theorem Err.code_injective {e e' : Err} (h : e.code = e'.code) : e = e' := by
  cases e <;> cases e' <;> first | rfl | exact absurd h (by decide)

/-! ### Checks -/

theorem require_eq_ok (c : Bool) (e : Err) : require c e = .ok () ↔ c = true := by
  cases c <;> simp [require]

theorem require_eq_error (c : Bool) (e e' : Err) : require c e = .error e' ↔ c = false ∧ e = e' := by
  cases c <;> simp [require]

@[simp] theorem require_true (e : Err) : require true e = .ok () := rfl

@[simp] theorem require_false (e : Err) : require false e = .error e := rfl

theorem checkWidth_ok {s : State} {n : Nat} (h1 : 1 ≤ n) (h2 : n ≤ s.cfg.nmax) : checkWidth s n = .ok () := by
  rw [checkWidth, decide_eq_true ⟨by omega, h2⟩, require_true]

theorem checkWidth_error {s : State} {n : Nat} (h : n = 0 ∨ s.cfg.nmax < n) : checkWidth s n = .error .widthRange := by
  rw [checkWidth, decide_eq_false (by omega), require_false]

theorem checkFraction_ok {f n : Nat} (h1 : 1 ≤ f) (h2 : f < n) : checkFraction f n = .ok () := by
  rw [checkFraction, decide_eq_true ⟨by omega, h2⟩, require_true]

theorem checkFraction_error {f n : Nat} (h : f = 0 ∨ n ≤ f) : checkFraction f n = .error .fractionRange := by
  rw [checkFraction, decide_eq_false (by omega), require_false]

theorem checkIndex_ok {i n : Nat} (h : i < n) : checkIndex i n = .ok () := by
  rw [checkIndex, decide_eq_true h, require_true]

theorem checkIndex_error {i n : Nat} (h : n ≤ i) : checkIndex i n = .error .indexRange := by
  rw [checkIndex, decide_eq_false (by omega), require_false]

theorem checkDivisor_ok {b : Wide} (h : uval b ≠ 0) : checkDivisor b = .ok () := by
  rw [checkDivisor, decide_eq_true h, require_true]

theorem checkDivisor_error {b : Wide} (h : uval b = 0) : checkDivisor b = .error .divideByZero := by
  simp [checkDivisor, h]

/-! ### Sources -/

theorem readX_holds {s : State} {r : Reg} {a : Wide} (h : s.Holds r a) : readX s r = .ok a := by
  simp [readX, h]

theorem readX_invalid {s : State} {r : Reg} (h : s.x[r].valid = false) : readX s r = .error .registerInvalid := by
  unfold readX
  rw [h]
  rfl

/-- A register read answers the value of a valid register or RegisterInvalid (R23). -/
theorem readX_cases (s : State) (r : Reg) :
    (s.x[r].valid = true ∧ readX s r = .ok s.x[r].w) ∨ (s.x[r].valid = false ∧ readX s r = .error .registerInvalid) := by
  cases h : s.x[r].valid
  · exact .inr ⟨rfl, readX_invalid h⟩
  · refine .inl ⟨rfl, ?_⟩
    unfold readX
    rw [h]
    rfl

/-- A valid register holds its words. -/
theorem State.holds_of_valid {s : State} {r : Reg} (h : s.x[r].valid = true) : s.Holds r s.x[r].w := by
  unfold State.Holds WReg.of
  rw [← h]

theorem readPair_holds {s : State} {r1 r2 : Reg} {a b : Wide} (h : s.HoldsPair r1 r2 a b) :
    readPair s r1 r2 = .ok (a, b) := by
  simp [readPair, readX_holds h.first, readX_holds h.second, decide_eq_true h.width]

/-- The pair read answers two values of one width, or the status of the first check that fails (R100, R177). -/
theorem readPair_eq_ok (s : State) (r1 r2 : Reg) (p : Wide × Wide) :
    readPair s r1 r2 = .ok p ↔ s.HoldsPair r1 r2 p.1 p.2 := by
  constructor
  · intro h
    simp only [readPair, except_bind_eq_ok, except_pure, Except.ok.injEq] at h
    obtain ⟨a, ha, b, hb, _, hw, rfl⟩ := h
    have hw' := (require_eq_ok _ _).1 hw
    rcases readX_cases s r1 with ⟨h1, e1⟩ | ⟨_, e1⟩ <;> rw [e1] at ha
    · rcases readX_cases s r2 with ⟨h2, e2⟩ | ⟨_, e2⟩ <;> rw [e2] at hb
      · cases ha
        cases hb
        exact ⟨State.holds_of_valid h1, State.holds_of_valid h2, of_decide_eq_true hw'⟩
      · cases hb
    · cases ha
  · exact fun h => readPair_holds h

theorem readFxPair_holds {s : State} {r1 r2 : Reg} {a b : Wide} {f : Nat} (h : s.HoldsPair r1 r2 a b) (h1 : 1 ≤ f)
    (h2 : f < a.length) : readFxPair s f r1 r2 = .ok (a, b) := by
  simp [readFxPair, readPair_holds h, checkFraction_ok h1 h2]

/-! ### Shapes of commands -/

/-- A two-register command on a valid source (R102). -/
theorem unary_holds {s : State} {op : Wide → Wide} {rd rs1 : Reg} {a : Wide} (h : s.Holds rs1 a) :
    unary op rd rs1 s = .next (s.writeX rd (op a)).completeOk := by
  simp [unary, readX_holds h]

/-- A three-register command on two valid sources of one width (R100). -/
theorem binary_holds {s : State} {op : Wide → Wide → Wide} {rd rs1 rs2 : Reg} {a b : Wide}
    (h : s.HoldsPair rs1 rs2 a b) : binary op rd rs1 rs2 s = .next (s.writeX rd (op a b)).completeOk := by
  simp [binary, readPair_holds h]

/-- A compare of two valid sources of one width (R125). -/
theorem compareTo_holds {s : State} {g : Wide → Wide → BitVec 64} {rs1 rs2 : Reg} {a b : Wide}
    (h : s.HoldsPair rs1 rs2 a b) : compareTo g rs1 rs2 s = .next (s.setRes (g a b)).completeOk := by
  simp [compareTo, readPair_holds h]

/-- A text that fits becomes the string; one that does not is StringOverflow (R13, R53). -/
theorem putText_ok {s : State} {text : List Byte} (h : text.length ≤ s.cfg.sbsize) :
    putText s text = .ok (s.setText text) := by
  simp [putText, decide_eq_true h]

theorem putText_error {s : State} {text : List Byte} (h : s.cfg.sbsize < text.length) :
    putText s text = .error .stringOverflow := by
  rw [putText, decide_eq_false (by omega)]
  rfl

end Sys2Proof.Machine
end

