-- ==== Sys2Proof/Laws/Exec.lean ====
section
/-!
SUPPORT. What the execution of any command can do, said once (R25, R28, R30, R41, R178): it completes with OK after effects that
are confined to what the command names, or with a non-OK status and no effect.
-/

namespace Sys2Proof.Machine

open Sys2Proof

/-- The effects of a command, before its completion: what they leave as it was. -/
structure Confined (i : Instr) (s t : State) : Prop where
  x : ∀ r : Reg, i.dest ≠ some r → t.x[r] = s.x[r]
  res : i.writesRes = false → t.res = s.res
  slen : i.writesSlen = false → t.slen = s.slen
  sb : i.writesSb = false → t.sb = s.sb
  draws : i.mayDraw = false → t.draws = s.draws
  status : i ≠ .clrst → t.status = s.status
  clrst : i = .clrst → t.status = 0
  rx : t.rx = s.rx
  port : t.port = s.port
  rsp : t.rsp = s.rsp
  cfg : t.cfg = s.cfg

theorem confined_refl {i : Instr} {s : State} (h : i ≠ .clrst) : Confined i s s := by constructor <;> simp [h]

theorem confined_writeX {i : Instr} {s : State} {rd : Reg} {v : Wide} (h : i ≠ .clrst) (hd : i.dest = some rd) :
    Confined i s (s.writeX rd v) := by
  constructor <;> simp [h]
  intro r hr
  have hne : r ≠ rd := fun e => hr (by rw [hd, e])
  simpa using State.writeX_get_ne s v hne

theorem confined_setRes {i : Instr} {s : State} {k : BitVec 64} (h : i ≠ .clrst) (hr : i.writesRes = true) :
    Confined i s (s.setRes k) := by
  constructor <;> simp [h, hr]

theorem confined_putText {i : Instr} {s t : State} {text : List Byte} (ht : putText s text = .ok t) (h : i ≠ .clrst)
    (h1 : i.writesSlen = true) (h2 : i.writesSb = true) : Confined i s t := by
  simp only [putText, except_bind_eq_ok, except_pure, Except.ok.injEq] at ht
  obtain ⟨-, -, rfl⟩ := ht
  constructor <;> simp [h, h1, h2]

/-- Every command completes: with OK after confined effects, or with a non-OK status and no effect (R178). -/
theorem exec_cases (i : Instr) (s : State) :
    (∃ t, exec i s = .next t.completeOk ∧ Confined i s t) ∨ ∃ e, exec i s = .next (s.completeErr e) := by
  have key : ∀ r : Except Err State, (∀ t, r = .ok t → Confined i s t) →
      (∃ t, s.finish r = .next t.completeOk ∧ Confined i s t) ∨ ∃ e, s.finish r = .next (s.completeErr e) := by
    intro r hr
    cases r with
    | ok t => exact .inl ⟨t, rfl, hr t rfl⟩
    | error e => exact .inr ⟨e, rfl⟩
  cases i <;> simp only [exec, execNop, execClrst, execRdst, execSbclr, execSbput, execSbget, execSblen, execLdi32, execLdi64,
    execMov, execGetw, execSetw, execAdd, execSub, execNeg, execNot, execAnd, execOr, execXor, execMul, execDiv, execMod,
    execMul10, execDiv10, execShl, execShr, execCmp, execEq, execNe, execCast, execGetbit, execSetbit, execIdxmsb, execTodec,
    execTohex, execFromdec, execFromhex, execFxfromi, execFxadd, execFxsub, execFxmul, execFxdiv, execFxfromd, execFxtod,
    execFxtodec, execFxfromdec, unary, binary, compareTo] <;>
    refine key _ fun t ht => ?_ <;> try simp only [except_bind_eq_ok, except_pure, Except.ok.injEq] at ht
  case nop => exact ht ▸ confined_refl (by simp)
  case clrst =>
    subst ht
    constructor <;> simp
  case rdst => exact ht ▸ confined_setRes (by simp) rfl
  case sblen => exact ht ▸ confined_setRes (by simp) rfl
  case sbclr =>
    subst ht
    constructor <;> simp [Instr.writesSlen]
  case sbput =>
    obtain ⟨_, _, rfl⟩ := ht
    constructor <;> simp [Instr.writesSlen, Instr.writesSb]
  case div10 rd rs1 =>
    obtain ⟨v, _, rfl⟩ := ht
    have h := confined_writeX (s := s) (i := .div10 rd rs1) (v := div10Words v) (by simp) rfl
    constructor <;> simp [Instr.writesRes]
    exact fun r hr => by simpa using h.x r hr
  case fxfromd rd n f d =>
    obtain ⟨_, _, _, _, ht⟩ := ht
    split at ht
    · cases ht
      exact confined_writeX (by simp) rfl
    · cases ht
      have h := confined_writeX (s := s) (i := .fxfromd rd n f d) (v := (List.range n).map (Config.freeWord s.draws)) (by simp)
        rfl
      constructor <;> simp [Instr.mayDraw]
      exact fun r hr => by simpa using h.x r hr
  case fxtod rs f =>
    obtain ⟨_, _, _, _, ht⟩ := ht
    split at ht
    · cases ht
      exact confined_setRes (by simp) rfl
    · cases ht
      constructor <;> simp [Instr.mayDraw, Instr.writesRes]
  all_goals first
    | (obtain ⟨_, _, rfl⟩ := ht; exact confined_writeX (by simp) rfl)
    | (obtain ⟨_, _, rfl⟩ := ht; exact confined_setRes (by simp) rfl)
    | (obtain ⟨_, _, ht⟩ := ht; exact confined_putText ht (by simp) rfl rfl)
    | (obtain ⟨_, _, _, _, rfl⟩ := ht; exact confined_writeX (by simp) rfl)
    | (obtain ⟨_, _, _, _, rfl⟩ := ht; exact confined_setRes (by simp) rfl)
    | (obtain ⟨_, _, _, _, ht⟩ := ht; exact confined_putText ht (by simp) rfl rfl)
    | (obtain ⟨_, _, _, _, _, _, rfl⟩ := ht; exact confined_writeX (by simp) rfl)

end Sys2Proof.Machine
end

