-- ==== Sys2Proof/Laws/Shift.lean ====
section
/-!
SUPPORT. What the shifts compute (R16, R120, R121): the word algorithms through lsl32, lsr32 and asr32 give the value shifts
of R18, for every count.
-/

namespace Sys2Proof.Machine

open Sys2Proof

/-! ### Word primitives -/

theorem getLsbD_ofNat_word (x : Nat) {j : Nat} (hj : j < 32) : (BitVec.ofNat 32 x).getLsbD j = x.testBit j := by
  rw [BitVec.getLsbD_ofNat, decide_eq_true hj, Bool.true_and]

theorem testBit_toNat_word (a : Word) (j : Nat) : a.toNat.testBit j = a.getLsbD j := rfl

theorem getLsbD_lsl32_lo (a : Word) (s j : Nat) (hj : j < 32) :
    (lsl32 a s).1.getLsbD j = (decide (s ≤ j) && a.getLsbD (j - s)) := by
  rw [lsl32, getLsbD_ofNat_word _ hj, Nat.testBit_mul_two_pow, testBit_toNat_word]

theorem getLsbD_lsl32_hi (a : Word) (s j : Nat) (hj : j < 32) (hs : s < 32) :
    (lsl32 a s).2.getLsbD j = a.getLsbD (j + 32 - s) := by
  rw [lsl32, getLsbD_ofNat_word _ hj, Nat.testBit_div_two_pow, Nat.testBit_mul_two_pow, testBit_toNat_word,
    decide_eq_true (show s ≤ j + 32 by omega), Bool.true_and]

theorem getLsbD_lsr32_hi (a : Word) (s j : Nat) (hj : j < 32) : (lsr32 a s).2.getLsbD j = a.getLsbD (j + s) := by
  rw [lsr32, getLsbD_ofNat_word _ hj, Nat.testBit_div_two_pow, Nat.testBit_div_two_pow, Nat.testBit_mul_two_pow,
    testBit_toNat_word, decide_eq_true (show 32 ≤ j + 32 + s by omega), Bool.true_and,
    show j + 32 + s - 32 = j + s by omega]

theorem getLsbD_lsr32_lo (a : Word) (s j : Nat) (hj : j < 32) :
    (lsr32 a s).1.getLsbD j = (decide (32 ≤ j + s) && a.getLsbD (j + s - 32)) := by
  rw [lsr32, getLsbD_ofNat_word _ hj, Nat.testBit_div_two_pow, Nat.testBit_mul_two_pow, testBit_toNat_word]

/-- The shifted word of asr32 is the one of lsr32 with the sign in its vacated top bits (R16). -/
theorem getLsbD_asr32_hi (a : Word) (s j : Nat) (hj : j < 32) :
    (asr32 a s).2.getLsbD j = if j + s < 32 then a.getLsbD (j + s) else a.msb := by
  have h : (asr32 a s).2 = a.sshiftRight s := by
    apply BitVec.eq_of_toInt_eq
    rw [BitVec.toInt_sshiftRight, asr32, BitVec.toInt_ofInt, Int.shiftRight_eq_div_pow]
    have h1 := BitVec.toInt_lt (x := a)
    have h2 := BitVec.le_toInt (x := a)
    have hp : (0 : Int) < 2 ^ s := by positivity
    have hone : (1 : Int) ≤ 2 ^ s := hp
    norm_num at h1 h2
    have hlo : -(2 ^ 31 : Int) ≤ a.toInt / 2 ^ s := by
      rw [Int.le_ediv_iff_mul_le hp]
      norm_num
      linarith
    have hhi : a.toInt / 2 ^ s < 2 ^ 31 := by
      rw [Int.ediv_lt_iff_lt_mul hp]
      norm_num
      linarith
    rw [Int.bmod_eq_of_le]
    · push_cast
      rfl
    · simpa using hlo
    · simpa using hhi
  rw [h, BitVec.getLsbD_sshiftRight]
  simp [hj, Nat.add_comm s j]

theorem fillWord_getLsbD (b : Bool) (j : Nat) (hj : j < 32) : (fillWord b).getLsbD j = b := by
  have h : (0xFFFFFFFF : Word) = BitVec.allOnes 32 := by decide
  cases b
  · simp [fillWord]
  · simp only [fillWord, if_true, h, BitVec.getLsbD_allOnes, decide_eq_true hj]

/-! ### SHL (R120) -/

@[simp] theorem length_shlWords (a : Wide) (count : Nat) : (shlWords a count).length = a.length := by simp [shlWords]

theorem getLsbD_srcBelow (a : Wide) (i d k : Nat) (hk : k < 32) :
    (srcBelow a i d).getLsbD k = (decide (d ≤ i) && bitOf a (32 * (i - d) + k)) := by
  unfold srcBelow
  split
  · rename_i h
    rw [getLsbD_getD _ _ _ hk, decide_eq_true h, Bool.true_and]
  · rename_i h
    simp [h]

/-- SHL gives U(a)·2^count modulo 2^(32n) (R18, R120). -/
theorem shlWords_eq (a : Wide) (count : Nat) : shlWords a count = wide a.length (uval a * 2 ^ count : Nat) := by
  apply eq_wide_of_bits (by simp)
  intro i hi
  have hj : i % 32 < 32 := Nat.mod_lt _ (by omega)
  have hs : count % 32 < 32 := Nat.mod_lt _ (by omega)
  rw [shlWords, bitOf_map_range _ _ hi, BitVec.getLsbD_or, getLsbD_lsl32_lo _ _ _ hj, getLsbD_lsl32_hi _ _ _ hj hs,
    Nat.testBit_mul_two_pow, testBit_uval]
  by_cases hjs : count % 32 ≤ i % 32
  · have h2 : (srcBelow a (i / 32) (count / 32 + 1)).getLsbD (i % 32 + 32 - count % 32) = false :=
      BitVec.getLsbD_of_ge _ _ (by omega)
    rw [h2, Bool.or_false, decide_eq_true hjs, Bool.true_and, getLsbD_srcBelow _ _ _ _ (by omega)]
    by_cases hq : count / 32 ≤ i / 32
    · rw [decide_eq_true hq, decide_eq_true (show count ≤ i by omega),
        show 32 * (i / 32 - count / 32) + (i % 32 - count % 32) = i - count by omega]
    · rw [decide_eq_false hq, decide_eq_false (show ¬ count ≤ i by omega)]
      rfl
  · rw [decide_eq_false hjs, Bool.false_and, Bool.false_or, getLsbD_srcBelow _ _ _ _ (by omega)]
    by_cases hq : count / 32 + 1 ≤ i / 32
    · rw [decide_eq_true hq, decide_eq_true (show count ≤ i by omega),
        show 32 * (i / 32 - (count / 32 + 1)) + (i % 32 + 32 - count % 32) = i - count by omega]
    · rw [decide_eq_false hq, decide_eq_false (show ¬ count ≤ i by omega)]
      rfl

/-! ### SHR (R121) -/

@[simp] theorem length_shrWords (sg : Bool) (a : Wide) (count : Nat) : (shrWords sg a count).length = a.length := by
  simp [shrWords]

/-- Bit i of a value followed by its fill. -/
def bitFill (sg : Bool) (a : Wide) (i : Nat) : Bool := if i < 32 * a.length then bitOf a i else sg && signBit a

theorem getLsbD_getD_fill (sg : Bool) (a : Wide) (i k : Nat) (hk : k < 32) :
    (a.getD i (fillWord (sg && signBit a))).getLsbD k = bitFill sg a (32 * i + k) := by
  unfold bitFill
  by_cases hi : i < a.length
  · rw [if_pos (by omega), ← getLsbD_getD _ _ _ hk]
    simp [List.getD_eq_getElem?_getD, hi]
  · rw [if_neg (by omega)]
    simp only [List.getD_eq_getElem?_getD, List.getElem?_eq_none (Nat.le_of_not_lt hi), Option.getD_none]
    exact fillWord_getLsbD _ _ hk

/-- Bit i of SHR is bit i + count of the value followed by its fill (R121). -/
theorem bitOf_shrWords (sg : Bool) (a : Wide) (count i : Nat) (hi : i < 32 * a.length) :
    bitOf (shrWords sg a count) i = bitFill sg a (i + count) := by
  have hj : i % 32 < 32 := Nat.mod_lt _ (by omega)
  have hs : count % 32 < 32 := Nat.mod_lt _ (by omega)
  rw [shrWords, bitOf_map_range _ _ hi, BitVec.getLsbD_or, getLsbD_lsr32_hi _ _ _ hj, getLsbD_lsr32_lo _ _ _ hj]
  by_cases hjs : 32 ≤ i % 32 + count % 32
  · rw [BitVec.getLsbD_of_ge _ _ hjs, decide_eq_true hjs, Bool.false_or, Bool.true_and, getLsbD_getD_fill _ _ _ _ (by omega)]
    congr 1
    omega
  · rw [decide_eq_false hjs, Bool.false_and, Bool.or_false, getLsbD_getD_fill _ _ _ _ (by omega)]
    congr 1
    omega

/-- The value with its fill up to m words has these bits. -/
theorem bitFill_eq_wCast (sg : Bool) (a : Wide) (m i : Nat) (hi : i < 32 * m) : bitFill sg a i = bitOf (wCast a m sg) i := by
  have hj : i % 32 < 32 := Nat.mod_lt _ (by omega)
  rw [wCast, bitOf_map_range _ _ hi, getLsbD_getD_fill _ _ _ _ hj]
  congr 1
  omega

theorem wmod_cast (n : Nat) : (wmod n : Int) = 2 ^ (32 * n) := by simp [wmod]

/-- An arithmetic shift of k is a shift of k modulo a power of two large enough, within the low bits. -/
theorem ediv_modEq (k : Int) (c m p : Nat) (h : c + p ≤ m) :
    k / 2 ^ c ≡ k % 2 ^ m / 2 ^ c [ZMOD (2 ^ p : Int)] := by
  obtain ⟨d, rfl⟩ : ∃ d, m = c + (p + d) := ⟨m - (c + p), by omega⟩
  have hsplit : k = k % 2 ^ (c + (p + d)) + 2 ^ c * (2 ^ p * (2 ^ d * (k / 2 ^ (c + (p + d))))) := by
    conv_lhs => rw [← Int.emod_add_mul_ediv k (2 ^ (c + (p + d)))]
    rw [pow_add, pow_add]
    ring
  conv_lhs => rw [hsplit, Int.add_mul_ediv_left _ _ (by positivity)]
  exact Int.modEq_iff_dvd.2 ⟨-(2 ^ d * (k / 2 ^ (c + (p + d)))), by ring⟩

/-- SHR gives U(a) div 2^count, or floor(S(a) / 2^count), modulo 2^(32n) (R18, R121). -/
theorem shrWords_eq (sg : Bool) (a : Wide) (count : Nat) :
    shrWords sg a count = wide a.length ((if sg then sval a else (uval a : Int)) / 2 ^ count) := by
  have hm : count + 32 * a.length ≤ 32 * (a.length + (count / 32 + 1)) := by omega
  have hu := uval_wide (a.length + (count / 32 + 1)) (if sg then sval a else (uval a : Int))
  rw [← wCast_eq] at hu
  have hmod : wide a.length ((if sg then sval a else (uval a : Int)) / 2 ^ count) =
      wide a.length ((uval (wCast a (a.length + (count / 32 + 1)) sg) / 2 ^ count : Nat) : Int) := by
    apply wide_congr
    have := ediv_modEq (if sg then sval a else (uval a : Int)) count _ _ hm
    rw [Int.natCast_ediv, Int.natCast_pow, hu, wmod_cast, wmod_cast]
    exact this
  rw [hmod]
  apply eq_wide_of_bits (by simp)
  intro i hi
  rw [bitOf_shrWords _ _ _ _ hi, Nat.testBit_div_two_pow, testBit_uval, bitFill_eq_wCast _ _ (a.length + (count / 32 + 1)) _ (by omega)]

/-- The sign of a value is its top bit. -/
theorem signBit_eq_bitOf (a : Wide) (ha : a ≠ []) : signBit a = bitOf a (32 * a.length - 1) := by
  have hlen : 0 < a.length := List.length_pos_iff.2 ha
  have hget : a.getLast? = some (a.getD (a.length - 1) 0) := by
    rw [List.getLast?_eq_getElem?]
    simp [List.getD_eq_getElem?_getD, hlen]
  have : 32 * a.length - 1 = 32 * (a.length - 1) + 31 := by omega
  rw [this, ← getLsbD_getD _ _ _ (by omega), signBit, hget]
  simp [BitVec.msb_eq_getLsbD_last]

/-- An implementation that uses asr32 on the top word gets the same words as the fill rule (R121). -/
theorem sarWords_eq_shrWords (a : Wide) (count : Nat) : sarWords a count = shrWords true a count := by
  apply ext_bitOf (by simp [sarWords])
  intro i hi
  have hi' : i < 32 * a.length := by simpa [sarWords] using hi
  have hj : i % 32 < 32 := Nat.mod_lt _ (by omega)
  rw [sarWords, shrWords, bitOf_map_range _ _ hi', bitOf_map_range _ _ hi']
  simp only [Bool.true_and]
  split
  · rename_i htop
    have hne : a ≠ [] := by
      rintro rfl
      simp at hi'
    have hlast : a.getD (i / 32 + count / 32 + 1) (fillWord (signBit a)) = fillWord (signBit a) := by
      simp [List.getD_eq_getElem?_getD, htop]
    have hw : a.getD (i / 32 + count / 32) (fillWord (signBit a)) = a.getD (a.length - 1) 0 := by
      rw [show i / 32 + count / 32 = a.length - 1 by omega]
      have : a.length - 1 < a.length := by omega
      simp [List.getD_eq_getElem?_getD, this]
    have hmsb : (a.getD (a.length - 1) 0).msb = signBit a := by
      rw [signBit_eq_bitOf a hne, BitVec.msb_eq_getLsbD_last, getLsbD_getD _ _ _ (by omega)]
      congr 1
      omega
    rw [hlast, hw, BitVec.getLsbD_or, getLsbD_asr32_hi _ _ _ hj, getLsbD_lsr32_hi _ _ _ hj, getLsbD_lsr32_lo _ _ _ hj, hmsb]
    by_cases hjs : i % 32 + count % 32 < 32
    · rw [if_pos hjs, decide_eq_false (by omega), Bool.false_and, Bool.or_false]
    · rw [if_neg hjs, BitVec.getLsbD_of_ge _ _ (by omega), decide_eq_true (by omega), Bool.false_or, Bool.true_and,
        fillWord_getLsbD _ _ (by omega)]
  · rfl

end Sys2Proof.Machine
end

