-- ==== Sys2Proof/Laws/Memory.lean ====
section
/-!
SUPPORT. The string buffer as a list of cells: a read after a write, and the canonical form, which every operation keeps.
-/

namespace Sys2Proof.Machine

open Sys2Proof

/-- The canonical form as a proposition: addresses strictly rising, no entry with the unlisted byte. -/
theorem Memory.wf_iff (m : Memory) :
    m.wf = true ↔ m.Pairwise (fun c d => c.1 < d.1) ∧ ∀ c ∈ m, c.2 ≠ unwrittenByte := by
  simp [Memory.wf]

theorem Memory.wf_nil : Memory.wf [] = true := rfl

theorem Memory.wf_tail {c : Host.Cell} {m : Memory} (h : Memory.wf (c :: m) = true) : Memory.wf m = true := by
  rw [Memory.wf_iff] at h ⊢
  exact ⟨(List.pairwise_cons.1 h.1).2, fun d hd => h.2 d (List.mem_cons_of_mem _ hd)⟩

/-- An address below every listed one reads as the unlisted byte. -/
theorem Memory.read_of_lt {m : Memory} {a : Nat} (h : ∀ c ∈ m, a < c.1) : m.read a = unwrittenByte := by
  cases m with
  | nil => rfl
  | cons c m =>
    obtain ⟨b, v⟩ := c
    have hab : a < b := h (b, v) (List.mem_cons_self ..)
    simp [Memory.read, hab, Nat.ne_of_lt hab]

/-- What a write leaves at the other end of the list: every cell of the result is the written one or an old one. -/
theorem Memory.mem_write {m : Memory} {a : Nat} {v : Byte} {c : Host.Cell} (h : c ∈ m.write a v) :
    c = (a, v) ∧ v ≠ unwrittenByte ∨ c ∈ m := by
  induction m with
  | nil =>
    unfold Memory.write at h
    split at h <;> simp_all
  | cons d m ih =>
    obtain ⟨b, u⟩ := d
    unfold Memory.write at h
    split at h
    · split at h <;> simp_all
    · split at h
      · split at h
        · exact .inr (List.mem_cons_of_mem _ h)
        · rename_i hv
          rcases List.mem_cons.1 h with h | h
          · exact .inl ⟨h, hv⟩
          · exact .inr (List.mem_cons_of_mem _ h)
      · rcases List.mem_cons.1 h with h | h
        · exact .inr (by simp [h])
        · rcases ih h with h | h
          · exact .inl h
          · exact .inr (List.mem_cons_of_mem _ h)

/-- A write keeps the canonical form. -/
theorem Memory.wf_write {m : Memory} (h : m.wf = true) (a : Nat) (v : Byte) : (m.write a v).wf = true := by
  rw [Memory.wf_iff]
  refine ⟨?_, fun c hc => ?_⟩
  · induction m with
    | nil =>
      unfold Memory.write
      split <;> simp
    | cons d m ih =>
      obtain ⟨b, u⟩ := d
      have hall := (Memory.wf_iff _).1 h
      have hd := List.pairwise_cons.1 hall.1
      unfold Memory.write
      split
      · rename_i hab
        split
        · exact hall.1
        · refine List.pairwise_cons.2 ⟨fun e he => ?_, hall.1⟩
          rcases List.mem_cons.1 he with he | he
          · simp [he, hab]
          · exact Nat.lt_trans hab (hd.1 e he)
      · rename_i hab
        split
        · rename_i heq
          split
          · exact hd.2
          · exact List.pairwise_cons.2 ⟨fun e he => heq ▸ hd.1 e he, hd.2⟩
        · rename_i hne
          refine List.pairwise_cons.2 ⟨fun e he => ?_, ih (Memory.wf_tail h)⟩
          rcases Memory.mem_write he with he | he
          · have : b < a := by omega
            simpa [he.1] using this
          · exact hd.1 e he
  · rcases Memory.mem_write hc with hc | hc
    · simpa [hc.1] using hc.2
    · exact ((Memory.wf_iff _).1 h).2 c hc

/-- A read after a write to the same byte gives the byte written. -/
theorem Memory.read_write_self {m : Memory} (h : m.wf = true) (a : Nat) (v : Byte) : (m.write a v).read a = v := by
  induction m with
  | nil =>
    unfold Memory.write
    split <;> simp_all [Memory.read]
  | cons d m ih =>
    obtain ⟨b, u⟩ := d
    have hd := List.pairwise_cons.1 ((Memory.wf_iff _).1 h).1
    unfold Memory.write
    split
    · rename_i hab
      split
      · simp_all [Memory.read, Nat.ne_of_lt hab]
      · simp [Memory.read]
    · split
      · rename_i hab heq
        split
        · rename_i hv
          rw [hv]
          exact Memory.read_of_lt fun c hc => heq ▸ hd.1 c hc
        · simp [Memory.read]
      · rename_i hab hne
        simp [Memory.read, hab, hne, ih (Memory.wf_tail h)]

/-- A write leaves every other byte alone. -/
theorem Memory.read_write_ne {m : Memory} (h : m.wf = true) {a b : Nat} (v : Byte) (hab : b ≠ a) :
    (m.write a v).read b = m.read b := by
  induction m with
  | nil =>
    unfold Memory.write
    split
    · rfl
    · simp [Memory.read, hab]
  | cons d m ih =>
    obtain ⟨k, u⟩ := d
    have hd := List.pairwise_cons.1 ((Memory.wf_iff _).1 h).1
    unfold Memory.write
    split
    · rename_i hak
      split
      · rfl
      · by_cases hba : b < a
        · simp [Memory.read, hab, hba, show b ≠ k by omega, show b < k by omega]
        · simp [Memory.read, hab, hba]
    · split
      · rename_i hak heq
        split
        · by_cases hba : b < k
          · rw [Memory.read_of_lt fun c hc => Nat.lt_trans hba (hd.1 c hc)]
            simp [Memory.read, hba, show b ≠ k by omega]
          · simp [Memory.read, hba, show b ≠ k by omega]
        · simp [Memory.read, ← heq, hab]
      · rename_i hak hne
        simp only [Memory.read]
        rw [ih (Memory.wf_tail h)]

/-- Every memory operation keeps the canonical form. -/
theorem Memory.wf_writeBytes {m : Memory} (h : m.wf = true) (a : Nat) (bs : List Byte) : (m.writeBytes a bs).wf = true := by
  induction bs generalizing m a with
  | nil => exact h
  | cons b bs ih => exact ih (Memory.wf_write h a b) (a + 1)

/-- A byte outside the written range reads as before. -/
theorem Memory.read_writeBytes_outside {m : Memory} (h : m.wf = true) (a : Nat) (bs : List Byte) {k : Nat}
    (hk : k < a ∨ a + bs.length ≤ k) : (m.writeBytes a bs).read k = m.read k := by
  induction bs generalizing m a with
  | nil => rfl
  | cons b bs ih =>
    rw [List.length_cons] at hk
    rw [Memory.writeBytes, ih (Memory.wf_write h a b) (a + 1) (by omega), Memory.read_write_ne h b (by omega)]

/-- A byte of the written range reads as written. -/
theorem Memory.read_writeBytes_inside {m : Memory} (h : m.wf = true) (a : Nat) (bs : List Byte) {i : Nat}
    (hi : i < bs.length) : (m.writeBytes a bs).read (a + i) = bs[i] := by
  induction bs generalizing m a i with
  | nil => simp at hi
  | cons b bs ih =>
    rw [Memory.writeBytes]
    cases i with
    | zero =>
      rw [Memory.read_writeBytes_outside (Memory.wf_write h a b) _ _ (by omega)]
      simpa using Memory.read_write_self h a b
    | succ i =>
      have := ih (Memory.wf_write h a b) (a + 1) (i := i) (by simpa using hi)
      rw [show a + (i + 1) = a + 1 + i by omega, this]
      rfl

/-- Every address a write lists was listed before or is the one written. -/
theorem Memory.addr_writeBytes {m : Memory} {bound a : Nat} {bs : List Byte} (hm : ∀ c ∈ m, c.1 < bound)
    (hb : a + bs.length ≤ bound) : ∀ c ∈ m.writeBytes a bs, c.1 < bound := by
  induction bs generalizing m a with
  | nil => exact hm
  | cons b bs ih =>
    rw [List.length_cons] at hb
    refine ih (fun c hc => ?_) (by omega)
    rcases Memory.mem_write hc with hc | hc
    · simp only [hc.1]
      omega
    · exact hm c hc

end Sys2Proof.Machine
end

