-- ==== Sys2Proof/Laws/Text.lean ====
section
/-!
SUPPORT. Text: the numerals the digit loops write (R140, R142), what the digit loops of the parsers accumulate (R144, R146), and
the string a renderer leaves (R13).
-/

namespace Sys2Proof.Machine

open Sys2Proof

/-! ### The string -/

/-- The string after `str <- text` is the text (R13). -/
theorem setText_text {s : State} {text : List Byte} (h : text.length < 2 ^ 16) (hw : s.sb.wf = true) :
    (s.setText text).text = text := by
  unfold State.text
  rw [State.setText_slen, State.setText_sb, BitVec.toNat_ofNat, Nat.mod_eq_of_lt h]
  apply List.ext_getElem (by simp)
  intro i h1 h2
  simp only [List.getElem_map, List.getElem_range]
  have := Memory.read_writeBytes_inside hw 0 text h2
  rwa [Nat.zero_add] at this

/-! ### Digit characters -/

theorem decChar_toNat {d : Nat} (h : d < 10) : (decChar d).toNat = 0x30 + d := by
  rw [decChar, BitVec.toNat_ofNat, Nat.mod_eq_of_lt (by omega)]

theorem isDecDigit_decChar {d : Nat} (h : d < 10) : isDecDigit (decChar d) := by
  unfold isDecDigit
  rw [decChar_toNat h]
  omega

theorem decDigit?_decChar {d : Nat} (h : d < 10) : decDigit? (decChar d) = some d := by
  rw [decDigit?, decChar_toNat h, if_pos (by omega)]
  congr 1
  omega

/-- A digit character stands for itself (R43, R144). -/
theorem decDigit?_eq_some {c : Byte} (h : isDecDigit c) : decDigit? c = some (c.toNat - 0x30) := if_pos h

theorem decDigit?_eq_none {c : Byte} (h : ¬ isDecDigit c) : decDigit? c = none := if_neg h

theorem ofNat_digitChar {d : Nat} (h : d < 10) : BitVec.ofNat 8 d.digitChar.toNat = decChar d := by
  revert h
  have : ∀ d : Fin 10, BitVec.ofNat 8 d.val.digitChar.toNat = decChar d.val := by decide
  exact fun h => this ⟨d, h⟩

/-! ### Decimal numerals (R140) -/

theorem decLoop_eq {fuel k : Nat} (hk : 0 < k) (hf : k < 2 ^ fuel) :
    (decLoop fuel k).reverse = asciiOf (Nat.toDigits 10 k) := by
  induction fuel generalizing k with
  | zero =>
    rw [pow_zero] at hf
    omega
  | succ fuel ih =>
    rw [decLoop, if_neg (by omega), List.reverse_cons]
    by_cases h : k < 10
    · have hz : decLoop fuel (k / 10) = [] := by
        rw [Nat.div_eq_of_lt h]
        cases fuel <;> simp [decLoop]
      rw [hz, Nat.toDigits_of_lt_base h, Nat.mod_eq_of_lt h]
      simp [asciiOf, ofNat_digitChar h]
    · have hstep : Nat.toDigits 10 k = Nat.toDigits 10 (k / 10) ++ [(k % 10).digitChar] :=
        Nat.toDigits_of_base_le (by omega) (by omega)
      rw [ih (by omega) (by rw [pow_succ] at hf; omega), hstep]
      simp [asciiOf, ofNat_digitChar (Nat.mod_lt k (show 10 > 0 by omega))]

/-- The numeral the loop writes is the one the library's `Nat.toDigits` spells: the fuel is enough (R140; log 13). -/
theorem decimal_eq {fuel k : Nat} (hf : k < 2 ^ fuel) : decimal fuel k = asciiOf (Nat.toDigits 10 k) := by
  unfold decimal
  by_cases h : k = 0
  · subst h
    rfl
  · rw [if_neg h, decLoop_eq (Nat.pos_of_ne_zero h) hf]

theorem decValue_append (ds : List Byte) (c : Byte) : decValue (ds ++ [c]) = 10 * decValue ds + (c.toNat - 0x30) := by
  simp [decValue, List.foldl_append]

theorem decLoop_digits {fuel k : Nat} (c : Byte) (hc : c ∈ decLoop fuel k) : isDecDigit c := by
  induction fuel generalizing k with
  | zero => simp [decLoop] at hc
  | succ fuel ih =>
    rw [decLoop] at hc
    split at hc
    · simp at hc
    · rcases List.mem_cons.1 hc with rfl | hc
      · exact isDecDigit_decChar (Nat.mod_lt _ (by omega))
      · exact ih hc

theorem decLoop_value {fuel k : Nat} (hf : k < 2 ^ fuel) : decValue (decLoop fuel k).reverse = k := by
  induction fuel generalizing k with
  | zero =>
    have : k = 0 := by
      rw [pow_zero] at hf
      omega
    subst this
    rfl
  | succ fuel ih =>
    rw [decLoop]
    split
    · rename_i h
      subst h
      rfl
    · rw [List.reverse_cons, decValue_append, ih (by rw [pow_succ] at hf; omega),
        decChar_toNat (Nat.mod_lt _ (by omega))]
      omega

/-- A numeral is digits, at least one, that denote its number (R140). -/
theorem decimal_spec {fuel k : Nat} (hf : k < 2 ^ fuel) :
    (∀ c ∈ decimal fuel k, isDecDigit c) ∧ decimal fuel k ≠ [] ∧ decValue (decimal fuel k) = k := by
  unfold decimal
  split
  · rename_i h
    subst h
    exact ⟨by decide, by decide, rfl⟩
  · rename_i h
    refine ⟨fun c hc => decLoop_digits c (List.mem_reverse.1 hc), ?_, decLoop_value hf⟩
    intro he
    have := decLoop_value hf
    rw [he] at this
    exact h this.symm

/-- The magnitude TODEC renders (R140). -/
theorem decText_eq (sg : Bool) (a : Wide) :
    decText sg a = (if sg = true ∧ sval a < 0 then [chMinus] else []) ++
      decimal (32 * a.length) (if sg then (sval a).natAbs else uval a) := by
  have hs := signBit_iff_sval_neg a
  unfold decText
  cases sg
  · simp
  · cases h : signBit a
    · rw [h] at hs
      simp only [Bool.false_eq_true, false_iff] at hs
      rw [sval_of_not_signBit h] at hs
      simp [sval_of_not_signBit h]
    · rw [h] at hs
      simp only [true_iff] at hs
      simp [hs, uval_wAbs]

/-- The magnitude is a number of the width (R140). -/
theorem magnitude_lt (sg : Bool) (a : Wide) : (if sg then (sval a).natAbs else uval a) < 2 ^ (32 * a.length) := by
  cases sg
  · exact uval_lt a
  · have := uval_lt (wAbs a)
    rwa [uval_wAbs, length_wAbs, wmod] at this

/-! ### Parsing (R144, R146) -/

theorem splitSign_minus (ds : List Byte) : splitSign (chMinus :: ds) = (true, ds) := by simp [splitSign]

theorem splitSign_other {ds : List Byte} (h : ds.head? ≠ some chMinus) : splitSign ds = (false, ds) := by
  cases ds with
  | nil => rfl
  | cons c cs =>
    have : c ≠ chMinus := by simpa using h
    simp [splitSign, this]

/-- The sign and what follows it. -/
theorem splitSign_text {neg : Bool} {ds : List Byte} (h : neg = false → ds.head? ≠ some chMinus) :
    splitSign ((if neg then [chMinus] else []) ++ ds) = (neg, ds) := by
  cases neg
  · exact splitSign_other (h rfl)
  · exact splitSign_minus ds

theorem mul10Words_wide (n : Nat) (k : Int) : mul10Words (wide n k) = wide n (10 * k) := by
  rw [mul10Words, wShl_wide, wShl_wide, wAdd_wide]
  congr 1
  ring

theorem decFold (ds : List Byte) (k : Nat) :
    ds.foldl (fun acc c => 10 * acc + (c.toNat - 0x30)) k = k * 10 ^ ds.length + decValue ds := by
  induction ds generalizing k with
  | nil => simp [decValue]
  | cons c cs ih =>
    have h0 := ih (10 * 0 + (c.toNat - 0x30))
    have hv : decValue (c :: cs) = (10 * 0 + (c.toNat - 0x30)) * 10 ^ cs.length + decValue cs := h0
    rw [List.foldl_cons, ih, hv, List.length_cons, pow_succ]
    ring

theorem decValue_cons (c : Byte) (cs : List Byte) :
    decValue (c :: cs) = (c.toNat - 0x30) * 10 ^ cs.length + decValue cs := by
  rw [decValue, List.foldl_cons, decFold]
  simp

/-- The loop of R144 on digits accumulates the number modulo 2^(32n). -/
theorem parseDecDigits_ok {n : Nat} {ds : List Byte} (h : ∀ c ∈ ds, isDecDigit c) (k : Nat) :
    parseDecDigits n (wide n k) ds = .ok (wide n (k * 10 ^ ds.length + decValue ds : Nat)) := by
  induction ds generalizing k with
  | nil => simp [parseDecDigits, decValue]
  | cons c cs ih =>
    have hc := h c (List.mem_cons_self ..)
    rw [parseDecDigits, decDigit?_eq_some hc]
    simp only
    rw [mul10Words_wide, wAdd_wide]
    have : (10 * (k : Int) + ((c.toNat - 0x30 : Nat) : Int)) = ((10 * k + (c.toNat - 0x30) : Nat) : Int) := by push_cast; rfl
    rw [this, ih (fun d hd => h d (List.mem_cons_of_mem _ hd)), decValue_cons, List.length_cons, pow_succ]
    congr 3
    ring

/-- The loop of R144 raises InvalidDigit when some character is no digit. -/
theorem parseDecDigits_error {n : Nat} {ds : List Byte} (h : ∃ c ∈ ds, ¬ isDecDigit c) (acc : Wide) :
    parseDecDigits n acc ds = .error .invalidDigit := by
  induction ds generalizing acc with
  | nil => simp at h
  | cons c cs ih =>
    rw [parseDecDigits]
    by_cases hc : isDecDigit c
    · rw [decDigit?_eq_some hc]
      obtain ⟨d, hd, hnd⟩ := h
      rcases List.mem_cons.1 hd with rfl | hd
      · exact absurd hc hnd
      · exact ih ⟨d, hd, hnd⟩ _
    · rw [decDigit?_eq_none hc]

/-- FROMDEC's parse of an optional sign and digits (R144). -/
theorem parseDec_ok {n : Nat} {neg : Bool} {ds : List Byte} (hs : neg = false → ds.head? ≠ some chMinus) (hne : ds ≠ [])
    (h : ∀ c ∈ ds, isDecDigit c) :
    parseDec n ((if neg then [chMinus] else []) ++ ds) =
      .ok (wide n (if neg then -(decValue ds : Int) else decValue ds)) := by
  have hloop := parseDecDigits_ok (n := n) h 0
  rw [Nat.zero_mul, Nat.zero_add] at hloop
  rw [parseDec, splitSign_text hs]
  have he : (!ds.isEmpty) = true := by simpa using hne
  simp only [he, require_true, except_ok_bind]
  rw [show (wide n 0) = wide n ((0 : Nat) : Int) from rfl, hloop]
  cases neg <;> simp [wNeg_wide]

/-- The digit a hexadecimal digit character stands for (R43, R146, R147). -/
theorem hexDigit?_eq_some {upper : Bool} {c : Byte} (h : isHexDigit upper c) :
    hexDigit? upper c = some (if c.toNat ≤ 0x39 then c.toNat - 0x30 else c.toNat % 0x20 + 9) := by
  unfold hexDigit?
  unfold isHexDigit isDecDigit at h
  rcases h with h | h | h
  · rw [if_pos h, if_pos h.2]
  · rw [if_neg (by omega), if_pos h, if_neg (by omega)]
    congr 1
    omega
  · rw [if_neg (by omega), if_neg (by omega), if_pos h, if_neg (by omega)]
    congr 1
    omega

theorem hexDigit?_eq_none {upper : Bool} {c : Byte} (h : ¬ isHexDigit upper c) : hexDigit? upper c = none := by
  unfold isHexDigit isDecDigit at h
  simp only [not_or] at h
  unfold hexDigit?
  rw [if_neg h.1, if_neg h.2.1, if_neg h.2.2]

theorem hexFold (ds : List Byte) (k : Nat) :
    ds.foldl (fun acc c => 16 * acc + (if c.toNat ≤ 0x39 then c.toNat - 0x30 else c.toNat % 0x20 + 9)) k =
      k * 16 ^ ds.length + hexValue ds := by
  induction ds generalizing k with
  | nil => simp [hexValue]
  | cons c cs ih =>
    have h0 := ih (16 * 0 + (if c.toNat ≤ 0x39 then c.toNat - 0x30 else c.toNat % 0x20 + 9))
    have hv : hexValue (c :: cs) =
        (16 * 0 + (if c.toNat ≤ 0x39 then c.toNat - 0x30 else c.toNat % 0x20 + 9)) * 16 ^ cs.length + hexValue cs := h0
    rw [List.foldl_cons, ih, hv, List.length_cons, pow_succ]
    ring

theorem hexValue_cons (c : Byte) (cs : List Byte) :
    hexValue (c :: cs) =
      (if c.toNat ≤ 0x39 then c.toNat - 0x30 else c.toNat % 0x20 + 9) * 16 ^ cs.length + hexValue cs := by
  rw [hexValue, List.foldl_cons, hexFold]
  simp

/-- The loop of R146 on digits accumulates the number modulo 2^(32n). -/
theorem parseHexDigits_ok {upper : Bool} {n : Nat} {ds : List Byte} (h : ∀ c ∈ ds, isHexDigit upper c) (k : Nat) :
    parseHexDigits upper n (wide n k) ds = .ok (wide n (k * 16 ^ ds.length + hexValue ds : Nat)) := by
  induction ds generalizing k with
  | nil => simp [parseHexDigits, hexValue]
  | cons c cs ih =>
    have hc := h c (List.mem_cons_self ..)
    rw [parseHexDigits, hexDigit?_eq_some hc, hexValue_cons]
    simp only
    generalize (if c.toNat ≤ 0x39 then c.toNat - 0x30 else c.toNat % 0x20 + 9) = d
    rw [wShl_wide, wAdd_wide]
    have : ((k : Int) * 2 ^ 4 + (d : Int)) = ((16 * k + d : Nat) : Int) := by
      push_cast
      ring
    rw [this, ih (fun e he => h e (List.mem_cons_of_mem _ he)), List.length_cons, pow_succ]
    congr 3
    ring

/-- The loop of R146 raises InvalidHexDigit when some character is no digit. -/
theorem parseHexDigits_error {upper : Bool} {n : Nat} {ds : List Byte} (h : ∃ c ∈ ds, ¬ isHexDigit upper c) (acc : Wide) :
    parseHexDigits upper n acc ds = .error .invalidHexDigit := by
  induction ds generalizing acc with
  | nil => simp at h
  | cons c cs ih =>
    rw [parseHexDigits]
    by_cases hc : isHexDigit upper c
    · rw [hexDigit?_eq_some hc]
      obtain ⟨d, hd, hnd⟩ := h
      rcases List.mem_cons.1 hd with rfl | hd
      · exact absurd hc hnd
      · exact ih ⟨d, hd, hnd⟩ _
    · rw [hexDigit?_eq_none hc]

/-- The prefix, when it stands (R146, R147). -/
theorem stripHexPrefix_ok {upper : Bool} {body ds : List Byte}
    (h : body = 0x30 :: 0x78 :: ds ∨ (upper = true ∧ body = 0x30 :: 0x58 :: ds)) :
    stripHexPrefix upper body = .ok ds := by
  rcases h with rfl | ⟨rfl, rfl⟩ <;> simp [stripHexPrefix, isX, chZero, chX, chUpperX]

/-- BadFormat where the prefix does not stand (R146). -/
theorem stripHexPrefix_error {upper : Bool} {body : List Byte}
    (h : ¬ ∃ ds, body = 0x30 :: 0x78 :: ds ∨ (upper = true ∧ body = 0x30 :: 0x58 :: ds)) :
    stripHexPrefix upper body = .error .badFormat := by
  match body, h with
  | [], _ => rfl
  | [_], _ => rfl
  | z :: x :: ds, h =>
    rw [stripHexPrefix, if_neg]
    rintro ⟨rfl, hx⟩
    apply h
    simp only [isX, Bool.or_eq_true, Bool.and_eq_true, beq_iff_eq] at hx
    rcases hx with rfl | ⟨hu, rfl⟩
    · exact ⟨ds, .inl rfl⟩
    · exact ⟨ds, .inr ⟨hu, rfl⟩⟩

/-- FROMHEX's parse of an optional sign, the prefix and digits (R146). -/
theorem parseHex_ok {upper neg : Bool} {n : Nat} {body ds : List Byte} (hs : neg = false → body.head? ≠ some chMinus)
    (hb : body = 0x30 :: 0x78 :: ds ∨ (upper = true ∧ body = 0x30 :: 0x58 :: ds)) (hne : ds ≠ [])
    (h : ∀ c ∈ ds, isHexDigit upper c) :
    parseHex upper n ((if neg then [chMinus] else []) ++ body) =
      .ok (wide n (if neg then -(hexValue ds : Int) else hexValue ds)) := by
  have he : (!ds.isEmpty) = true := by simpa using hne
  have hloop := parseHexDigits_ok (n := n) h 0
  rw [Nat.zero_mul, Nat.zero_add] at hloop
  rw [parseHex, splitSign_text hs]
  simp only
  rw [stripHexPrefix_ok hb]
  simp only [he, require_true, except_ok_bind]
  rw [show (wide n 0) = wide n ((0 : Nat) : Int) from rfl, hloop]
  cases neg <;> simp [wNeg_wide]

/-! ### Hexadecimal numerals (R142) -/

@[simp] theorem length_hexText (a : Wide) : (hexText a).length = 8 * a.length := by simp [hexText]

theorem isHexDigit_hexChar {upper : Bool} {d : Nat} (h : d < 16) : isHexDigit upper (hexChar d) := by
  revert h
  have : ∀ (u : Bool) (d : Fin 16), isHexDigit u (hexChar d.val) := by decide
  exact fun h => this upper ⟨d, h⟩

theorem hexChar_value {d : Nat} (h : d < 16) :
    (if (hexChar d).toNat ≤ 0x39 then (hexChar d).toNat - 0x30 else (hexChar d).toNat % 0x20 + 9) = d := by
  revert h
  have : ∀ d : Fin 16, (if (hexChar d.val).toNat ≤ 0x39 then (hexChar d.val).toNat - 0x30
      else (hexChar d.val).toNat % 0x20 + 9) = d.val := by decide
  exact fun h => this ⟨d, h⟩

/-- The first m characters of a hexadecimal numeral of N digits denote the top digits of its number. -/
theorem hexValue_top (k N m : Nat) (hm : m ≤ N) :
    hexValue ((List.range m).map (fun i => hexChar (k / 2 ^ (4 * (N - 1 - i)) % 16))) = k / 16 ^ (N - m) % 16 ^ m := by
  induction m with
  | zero => simp [hexValue, Nat.mod_one]
  | succ m ih =>
    have hfold : ∀ (ds : List Byte) (c : Byte), hexValue (ds ++ [c]) =
        16 * hexValue ds + (if c.toNat ≤ 0x39 then c.toNat - 0x30 else c.toNat % 0x20 + 9) := by
      intro ds c
      simp [hexValue, List.foldl_append]
    rw [List.range_succ, List.map_append, List.map_cons, List.map_nil, hfold, ih (by omega),
      hexChar_value (Nat.mod_lt _ (by omega))]
    have h16 : 2 ^ (4 * (N - 1 - m)) = 16 ^ (N - (m + 1)) := by
      rw [show N - 1 - m = N - (m + 1) by omega, pow_mul]
      rfl
    have hdiv : k / 16 ^ (N - m) = k / 16 ^ (N - (m + 1)) / 16 := by
      rw [Nat.div_div_eq_div_mul, ← pow_succ]
      congr 2
      omega
    rw [h16, hdiv, pow_succ', Nat.mod_mul]
    omega

/-- The number a hexadecimal numeral denotes is U (R142). -/
theorem hexValue_hexText (a : Wide) : hexValue (hexText a) = uval a := by
  rw [hexText, hexValue_top _ _ _ (Nat.le_refl _), Nat.sub_self, pow_zero, Nat.div_one, Nat.mod_eq_of_lt]
  have := uval_lt a
  rw [wmod, show 32 * a.length = 4 * (8 * a.length) by ring, pow_mul] at this
  exact this

theorem hexText_digits {upper : Bool} {a : Wide} (c : Byte) (hc : c ∈ hexText a) : isHexDigit upper c := by
  obtain ⟨i, -, rfl⟩ := List.mem_map.1 hc
  exact isHexDigit_hexChar (Nat.mod_lt _ (by omega))

end Sys2Proof.Machine
end

