-- ==== Sys2Proof/Laws/Fixed.lean ====
section
/-!
SUPPORT. Fixed point: what the widened intermediate of FXMUL and FXDIV computes (R153, R154, R155), the double-precision fields
(R17), the magnitudes of FXFROMD and FXTOD (R160, R162), and the exact fraction of FXTODEC and its parse (R165 to R167).
-/

namespace Sys2Proof.Machine

open Sys2Proof

/-! ### FXMUL and FXDIV (R153 to R155) -/

theorem wCast_wide {m n : Nat} (h : n ≤ m) (k : Int) : wCast (wide m k) n true = wide n k := by
  rw [wCast_eq, if_pos rfl]
  obtain ⟨d, rfl⟩ : ∃ d, m = n + d := ⟨m - n, by omega⟩
  apply wide_congr
  have h1 := sval_modEq (wide (n + d) k)
  rw [length_wide] at h1
  have h2 := h1.trans (uval_wide_modEq (n + d) k)
  rw [wmod_add] at h2
  push_cast at h2
  exact h2.of_mul_right _

/-- FXMUL gives floor(S(a)·S(b) / 2^(32F)) modulo 2^(32n) (R153). -/
theorem fxMulWords_eq (a b : Wide) (f : Nat) :
    fxMulWords f a b = wide a.length (sval a * sval b / 2 ^ (32 * f)) := by
  have hA : wCast a (a.length + f) true = wide (a.length + f) (sval a) := by rw [wCast_eq, if_pos rfl]
  have hB : wCast b (a.length + f) true = wide (a.length + f) (sval b) := by rw [wCast_eq, if_pos rfl]
  simp only [fxMulWords]
  rw [hA, hB, wMul_wide, wAsr, length_wide, wCast_wide (Nat.le_add_right _ _)]
  apply wide_congr
  have hm := ediv_modEq (sval (wide (a.length + f) (sval a * sval b))) (32 * f) (32 * (a.length + f)) (32 * a.length) (by omega)
  have hm' := ediv_modEq (sval a * sval b) (32 * f) (32 * (a.length + f)) (32 * a.length) (by omega)
  rw [wmod_cast]
  refine hm.trans (Int.ModEq.trans (modEq_of_eq ?_) hm'.symm)
  congr 1
  have h1 := sval_modEq (wide (a.length + f) (sval a * sval b))
  rw [length_wide] at h1
  have h2 := h1.trans (uval_wide_modEq _ _)
  rw [wmod_cast] at h2
  exact h2

theorem uval_ne_zero_of_sval {b : Wide} (h : sval b ≠ 0) : uval b ≠ 0 := by
  intro h0
  have hs := signBit_iff b
  rw [h0] at hs
  have hp := wmod_pos b.length
  have : signBit b = false := by
    by_contra hc
    rw [Bool.not_eq_false, hs] at hc
    omega
  rw [sval_of_not_signBit this, h0] at h
  exact h rfl

/-- FXDIV gives S(a)·2^(32F) / S(b) rounded toward zero, modulo 2^(32n) (R154). -/
theorem fxDivWords_eq {a b : Wide} (h : a.length = b.length) (hb : uval b ≠ 0) {f : Nat} (hf : 1 ≤ f) (hn : f < a.length) :
    fxDivWords f a b = wide a.length ((sval a * 2 ^ (32 * f)).tdiv (sval b)) := by
  have hne : a ≠ [] := by
    rintro rfl
    simp at hn
  have hneb : b ≠ [] := by
    rintro rfl
    rw [List.length_nil] at h
    omega
  have hra := sval_range a hne
  have hrb := sval_range b hneb
  have hA : wCast a (a.length + f) true = wide (a.length + f) (sval a) := by rw [wCast_eq, if_pos rfl]
  have hB : wCast b (a.length + f) true = wide (a.length + f) (sval b) := by rw [wCast_eq, if_pos rfl]
  have hsplit : (2 : Int) ^ (32 * (a.length + f) - 1) = 2 ^ (32 * a.length - 1) * 2 ^ (32 * f) := by
    rw [← pow_add]
    congr 1
    omega
  have hpos : (0 : Int) < 2 ^ (32 * f) := by positivity
  have hsA : sval (wide (a.length + f) (sval a * 2 ^ (32 * f))) = sval a * 2 ^ (32 * f) := by
    apply sval_wide (by omega)
    · rw [hsplit, ← neg_mul]
      exact mul_le_mul_of_nonneg_right hra.1 hpos.le
    · rw [hsplit]
      exact mul_lt_mul_of_pos_right hra.2 hpos
  have hsB : sval (wide (a.length + f) (sval b)) = sval b := by
    have hle : (2 : Int) ^ (32 * b.length - 1) ≤ 2 ^ (32 * (a.length + f) - 1) :=
      pow_le_pow_right₀ (by norm_num) (by omega)
    apply sval_wide (by omega)
    · exact le_trans (neg_le_neg hle) hrb.1
    · exact lt_of_lt_of_le hrb.2 hle
  have hBne : uval (wide (a.length + f) (sval b)) ≠ 0 := uval_ne_zero_of_sval (by rw [hsB]; exact sval_ne_zero hb)
  simp only [fxDivWords]
  rw [hA, hB, wShl_wide, divmod_true hBne, hsA, hsB, length_wide, wCast_wide (Nat.le_add_right _ _)]

/-! ### Double precision (R17, R160, R162) -/

theorem dcompose_toNat {s : Bool} {e m : Nat} (he : e < 2 ^ 11) (hm : m < 2 ^ 52) :
    (dcompose s e m).toNat = s.toNat * 2 ^ 63 + e * 2 ^ 52 + m := by
  have hs : s.toNat ≤ 1 := by cases s <;> simp
  rw [dcompose, BitVec.toNat_ofNat, Nat.mod_eq_of_lt]
  omega

/-- The fields of a composed pattern (R17). -/
theorem dsign_dcompose {s : Bool} {e m : Nat} (he : e < 2 ^ 11) (hm : m < 2 ^ 52) : dsign (dcompose s e m) = s := by
  rw [dsign, dcompose_toNat he hm]
  have hs : s.toNat ≤ 1 := by cases s <;> simp
  have : (s.toNat * 2 ^ 63 + e * 2 ^ 52 + m) / 2 ^ 63 = s.toNat := by omega
  rw [this]
  cases s <;> rfl

theorem dexp_dcompose {s : Bool} {e m : Nat} (he : e < 2 ^ 11) (hm : m < 2 ^ 52) : dexp (dcompose s e m) = e := by
  rw [dexp, dcompose_toNat he hm]
  omega

theorem dman_dcompose {s : Bool} {e m : Nat} (hm : m < 2 ^ 52) : dman (dcompose s e m) = m := by
  have hs : s.toNat ≤ 1 := by cases s <;> simp
  rw [dman, dcompose, BitVec.toNat_ofNat]
  omega

theorem dman_lt (d : BitVec 64) : dman d < 2 ^ 52 := Nat.mod_lt _ (by decide)

theorem dexp_lt (d : BitVec 64) : dexp d < 2 ^ 11 := Nat.mod_lt _ (by decide)

/-- The value FXFROMD builds from a normal pattern: the scaled mantissa rounded down, with the sign (R160). -/
theorem fxOfNormal_eq {n f : Nat} (hn : 2 ≤ n) (d : BitVec 64) :
    fxOfNormal n f d = wide n ((if dsign d then -1 else 1) * ((2 ^ 52 + dman d) * 2 ^ (dexp d + 32 * f) / 2 ^ 1075 : Nat)) := by
  have hm := dman_lt d
  have hv : (if 0 ≤ ((dexp d : Int) - 1023) - 52 + 32 * f
      then wShl (wide n ((2 ^ 52 + dman d : Nat) : Int)) (((dexp d : Int) - 1023) - 52 + 32 * f).toNat
      else wLsr (wide n ((2 ^ 52 + dman d : Nat) : Int)) (-(((dexp d : Int) - 1023) - 52 + 32 * f)).toNat) =
      wide n (((2 ^ 52 + dman d) * 2 ^ (dexp d + 32 * f) / 2 ^ 1075 : Nat) : Int) := by
    split
    · rename_i h
      obtain ⟨k, hk⟩ : ∃ k : Nat, dexp d + 32 * f = 1075 + k := ⟨dexp d + 32 * f - 1075, by omega⟩
      have hk' : (((dexp d : Int) - 1023) - 52 + 32 * f).toNat = k := by omega
      rw [hk', hk, wShl_wide, pow_add 2 1075 k, mul_left_comm, Nat.mul_div_cancel_left _ (Nat.two_pow_pos 1075)]
      push_cast
      rfl
    · rename_i h
      obtain ⟨k, hk⟩ : ∃ k : Nat, 1075 = dexp d + 32 * f + k := ⟨1075 - (dexp d + 32 * f), by omega⟩
      have hk' : (-(((dexp d : Int) - 1023) - 52 + 32 * f)).toNat = k := by omega
      have hlt : 2 ^ 52 + dman d < wmod n := by
        have : 2 ^ 64 ≤ wmod n := Nat.pow_le_pow_right (by omega) (by omega)
        omega
      rw [hk', wLsr, length_wide, uval_wide_of_lt hlt]
      congr 2
      conv_rhs => rw [hk]
      rw [pow_add 2 (dexp d + 32 * f) k, mul_comm (2 ^ 52 + dman d), Nat.mul_div_mul_left _ _ (Nat.two_pow_pos _)]
  simp only [fxOfNormal]
  rw [hv]
  split
  · rw [wNeg_wide]
    congr 1
    ring
  · rw [one_mul]

/-- M of R162 has its leading bit at bit 52 and, below it, the 52 bits below the leading bit of the magnitude, low bits
dropped. -/
theorem fxMantissa_eq {m p : Nat} (h1 : 2 ^ p ≤ m) (h2 : m < 2 ^ (p + 1)) :
    fxMantissa m p = m * 2 ^ 52 / 2 ^ p ∧ 2 ^ 52 ≤ fxMantissa m p ∧ fxMantissa m p < 2 ^ 53 := by
  have heq : fxMantissa m p = m * 2 ^ 52 / 2 ^ p := by
    unfold fxMantissa
    split
    · rename_i h
      obtain ⟨k, rfl⟩ : ∃ k, p = 52 + k := ⟨p - 52, by omega⟩
      rw [Nat.add_sub_cancel_left, pow_add, mul_comm m, Nat.mul_div_mul_left _ _ (Nat.two_pow_pos _)]
    · rename_i h
      obtain ⟨k, hk⟩ : ∃ k, 52 = p + k := ⟨52 - p, by omega⟩
      rw [show 52 - p = k by omega]
      conv_rhs => rw [hk, pow_add, mul_left_comm, Nat.mul_div_cancel_left _ (Nat.two_pow_pos _)]
  rw [heq]
  refine ⟨rfl, ?_, ?_⟩
  · rw [Nat.le_div_iff_mul_le (Nat.two_pow_pos _), mul_comm]
    exact Nat.mul_le_mul_right _ h1
  · rw [Nat.div_lt_iff_lt_mul (Nat.two_pow_pos _), show 2 ^ 53 * 2 ^ p = 2 ^ (p + 1) * 2 ^ 52 by rw [pow_succ]; ring]
    exact Nat.mul_lt_mul_of_pos_right h2 (Nat.two_pow_pos _)

theorem fxFromDouble_zero {n f : Nat} {d : BitVec 64} (h : dexp d = 0) : fxFromDouble n f d = some (wide n 0) := if_pos h

theorem fxFromDouble_normal {n f : Nat} {d : BitVec 64} (hn : 2 ≤ n) (h0 : dexp d ≠ 0) (h1 : dexp d ≠ 2047) :
    fxFromDouble n f d =
      some (wide n ((if dsign d then -1 else 1) * ((2 ^ 52 + dman d) * 2 ^ (dexp d + 32 * f) / 2 ^ 1075 : Nat))) := by
  rw [fxFromDouble, if_neg h0, if_neg h1, fxOfNormal_eq hn]

theorem fxFromDouble_open {n f : Nat} {d : BitVec 64} (h : dexp d = 2047) : fxFromDouble n f d = none := by
  rw [fxFromDouble, if_neg (by omega), if_pos h]

/-- The value FXFROMD writes has the width asked for. -/
theorem length_fxFromDouble {n f : Nat} {d : BitVec 64} {v : Wide} (h : fxFromDouble n f d = some v) : v.length = n := by
  unfold fxFromDouble at h
  split at h
  · simp only [Option.some.injEq] at h
    rw [← h, length_wide]
  · split at h
    · simp at h
    · simp only [Option.some.injEq, fxOfNormal] at h
      rw [← h]
      split <;> split <;> simp

/-- The leading bit FXTOD finds is that of |S(a)| (R162). -/
theorem topBit_magnitude {a : Wide} {p : Nat} (h1 : 2 ^ p ≤ (sval a).natAbs) (h2 : (sval a).natAbs < 2 ^ (p + 1)) :
    topBit (wAbs a) (32 * a.length) = some p := by
  have := (topBit_eq_some_iff_uval (wAbs a) p).2 (by rw [uval_wAbs]; exact ⟨h1, h2⟩)
  rwa [length_wAbs] at this

theorem fxToDouble_zero {f : Nat} {a : Wide} (h : uval a = 0) : fxToDouble f a = some 0 := by
  have hs : sval a = 0 := by
    by_contra hc
    exact absurd h (uval_ne_zero_of_sval hc)
  have ht := (topBit_eq_none_iff_uval (wAbs a)).2 (by rw [uval_wAbs, hs]; rfl)
  rw [length_wAbs] at ht
  rw [fxToDouble, ht]

theorem fxToDouble_normal {f p : Nat} {a : Wide} (h1 : 2 ^ p ≤ (sval a).natAbs) (h2 : (sval a).natAbs < 2 ^ (p + 1))
    (e1 : 32 * f + 1 ≤ p + 1023) (e2 : p + 1023 ≤ 32 * f + 2046) :
    fxToDouble f a = some (dcompose (signBit a) (p + 1023 - 32 * f) (fxMantissa (sval a).natAbs p % 2 ^ 52)) := by
  have he : (fxExponent f p).toNat = p + 1023 - 32 * f := by
    unfold fxExponent
    omega
  have hne : ¬ (fxExponent f p < 1 ∨ 2046 < fxExponent f p) := by
    unfold fxExponent
    omega
  rw [fxToDouble, topBit_magnitude h1 h2]
  simp only
  rw [if_neg hne, he, uval_wAbs]

theorem fxToDouble_open {f p : Nat} {a : Wide} (h1 : 2 ^ p ≤ (sval a).natAbs) (h2 : (sval a).natAbs < 2 ^ (p + 1))
    (he : p + 1023 < 32 * f + 1 ∨ 32 * f + 2046 < p + 1023) : fxToDouble f a = none := by
  rw [fxToDouble, topBit_magnitude h1 h2]
  simp only
  rw [if_pos]
  unfold fxExponent
  omega

/-! ### The fraction of FXTODEC (R165, R166) -/

/-- The digits of the fraction loop denote the fraction exactly: each step doubles the power of two that divides it, so k steps
are enough for a fraction over 2^k (R166; log 13). -/
theorem fracLoop_spec {one k fuel fr : Nat} (hone : one = 2 ^ k) (hfr : fr < one) (hdvd : 2 ^ (k - fuel) ∣ fr) (hfuel : fuel ≤ k) :
    (∀ c ∈ fracLoop one fuel fr, isDecDigit c) ∧ (fracLoop one fuel fr).length ≤ fuel ∧
      (fr ≠ 0 → fracLoop one fuel fr ≠ []) ∧ (fracLoop one fuel fr).getLast? ≠ some 0x30 ∧
      decValue (fracLoop one fuel fr) * one = fr * 10 ^ (fracLoop one fuel fr).length := by
  have hpos : 0 < one := by rw [hone]; exact Nat.two_pow_pos _
  induction fuel generalizing fr with
  | zero =>
    have h0 : fr = 0 := Nat.eq_zero_of_dvd_of_lt (hone ▸ (by simpa using hdvd)) hfr
    subst h0
    simp [fracLoop, decValue]
  | succ fuel ih =>
    rw [fracLoop]
    by_cases h0 : fr = 0
    · subst h0
      simp [decValue]
    · rw [if_neg h0]
      have hd : fr * 10 / one < 10 := by
        rw [Nat.div_lt_iff_lt_mul hpos]
        omega
      have hnext : 2 ^ (k - fuel) ∣ fr * 10 % one := by
        have h2 : 2 ^ (k - fuel) ∣ fr * 10 := by
          obtain ⟨q, hq⟩ := hdvd
          refine ⟨q * 5, ?_⟩
          rw [hq, show k - fuel = k - (fuel + 1) + 1 by omega, pow_succ]
          ring
        rw [hone]
        exact (Nat.dvd_mod_iff (Nat.pow_dvd_pow 2 (by omega))).2 h2
      obtain ⟨i1, i2, i3, i4, i5⟩ := ih (Nat.mod_lt _ hpos) hnext (by omega)
      have hdm := Nat.div_add_mod (fr * 10) one
      generalize fr * 10 % one = r at *
      generalize fr * 10 / one = d at *
      refine ⟨?_, by simpa using i2, fun _ => List.cons_ne_nil _ _, ?_, ?_⟩
      · intro c hc
        rcases List.mem_cons.1 hc with rfl | hc
        · exact isDecDigit_decChar hd
        · exact i1 c hc
      · by_cases hr : r = 0
        · subst hr
          have hz : fracLoop one fuel 0 = [] := by cases fuel <;> simp [fracLoop]
          rw [hz, List.getLast?_singleton]
          intro hc
          have hd0 : d ≠ 0 := by
            rintro rfl
            omega
          have := decChar_toNat hd
          rw [Option.some.inj hc] at this
          simp at this
          omega
        · have := i3 hr
          rwa [List.getLast?_cons_of_ne_nil this]
      · rw [decValue_cons, decChar_toNat hd, Nat.add_sub_cancel_left, List.length_cons, pow_succ, Nat.add_mul, i5]
        have : fr * (10 ^ (fracLoop one fuel r).length * 10) = (fr * 10) * 10 ^ (fracLoop one fuel r).length := by ring
        rw [this, ← hdm]
        ring

/-- The fraction characters of a magnitude (R165). -/
def fxFraction (f m : Nat) : List Byte :=
  if m % 2 ^ (32 * f) = 0 then [chZero] else fracLoop (2 ^ (32 * f)) (32 * f) (m % 2 ^ (32 * f))

/-- The text of FXTODEC: sign, whole part, point, fraction of the magnitude (R165, R168). -/
theorem fxText_eq (f : Nat) (a : Wide) :
    fxText f a = (if sval a < 0 then [chMinus] else []) ++
      (decimal (32 * a.length) ((sval a).natAbs / 2 ^ (32 * f)) ++ chPoint :: fxFraction f (sval a).natAbs) := by
  have hm : uval (if signBit a then wAbs a else a) = (sval a).natAbs := by
    cases hs : signBit a
    · simp [sval_of_not_signBit hs]
    · simp [uval_wAbs]
  have hs := signBit_iff_sval_neg a
  simp only [fxText, fxFraction, hm]
  cases h : signBit a
  · rw [h] at hs
    simp only [Bool.false_eq_true, false_iff] at hs
    simp [hs]
  · rw [h] at hs
    simp only [true_iff] at hs
    simp [hs]

/-- The fraction characters are digits, at least one and at most 32·F, with no trailing zero but the single "0", and denote
the fraction exactly (R165, R166). -/
theorem fxFraction_spec {f : Nat} (hf : 1 ≤ f) (m : Nat) :
    (∀ c ∈ fxFraction f m, isDecDigit c) ∧ 1 ≤ (fxFraction f m).length ∧ (fxFraction f m).length ≤ 32 * f ∧
      (fxFraction f m ≠ [0x30] → (fxFraction f m).getLast? ≠ some 0x30) ∧
      decValue (fxFraction f m) * 2 ^ (32 * f) = m % 2 ^ (32 * f) * 10 ^ (fxFraction f m).length := by
  unfold fxFraction
  split
  · rename_i h
    refine ⟨by decide, by decide, ?_, fun h => absurd rfl h, ?_⟩
    · rw [List.length_singleton]
      omega
    · rw [h]
      simp [decValue, chZero]
  · rename_i h
    have := fracLoop_spec (k := 32 * f) (fuel := 32 * f) rfl (Nat.mod_lt m (Nat.two_pow_pos (32 * f))) (by simp) (Nat.le_refl _)
    exact ⟨this.1, List.length_pos_iff.2 (this.2.2.1 h), this.2.1, fun _ => this.2.2.2.1, this.2.2.2.2⟩

/-! ### The parse of R167 -/

theorem parseWhole_ok {is tail : List Byte} (h : ∀ c ∈ is, isDecDigit c) (ht : tail = [] ∨ ∃ cs, tail = chPoint :: cs) (I k : Nat) :
    parseWhole I k (is ++ tail) = .ok (I * 10 ^ is.length + decValue is, k + is.length, tail) := by
  induction is generalizing I k with
  | nil =>
    rcases ht with rfl | ⟨cs, rfl⟩
    · simp [parseWhole, decValue]
    · simp [parseWhole, decValue]
  | cons c cs ih =>
    have hc := h c (List.mem_cons_self ..)
    have hne : c ≠ chPoint := by
      rintro rfl
      revert hc
      decide
    rw [List.cons_append, parseWhole, if_neg hne, decDigit?_eq_some hc]
    simp only
    rw [ih (fun d hd => h d (List.mem_cons_of_mem _ hd)), decValue_cons, List.length_cons, pow_succ]
    congr 2
    · ring
    · congr 1
      omega

theorem parseWhole_error {is tail : List Byte} (h : ∃ c ∈ is, ¬ isDecDigit c) (hp : chPoint ∉ is) (I k : Nat) :
    parseWhole I k (is ++ tail) = .error .invalidDigit := by
  induction is generalizing I k with
  | nil => simp at h
  | cons c cs ih =>
    have hne : c ≠ chPoint := fun e => hp (e ▸ List.mem_cons_self ..)
    rw [List.cons_append, parseWhole, if_neg hne]
    by_cases hc : isDecDigit c
    · rw [decDigit?_eq_some hc]
      obtain ⟨d, hd, hnd⟩ := h
      rcases List.mem_cons.1 hd with rfl | hd
      · exact absurd hc hnd
      · exact ih ⟨d, hd, hnd⟩ (fun hm => hp (List.mem_cons_of_mem _ hm)) _ _
    · rw [decDigit?_eq_none hc]

theorem parseFrac_ok {ds : List Byte} (h : ∀ c ∈ ds, isDecDigit c) (D k : Nat) :
    parseFrac D k ds = .ok (D * 10 ^ ds.length + decValue ds, k + ds.length) := by
  induction ds generalizing D k with
  | nil => simp [parseFrac, decValue]
  | cons c cs ih =>
    have hc := h c (List.mem_cons_self ..)
    rw [parseFrac, decDigit?_eq_some hc]
    simp only
    rw [ih (fun d hd => h d (List.mem_cons_of_mem _ hd)), decValue_cons, List.length_cons, pow_succ]
    congr 2
    · ring
    · omega

theorem parseFrac_error {ds : List Byte} (h : ∃ c ∈ ds, ¬ isDecDigit c) (D k : Nat) :
    parseFrac D k ds = .error .invalidDigit := by
  induction ds generalizing D k with
  | nil => simp at h
  | cons c cs ih =>
    rw [parseFrac]
    by_cases hc : isDecDigit c
    · rw [decDigit?_eq_some hc]
      obtain ⟨d, hd, hnd⟩ := h
      rcases List.mem_cons.1 hd with rfl | hd
      · exact absurd hc hnd
      · exact ih ⟨d, hd, hnd⟩ _ _
    · rw [decDigit?_eq_none hc]

/-- FXFROMDEC's parse of an integer part alone (R167). -/
theorem parseFx_whole {n f : Nat} {neg : Bool} {is : List Byte} (hs : neg = false → is.head? ≠ some chMinus) (hne : is ≠ [])
    (h : ∀ c ∈ is, isDecDigit c) :
    parseFx n f ((if neg then [chMinus] else []) ++ is) =
      .ok (wide n ((if neg then -1 else 1) * (decValue is * 2 ^ (32 * f) : Nat))) := by
  have hw := parseWhole_ok (tail := []) h (.inl rfl) 0 0
  rw [List.append_nil] at hw
  have hl : (decide (0 + is.length ≠ 0)) = true := by
    rw [Nat.zero_add]
    simpa using hne
  rw [parseFx, splitSign_text hs]
  simp only
  rw [hw]
  simp only [except_ok_bind, hl, require_true, parseTail]
  cases neg <;> simp [wNeg_wide]

/-- FXFROMDEC's parse of an integer part, a point and fraction digits (R167). -/
theorem parseFx_point {n f : Nat} {neg : Bool} {is ds : List Byte} (hs : neg = false → (is ++ chPoint :: ds).head? ≠ some chMinus)
    (hne : is ≠ []) (h : ∀ c ∈ is, isDecDigit c) (hne' : ds ≠ []) (h' : ∀ c ∈ ds, isDecDigit c) :
    parseFx n f ((if neg then [chMinus] else []) ++ (is ++ chPoint :: ds)) =
      .ok (wide n ((if neg then -1 else 1) *
        (decValue is * 2 ^ (32 * f) + decValue ds * 2 ^ (32 * f) / 10 ^ ds.length : Nat))) := by
  have hw := parseWhole_ok (tail := chPoint :: ds) h (.inr ⟨ds, rfl⟩) 0 0
  have hl : (decide (0 + is.length ≠ 0)) = true := by
    rw [Nat.zero_add]
    simpa using hne
  have ht : parseTail (chPoint :: ds) = parseFrac 0 0 ds := by
    cases ds with
    | nil => exact absurd rfl hne'
    | cons c cs => rfl
  rw [parseFx, splitSign_text hs]
  simp only
  rw [hw]
  simp only [except_ok_bind, hl, require_true]
  rw [ht, parseFrac_ok h']
  simp only [except_ok_bind]
  cases neg <;> simp [wNeg_wide]

end Sys2Proof.Machine
end

