-- ==== Sys2Proof/Laws/PerInstr.lean ====
section
/-!
SUPPORT. Statements made per instruction, one lemma for each constructor of Instr. EncodedLength: a command has its header word
and as many extension words as its opcode asks for (R59).
-/

/-- The words of the command are its header word and the extension words its opcode asks for (R59). -/
def Sys2Proof.Laws.EncodedLength.Statement (i : Sys2Proof.Instr) : Prop :=
  (Sys2Proof.encode i).length = 1 + Sys2Proof.extWords (Sys2Proof.headerOf i).op

open Sys2Proof

theorem Sys2Proof.Laws.EncodedLength.nop : Sys2Proof.Laws.EncodedLength.Statement .nop := rfl

theorem Sys2Proof.Laws.EncodedLength.clrst : Sys2Proof.Laws.EncodedLength.Statement .clrst := rfl

theorem Sys2Proof.Laws.EncodedLength.rdst : Sys2Proof.Laws.EncodedLength.Statement .rdst := rfl

theorem Sys2Proof.Laws.EncodedLength.sbclr : Sys2Proof.Laws.EncodedLength.Statement .sbclr := rfl

theorem Sys2Proof.Laws.EncodedLength.sbput (char : Byte) : Sys2Proof.Laws.EncodedLength.Statement (.sbput char) := rfl

theorem Sys2Proof.Laws.EncodedLength.sbget (index : Nat) : Sys2Proof.Laws.EncodedLength.Statement (.sbget index) := rfl

theorem Sys2Proof.Laws.EncodedLength.sblen : Sys2Proof.Laws.EncodedLength.Statement .sblen := rfl

theorem Sys2Proof.Laws.EncodedLength.ldi32 (sg : Bool) (rd : Reg) (n : Nat) (imm32 : Word) : Sys2Proof.Laws.EncodedLength.Statement (.ldi32 sg rd n imm32) := rfl

theorem Sys2Proof.Laws.EncodedLength.ldi64 (sg : Bool) (rd : Reg) (n : Nat) (imm64 : BitVec 64) : Sys2Proof.Laws.EncodedLength.Statement (.ldi64 sg rd n imm64) := rfl

theorem Sys2Proof.Laws.EncodedLength.mov (rd rs1 : Reg) : Sys2Proof.Laws.EncodedLength.Statement (.mov rd rs1) := rfl

theorem Sys2Proof.Laws.EncodedLength.getw (rs1 : Reg) (index : Nat) : Sys2Proof.Laws.EncodedLength.Statement (.getw rs1 index) := rfl

theorem Sys2Proof.Laws.EncodedLength.setw (rd : Reg) (index : Nat) (imm32 : Word) : Sys2Proof.Laws.EncodedLength.Statement (.setw rd index imm32) := rfl

theorem Sys2Proof.Laws.EncodedLength.add (rd rs1 rs2 : Reg) : Sys2Proof.Laws.EncodedLength.Statement (.add rd rs1 rs2) := rfl

theorem Sys2Proof.Laws.EncodedLength.sub (rd rs1 rs2 : Reg) : Sys2Proof.Laws.EncodedLength.Statement (.sub rd rs1 rs2) := rfl

theorem Sys2Proof.Laws.EncodedLength.neg (rd rs1 : Reg) : Sys2Proof.Laws.EncodedLength.Statement (.neg rd rs1) := rfl

theorem Sys2Proof.Laws.EncodedLength.not (rd rs1 : Reg) : Sys2Proof.Laws.EncodedLength.Statement (.not rd rs1) := rfl

theorem Sys2Proof.Laws.EncodedLength.and (rd rs1 rs2 : Reg) : Sys2Proof.Laws.EncodedLength.Statement (.and rd rs1 rs2) := rfl

theorem Sys2Proof.Laws.EncodedLength.or (rd rs1 rs2 : Reg) : Sys2Proof.Laws.EncodedLength.Statement (.or rd rs1 rs2) := rfl

theorem Sys2Proof.Laws.EncodedLength.xor (rd rs1 rs2 : Reg) : Sys2Proof.Laws.EncodedLength.Statement (.xor rd rs1 rs2) := rfl

theorem Sys2Proof.Laws.EncodedLength.mul (sg : Bool) (rd rs1 rs2 : Reg) : Sys2Proof.Laws.EncodedLength.Statement (.mul sg rd rs1 rs2) := rfl

theorem Sys2Proof.Laws.EncodedLength.div (sg : Bool) (rd rs1 rs2 : Reg) : Sys2Proof.Laws.EncodedLength.Statement (.div sg rd rs1 rs2) := rfl

theorem Sys2Proof.Laws.EncodedLength.mod (sg : Bool) (rd rs1 rs2 : Reg) : Sys2Proof.Laws.EncodedLength.Statement (.mod sg rd rs1 rs2) := rfl

theorem Sys2Proof.Laws.EncodedLength.mul10 (rd rs1 : Reg) : Sys2Proof.Laws.EncodedLength.Statement (.mul10 rd rs1) := rfl

theorem Sys2Proof.Laws.EncodedLength.div10 (rd rs1 : Reg) : Sys2Proof.Laws.EncodedLength.Statement (.div10 rd rs1) := rfl

theorem Sys2Proof.Laws.EncodedLength.shl (rd rs1 : Reg) (count : Nat) : Sys2Proof.Laws.EncodedLength.Statement (.shl rd rs1 count) := rfl

theorem Sys2Proof.Laws.EncodedLength.shr (sg : Bool) (rd rs1 : Reg) (count : Nat) : Sys2Proof.Laws.EncodedLength.Statement (.shr sg rd rs1 count) := rfl

theorem Sys2Proof.Laws.EncodedLength.cmp (sg : Bool) (rs1 rs2 : Reg) : Sys2Proof.Laws.EncodedLength.Statement (.cmp sg rs1 rs2) := rfl

theorem Sys2Proof.Laws.EncodedLength.eq (rs1 rs2 : Reg) : Sys2Proof.Laws.EncodedLength.Statement (.eq rs1 rs2) := rfl

theorem Sys2Proof.Laws.EncodedLength.ne (rs1 rs2 : Reg) : Sys2Proof.Laws.EncodedLength.Statement (.ne rs1 rs2) := rfl

theorem Sys2Proof.Laws.EncodedLength.cast (sg : Bool) (rd rs1 : Reg) (m : Nat) : Sys2Proof.Laws.EncodedLength.Statement (.cast sg rd rs1 m) := rfl

theorem Sys2Proof.Laws.EncodedLength.getbit (rs1 : Reg) (index : Nat) : Sys2Proof.Laws.EncodedLength.Statement (.getbit rs1 index) := rfl

theorem Sys2Proof.Laws.EncodedLength.setbit (v : Bool) (rd : Reg) (index : Nat) : Sys2Proof.Laws.EncodedLength.Statement (.setbit v rd index) := rfl

theorem Sys2Proof.Laws.EncodedLength.idxmsb (rs1 : Reg) : Sys2Proof.Laws.EncodedLength.Statement (.idxmsb rs1) := rfl

theorem Sys2Proof.Laws.EncodedLength.todec (sg : Bool) (rs1 : Reg) : Sys2Proof.Laws.EncodedLength.Statement (.todec sg rs1) := rfl

theorem Sys2Proof.Laws.EncodedLength.tohex (rs1 : Reg) : Sys2Proof.Laws.EncodedLength.Statement (.tohex rs1) := rfl

theorem Sys2Proof.Laws.EncodedLength.fromdec (rd : Reg) (n : Nat) : Sys2Proof.Laws.EncodedLength.Statement (.fromdec rd n) := rfl

theorem Sys2Proof.Laws.EncodedLength.fromhex (rd : Reg) (n : Nat) : Sys2Proof.Laws.EncodedLength.Statement (.fromhex rd n) := rfl

theorem Sys2Proof.Laws.EncodedLength.fxfromi (rd rs1 : Reg) (f : Nat) : Sys2Proof.Laws.EncodedLength.Statement (.fxfromi rd rs1 f) := rfl

theorem Sys2Proof.Laws.EncodedLength.fxadd (rd rs1 rs2 : Reg) (f : Nat) : Sys2Proof.Laws.EncodedLength.Statement (.fxadd rd rs1 rs2 f) := rfl

theorem Sys2Proof.Laws.EncodedLength.fxsub (rd rs1 rs2 : Reg) (f : Nat) : Sys2Proof.Laws.EncodedLength.Statement (.fxsub rd rs1 rs2 f) := rfl

theorem Sys2Proof.Laws.EncodedLength.fxmul (rd rs1 rs2 : Reg) (f : Nat) : Sys2Proof.Laws.EncodedLength.Statement (.fxmul rd rs1 rs2 f) := rfl

theorem Sys2Proof.Laws.EncodedLength.fxdiv (rd rs1 rs2 : Reg) (f : Nat) : Sys2Proof.Laws.EncodedLength.Statement (.fxdiv rd rs1 rs2 f) := rfl

theorem Sys2Proof.Laws.EncodedLength.fxfromd (rd : Reg) (n f : Nat) (imm64 : BitVec 64) : Sys2Proof.Laws.EncodedLength.Statement (.fxfromd rd n f imm64) := rfl

theorem Sys2Proof.Laws.EncodedLength.fxtod (rs1 : Reg) (f : Nat) : Sys2Proof.Laws.EncodedLength.Statement (.fxtod rs1 f) := rfl

theorem Sys2Proof.Laws.EncodedLength.fxtodec (rs1 : Reg) (f : Nat) : Sys2Proof.Laws.EncodedLength.Statement (.fxtodec rs1 f) := rfl

theorem Sys2Proof.Laws.EncodedLength.fxfromdec (rd : Reg) (n f : Nat) : Sys2Proof.Laws.EncodedLength.Statement (.fxfromdec rd n f) := rfl
end

