-- ==== Sys2Proof/Laws/Port.lean ====
section
/-!
SUPPORT. The command port: when the words received are a whole command (R59), and what `receive` finds on a port that holds the
words of a command, part of a command, or an assertion of `rst` (R55, R56, R190).
-/

namespace Sys2Proof.Machine

open Sys2Proof

/-- Words that are no whole command, nor more than one: fewer than the header asks for. -/
def Short (words : List Word) : Prop := ∀ h ext, words = h :: ext → 1 + ext.length < commandLength h

theorem Short.nil : Short [] := by
  intro h ext e
  cases e

theorem Short.not_complete {words : List Word} (h : Short words) : commandComplete words = false := by
  cases words with
  | nil => rfl
  | cons w ext =>
    have := h w ext rfl
    simp only [commandComplete, decide_eq_false_iff_not]
    omega

/-- A command's header has at least its own word. -/
theorem commandLength_pos (h : Word) : 1 ≤ commandLength h := Nat.le_add_right 1 _

/-- What stands before the last word of a command, or of part of one, is part of one. -/
theorem Short.of_append {words : List Word} {w : Word} {more : List Word}
    (h : ∀ k ext, words ++ w :: more = k :: ext → 1 + ext.length ≤ commandLength k) : Short words := by
  intro k ext e
  subst e
  have := h k (ext ++ w :: more) rfl
  simp only [List.length_append, List.length_cons] at this
  omega

/-- Words taken from the port one by one, as long as they are part of one command. -/
theorem receive_words (rx words : List Word) (port : List PortEvent)
    (h : ∀ k ext, rx ++ words = k :: ext → 1 + ext.length ≤ commandLength k) :
    receive rx (words.map .word ++ port) = receive (rx ++ words) port := by
  induction words generalizing rx with
  | nil => simp
  | cons w more ih =>
    have hs : Short rx := Short.of_append h
    rw [List.map_cons, List.cons_append, receive, hs.not_complete]
    simp only [Bool.false_eq_true, if_false]
    rw [ih (rx ++ [w]) (by simpa using h)]
    simp

/-- A whole command is received as such, whatever follows it. -/
theorem receive_complete {words : List Word} (h : commandComplete words = true) (port : List PortEvent) :
    receive words port = .command words port := by
  cases port <;> simp [receive, h]

/-- Part of a command with nothing after it: the block waits. -/
theorem receive_short_nil {words : List Word} (h : Short words) : receive words [] = .waiting words := by
  simp [receive, h.not_complete]

/-- Part of a command with `rst` after it: the block is reset. -/
theorem receive_short_rst {words : List Word} (h : Short words) (port : List PortEvent) :
    receive words (.rst :: port) = .reset port := by
  simp [receive, h.not_complete]

/-- What `receive` answers is a whole command, an assertion of `rst`, or no whole command. -/
theorem receive_cases (rx : List Word) (port : List PortEvent) :
    (∃ words rest, receive rx port = .command words rest ∧ commandComplete words = true) ∨
    (∃ rest, receive rx port = .reset rest) ∨
    (∃ words, receive rx port = .waiting words ∧ commandComplete words = false) := by
  induction port generalizing rx with
  | nil =>
    cases h : commandComplete rx
    · exact .inr (.inr ⟨rx, by simp [receive, h], h⟩)
    · exact .inl ⟨rx, [], receive_complete h _, h⟩
  | cons e port ih =>
    cases h : commandComplete rx
    · cases e with
      | word w =>
        have : receive rx (.word w :: port) = receive (rx ++ [w]) port := by simp [receive, h]
        rw [this]
        exact ih _
      | rst => exact .inr (.inl ⟨port, by simp [receive, h]⟩)
    · exact .inl ⟨rx, e :: port, receive_complete h _, h⟩

/-- The words of a decoded command, with nothing after them, are a whole command. -/
theorem complete_of_decode {words : List Word} {i : Instr} (h : decode words = .ok (i, [])) :
    commandComplete words = true := by
  obtain ⟨w, ext, r, rfl, hr, hlen, -, -⟩ := decode_eq_ok _ _ _ h
  simp [commandComplete, commandLength, extWords, hr, hlen]

/-- A step on a whole command that decodes. -/
theorem step_command {s : State} {words : List Word} {port : List PortEvent} {i : Instr} {rest : List Word}
    (hr : receive s.rx s.port = .command words port) (hd : decode words = .ok (i, rest)) :
    step s = exec i (s.accepted port) := by
  rw [step, hr]
  simp only [hd]

/-- A step on a whole command that does not decode. -/
theorem step_illegal {s : State} {words : List Word} {port : List PortEvent} {e : Reject}
    (hr : receive s.rx s.port = .command words port) (hd : decode words = .error e) :
    step s = .next ((s.accepted port).completeErr .illegalCommand) := by
  rw [step, hr]
  simp only [hd]
  rfl

/-- A step that finds `rst`. -/
theorem step_reset {s : State} {port : List PortEvent} (hr : receive s.rx s.port = .reset port) :
    step s = .next (s.applyReset port) := by
  rw [step, hr]

/-- A step that waits. -/
theorem step_waiting {s : State} {words : List Word} (hr : receive s.rx s.port = .waiting words) :
    step s = .next { s with rx := words, port := [] } := by
  rw [step, hr]

end Sys2Proof.Machine
end

