-- ==== Sys2Proof/Tests/Slice0.lean ====
section
/-!
SUPPORT. Tests: ill-formed commands the check refuses, words written out field by field from R57 and R60, one step per command
on a small state with results from the spec's own vectors (V<n> of `95_test_vectors.md`), and for every statement with
hypotheses a state and operands that meet them all.
-/

namespace Sys2Proof.Tests

open Sys2Proof Sys2Proof.Machine

/-! ### Helpers -/

/-- The defaults of R7 with a setting of HEX_UPPER_IN. -/
def cfg (upper : Bool) : Config := { nmax := 16, sbsize := 1024, hexUpperIn := upper }

/-- A block right after reset. -/
def base : State := State.resetWith (cfg false)

/-- A block with a small string buffer. -/
def small (sbsize : Nat) : State := State.resetWith { nmax := 16, sbsize := sbsize, hexUpperIn := false }

/-- A state with values in registers. -/
def regs (s : State) : List (Reg × Wide) → State
  | [] => s
  | (r, v) :: rest => regs (s.writeX r v) rest

/-- A string as the bytes of its characters. -/
def str (text : String) : List Byte := asciiOf text.toList

def after (i : Instr) (s : State) : Option State :=
  match exec i s with
  | .next t => some t
  | _ => none

/-- The words of a register, where valid. -/
def xOf (r : Reg) (t : Option State) : Option Wide := t.bind fun t => if t.x[r].valid then some t.x[r].w else none

def resOf (t : Option State) : Option (BitVec 64) := t.map State.res

def stOf (t : Option State) : Option (BitVec 32) := t.map State.status

def textOf (t : Option State) : Option (List Byte) := t.map State.text

/-! ### WellFormed: an ill-formed term for each check, refused -/

theorem test_ill_formed_half :
    ∀ i ∈ ([.sbget 65536, .getw 1 65536, .setw 1 65536 0, .shl 1 2 65536, .shr true 1 2 65536, .getbit 1 65536,
      .setbit true 1 65536] : List Instr), i.wellFormed = false := by decide

theorem test_ill_formed_byte :
    ∀ i ∈ ([.ldi32 false 1 256 0, .ldi64 false 1 256 0, .cast false 1 2 256, .fromdec 1 256, .fromhex 1 256,
      .fxfromi 1 2 256, .fxadd 1 2 3 256, .fxsub 1 2 3 256, .fxmul 1 2 3 256, .fxdiv 1 2 3 256, .fxtod 1 256, .fxtodec 1 256]
      : List Instr), i.wellFormed = false := by decide

theorem test_ill_formed_two_bytes :
    ∀ i ∈ ([.fxfromd 1 256 2 0, .fxfromd 1 6 256 0, .fxfromdec 1 256 2, .fxfromdec 1 6 256] : List Instr),
      i.wellFormed = false := by decide

theorem test_well_formed_bounds :
    ∀ i ∈ ([.sbget 65535, .shl 1 2 65535, .ldi32 false 1 255 0, .fxfromd 1 255 255 0, .fxtod 1 255] : List Instr),
      i.wellFormed = true := by decide

/-! ### Decoding: words written from the fields of R57, op S rd rs1 rs2 immhi immlo, with the opcodes of R60 -/

/-- Each list of words decodes to its command, with nothing left over. -/
def decodes (rows : List (List Word × Instr)) : Bool :=
  rows.all fun p => match decode p.1 with
    | .ok (i, rest) => i == p.2 && rest.isEmpty
    | .error _ => false

theorem test_decode_system : decodes
    [ ([0b000000_0_000_000_000_00000000_00000000], .nop),
      ([0b000001_0_000_000_000_00000000_00000000], .clrst),
      ([0b000010_0_000_000_000_00000000_00000000], .rdst),
      ([0b000011_0_000_000_000_00000000_00000000], .sbclr),
      ([0b000100_0_000_000_000_00000000_11010010], .sbput 0b11010010),
      ([0b000101_0_000_000_000_10010110_00001111], .sbget 0b10010110_00001111),
      ([0b000110_0_000_000_000_00000000_00000000], .sblen) ] = true := by decide

theorem test_decode_construct : decodes
    [ ([0b001000_1_010_000_000_00000000_00000100, 0xFFFFFFFB], .ldi32 true 2 4 0xFFFFFFFB),
      ([0b001000_0_101_000_000_00000000_10000001, 0x00000007], .ldi32 false 5 129 7),
      ([0b001001_0_001_000_000_00000000_00000100, 0x9ABCDEF0, 0x12345678], .ldi64 false 1 4 0x123456789ABCDEF0),
      ([0b001010_0_011_110_000_00000000_00000000], .mov 3 6),
      ([0b001011_0_000_101_000_00000001_00000010], .getw 5 258),
      ([0b001100_0_100_000_000_00000011_00000001, 0x89ABCDEF], .setw 4 769 0x89ABCDEF) ] = true := by decide

theorem test_decode_addlogic : decodes
    [ ([0b010000_0_001_010_100_00000000_00000000], .add 1 2 4),
      ([0b010001_0_011_101_110_00000000_00000000], .sub 3 5 6),
      ([0b010010_0_111_001_000_00000000_00000000], .neg 7 1),
      ([0b010011_0_010_100_000_00000000_00000000], .not 2 4),
      ([0b010100_0_001_011_101_00000000_00000000], .and 1 3 5),
      ([0b010101_0_110_111_000_00000000_00000000], .or 6 7 0),
      ([0b010110_0_100_010_001_00000000_00000000], .xor 4 2 1) ] = true := by decide

theorem test_decode_muldiv : decodes
    [ ([0b011000_1_001_010_011_00000000_00000000], .mul true 1 2 3),
      ([0b011001_0_011_001_010_00000000_00000000], .div false 3 1 2),
      ([0b011010_1_100_101_110_00000000_00000000], .mod true 4 5 6),
      ([0b011011_0_010_001_000_00000000_00000000], .mul10 2 1),
      ([0b011100_0_101_110_000_00000000_00000000], .div10 5 6) ] = true := by decide

theorem test_decode_shift_compare : decodes
    [ ([0b100000_0_010_001_000_00000001_00100100], .shl 2 1 292),
      ([0b100001_1_010_001_000_00000000_00000111], .shr true 2 1 7),
      ([0b100001_0_110_011_000_11111111_11111111], .shr false 6 3 65535),
      ([0b100100_1_000_001_010_00000000_00000000], .cmp true 1 2),
      ([0b100101_0_000_100_011_00000000_00000000], .eq 4 3),
      ([0b100110_0_000_101_111_00000000_00000000], .ne 5 7) ] = true := by decide

theorem test_decode_cast_bit : decodes
    [ ([0b101000_1_001_010_000_00000000_00010000], .cast true 1 2 16),
      ([0b101001_0_000_011_000_00000000_01111111], .getbit 3 127),
      ([0b101010_1_101_000_000_00000001_00000000], .setbit true 5 256),
      ([0b101010_0_101_000_000_00000000_00000001], .setbit false 5 1),
      ([0b101011_0_000_110_000_00000000_00000000], .idxmsb 6) ] = true := by decide

theorem test_decode_text : decodes
    [ ([0b101100_1_000_010_000_00000000_00000000], .todec true 2),
      ([0b101101_0_000_011_000_00000000_00000000], .tohex 3),
      ([0b101110_0_001_000_000_00000000_00000100], .fromdec 1 4),
      ([0b101111_0_100_000_000_00000000_00000010], .fromhex 4 2) ] = true := by decide

theorem test_decode_fixed : decodes
    [ ([0b110000_0_010_001_000_00000101_00000000], .fxfromi 2 1 5),
      ([0b110001_0_011_001_010_00000010_00000000], .fxadd 3 1 2 2),
      ([0b110010_0_001_100_101_00000001_00000000], .fxsub 1 4 5 1),
      ([0b110011_0_110_010_111_00001111_00000000], .fxmul 6 2 7 15),
      ([0b110100_0_011_001_010_00000010_00000000], .fxdiv 3 1 2 2),
      ([0b111000_0_001_000_000_00000010_00000110, 0x00000000, 0x408F4100], .fxfromd 1 6 2 0x408F410000000000),
      ([0b111001_0_000_001_000_00000010_00000000], .fxtod 1 2),
      ([0b111010_0_000_101_000_00000100_00000000], .fxtodec 5 4),
      ([0b111011_0_001_000_000_00000010_00000110], .fxfromdec 1 6 2) ] = true := by decide

/-- V300, V301 and the reserved ROL, ROR (R123) and FXMOD (R156): one-word commands that spell nothing. -/
theorem test_decode_undefined :
    decode [0x1C000000] = .error .undefinedOpcode ∧ decode [0xFFFFFFFF] = .error .undefinedOpcode ∧
    decode [0x88000000] = .error .undefinedOpcode ∧ decode [0x8C000000] = .error .undefinedOpcode ∧
    decode [0xD4CA0200] = .error .undefinedOpcode := by decide

/-- V302 to V305 and V17: a nonzero must-be-zero field. -/
theorem test_decode_nonzero_field :
    decode [0x40CA0001] = .error .nonzeroField ∧ decode [0x42CA0000] = .error .nonzeroField ∧
    decode [0x00010000] = .error .nonzeroField ∧ decode [0x20480001, 0x10000041] = .error .nonzeroField ∧
    decode [0x04400000] = .error .nonzeroField := by decide

theorem test_decode_incomplete :
    decode [0x24400004, 0x9ABCDEF0] = .error .incomplete ∧ decode [] = .error .noHeader := by decide

/-- Words after a command are left over. -/
theorem test_decode_rest : decode [0x20400001, 5, 0x1000002D] = .ok (.ldi32 false 1 1 5, [0x1000002D]) := by decide

/-- The row's bits numbered as the opcode table numbers them (R59, R60). -/
theorem test_table_word :
    decodeTableWord 96 (0x12345678_9ABCDEF0_24400004) = some (.ldi64 false 1 4 0x123456789ABCDEF0) ∧
    decodeTableWord 32 0x24400004 = some (.ldi64 false 1 4 0) ∧ decodeTableWord 32 0xFFFFFFFF = none := by decide

/-! ### Assembly text (R65, R66, R67) -/

theorem test_asm :
    asm .nop = "NOP" ∧ asm (.ldi32 false 2 4 0x8765) = "LDI32.U x2, 4, 34661" ∧ asm (.div false 3 1 2) = "DIV.U x3, x1, x2" ∧
    asm (.mul true 1 1 2) = "MUL.S x1, x1, x2" ∧ asm (.shr true 2 1 7) = "SHR.S x2, x1, 7" ∧ asm (.tohex 3) = "TOHEX x3" ∧
    asm (.fxmul 3 1 2 2) = "FXMUL x3, x1, x2, F=2" := by decide

/-- The pseudo-instructions' words: PUTS "hi", ZERO x1, 4 and FXLDI x1, 6, F=2, -1 (R66). -/
theorem test_pseudo :
    (puts (str "hi")).flatMap encode = [0x0C000000, 0x10000068, 0x10000069] ∧
    (zeroReg 1 4).flatMap encode = [0x20400004, 0x00000000] ∧
    (fxldi 1 6 2 0xFFFFFFFF).flatMap encode = [0x22400006, 0xFFFFFFFF, 0xC0480200] := by decide

/-! ### The step -/

/-- The host's first question: a row's word is the next command run, as the first after reset (V1, V5, V19 and an undefined
opcode, V300). -/
theorem test_step_from_reset :
    (match step (State.reset.withFetchWord 32 0x1000002D) with | .next t => textOf (some t) | _ => none) = some (str "-") ∧
    (match step (State.reset.withFetchWord 64 0xFFFFFFFB20400004) with | .next t => xOf 1 (some t) | _ => none) =
      some [0xFFFFFFFB, 0, 0, 0] ∧
    (match step (State.reset.withFetchWord 32 0x1C000000) with | .next t => t.status | _ => 0) = 0x110 := by decide

/-- A step takes one command and leaves the rest on the port; the response is the command's (R55, R179). -/
theorem test_step_one_command :
    (match step { base with port := [.word 0x20400001, .word 5, .word 0x18000000, .rst] } with
      | .next t => decide (t.port = [.word 0x18000000, .rst] ∧ t.rx = [] ∧ t.rsp = [⟨0x00, 0⟩] ∧ t.x[1].w = [5])
      | _ => false) = true := by decide

/-- V305: the extension word of an illegal command is consumed with it (R62). -/
theorem test_step_illegal_consumes :
    (match step { base with port := [.word 0x20480001, .word 0x10000041, .word 0] } with
      | .next t => decide (t.port = [.word 0] ∧ t.status = 0x110 ∧ t.slen = 0 ∧ t.rsp = [⟨0x10, 0⟩])
      | _ => false) = true := by decide

/-- A command two of whose three words have arrived waits; `rst` makes it forgotten (R56, R190). -/
theorem test_step_wait_and_reset :
    (match step { base with port := [.word 0x24400004, .word 1] } with
      | .next t => decide (t.rx = [0x24400004, 1] ∧ t.port = [] ∧ t.rsp = [])
      | _ => false) = true ∧
    (match step { base with rx := [0x24400004, 1], res := 7, port := [.rst, .word 0] } with
      | .next t => decide (t.rx = [] ∧ t.port = [.word 0] ∧ t.res = 0)
      | _ => false) = true := by decide

/-! ### System and string buffer (V2 to V17) -/

/-- The state of V13 to V17: STATUS after a DivideByZero. -/
def failed : State := { base with status := 0x101 }

theorem test_nop : stOf (after .nop failed) = some 0x100 := by decide

theorem test_clrst : stOf (after .clrst failed) = some 0x000 := by decide

theorem test_rdst : resOf (after .rdst failed) = some 0x101 ∧ stOf (after .rdst failed) = some 0x100 := by decide

theorem test_sbclr : textOf (after .sbclr (base.setText (str "hi"))) = some [] := by decide

theorem test_sbput : textOf (after (.sbput 0xFF) (base.setText (str "hi"))) = some (str "hi" ++ [0xFF]) := by decide

theorem test_sbput_full :
    stOf (after (.sbput 0x65) ((small 4).setText (str "abcd"))) = some 0x116 ∧
    textOf (after (.sbput 0x65) ((small 4).setText (str "abcd"))) = some (str "abcd") := by decide

theorem test_sbget :
    resOf (after (.sbget 1) (base.setText (str "hi"))) = some 0x69 ∧
    stOf (after (.sbget 2) (base.setText (str "hi"))) = some 0x114 := by decide

theorem test_sblen : resOf (after .sblen (base.setText (str "hi"))) = some 2 := by decide

/-! ### Construction and word access (V18 to V38) -/

/-- x1 of V32 to V37: LDI64.U x1, 4, 0x123456789ABCDEF0. -/
def quad : State := regs base [(1, [0x9ABCDEF0, 0x12345678, 0, 0])]

theorem test_ldi32 :
    xOf 1 (after (.ldi32 true 1 4 0xFFFFFFFB) base) = some [0xFFFFFFFB, 0xFFFFFFFF, 0xFFFFFFFF, 0xFFFFFFFF] ∧
    xOf 1 (after (.ldi32 false 1 4 0xFFFFFFFB) base) = some [0xFFFFFFFB, 0, 0, 0] := by decide

theorem test_ldi32_width :
    stOf (after (.ldi32 false 1 0 1) base) = some 0x113 ∧ stOf (after (.ldi32 false 1 17 1) base) = some 0x113 ∧
    stOf (after (.ldi32 false 7 16 1) base) = some 0x000 := by decide

theorem test_ldi64 :
    xOf 1 (after (.ldi64 true 1 4 0x8000000000000000) base) = some [0, 0x80000000, 0xFFFFFFFF, 0xFFFFFFFF] ∧
    xOf 1 (after (.ldi64 true 1 1 0x123456789ABCDEF0) base) = some [0x9ABCDEF0] := by decide

theorem test_mov :
    xOf 3 (after (.mov 3 2) (regs base [(2, [5])])) = some [5] ∧ stOf (after (.mov 3 2) base) = some 0x111 := by decide

theorem test_getw :
    resOf (after (.getw 1 0) quad) = some 0x9ABCDEF0 ∧ stOf (after (.getw 1 4) quad) = some 0x114 := by decide

theorem test_setw :
    xOf 1 (after (.setw 1 2 0x9ABCDEF0) quad) = some [0x9ABCDEF0, 0x12345678, 0x9ABCDEF0, 0] ∧
    stOf (after (.setw 1 4 1) quad) = some 0x114 := by decide

/-! ### Add, subtract, bitwise (V39 to V58) -/

theorem test_add :
    xOf 3 (after (.add 3 1 2) (regs base [(1, [0xFFFFFFFF, 0xFFFFFFFF, 0xFFFFFFFF, 0]), (2, [1, 0, 0, 0])])) = some [0, 0, 0, 1] ∧
    xOf 1 (after (.add 1 1 1) (regs base [(1, [0x80000001, 0])])) = some [2, 1] := by decide

theorem test_add_checks :
    stOf (after (.add 3 1 2) (regs base [(1, [1, 0]), (2, [1, 0, 0, 0])])) = some 0x112 ∧
    stOf (after (.add 3 1 2) (regs base [(1, [1, 0])])) = some 0x111 := by decide

theorem test_sub :
    xOf 3 (after (.sub 3 1 2) (regs base [(1, [5, 0]), (2, [0, 0x80000000])])) = some [5, 0x80000000] := by decide

theorem test_neg : xOf 2 (after (.neg 2 1) (regs base [(1, [5, 0])])) = some [0xFFFFFFFB, 0xFFFFFFFF] := by decide

theorem test_not : xOf 2 (after (.not 2 1) (regs base [(1, [0x0000FFFF])])) = some [0xFFFF0000] := by decide

/-- The operands of V54 to V56. -/
def masks : State := regs base [(1, [0xFF00FF00]), (2, [0x0FF00FF0])]

theorem test_and : xOf 3 (after (.and 3 1 2) masks) = some [0x0F000F00] := by decide

theorem test_or : xOf 3 (after (.or 3 1 2) masks) = some [0xFFF0FFF0] := by decide

theorem test_xor : xOf 3 (after (.xor 3 1 2) masks) = some [0xF0F0F0F0] := by decide

/-! ### Multiply, divide (V59 to V91) -/

theorem test_mul :
    xOf 3 (after (.mul false 3 1 2) (regs base [(1, [0xFFFFFFFF, 0xFFFFFFFF, 0, 0]), (2, [0xFFFFFFFF, 0xFFFFFFFF, 0, 0])])) =
      some [1, 0, 0xFFFFFFFE, 0xFFFFFFFF] ∧
    xOf 3 (after (.mul true 3 1 2) (regs base [(1, [0xFFFFFFFD, 0xFFFFFFFF]), (2, [5, 0])])) =
      some [0xFFFFFFF1, 0xFFFFFFFF] := by decide

/-- −7 and 2 at n = 1 (V68, V69, V74, V75). -/
def minusSeven : State := regs base [(1, [0xFFFFFFF9]), (2, [2])]

theorem test_div :
    xOf 3 (after (.div true 3 1 2) minusSeven) = some [0xFFFFFFFD] ∧
    xOf 3 (after (.div false 3 1 2) minusSeven) = some [0x7FFFFFFC] := by decide

theorem test_div_most_negative :
    xOf 3 (after (.div true 3 1 2) (regs base [(1, [0x80000000]), (2, [0xFFFFFFFF])])) = some [0x80000000] ∧
    stOf (after (.div false 3 1 2) (regs base [(1, [5, 0]), (2, [0, 0])])) = some 0x101 := by decide

theorem test_mod :
    xOf 3 (after (.mod true 3 1 2) minusSeven) = some [0xFFFFFFFF] ∧
    xOf 3 (after (.mod false 3 1 2) minusSeven) = some [1] := by decide

theorem test_mod_large_divisor :
    xOf 3 (after (.mod false 3 1 2) (regs base [(1, [0xFFFFFFFF]), (2, [0x80000001])])) = some [0x7FFFFFFE] := by decide

theorem test_mul10 : xOf 2 (after (.mul10 2 1) (regs base [(1, [0x1999999A, 0])])) = some [4, 1] := by decide

theorem test_div10 :
    xOf 2 (after (.div10 2 1) (regs base [(1, [0xFFFFFFFF])])) = some [0x19999999] ∧
    resOf (after (.div10 2 1) (regs base [(1, [0xFFFFFFFF])])) = some 5 := by decide

/-! ### Shifts (V92 to V108) -/

def ones64 : State := regs base [(1, [0xFFFFFFFF, 0xFFFFFFFF, 0, 0])]

theorem test_shl :
    xOf 2 (after (.shl 2 1 36) ones64) = some [0, 0xFFFFFFF0, 0xFFFFFFFF, 0xF] ∧
    xOf 2 (after (.shl 2 1 127) ones64) = some [0, 0, 0, 0x80000000] := by decide

theorem test_shl_past_width :
    xOf 2 (after (.shl 2 1 128) ones64) = some [0, 0, 0, 0] ∧ xOf 2 (after (.shl 2 1 65535) ones64) = some [0, 0, 0, 0] := by
  decide

def topBitSet : State := regs base [(1, [0, 0, 0, 0x80000000])]

theorem test_shr :
    xOf 2 (after (.shr true 2 1 36) topBitSet) = some [0, 0, 0xF8000000, 0xFFFFFFFF] ∧
    xOf 2 (after (.shr false 2 1 36) topBitSet) = some [0, 0, 0x08000000, 0] := by decide

theorem test_shr_past_width :
    xOf 2 (after (.shr true 2 1 127) topBitSet) = some [0xFFFFFFFF, 0xFFFFFFFF, 0xFFFFFFFF, 0xFFFFFFFF] := by decide

/-! ### Compares (V114 to V129) -/

/-- −5 and 3 at n = 4 (V114, V115). -/
def minusFiveAndThree : State :=
  regs base [(1, [0xFFFFFFFB, 0xFFFFFFFF, 0xFFFFFFFF, 0xFFFFFFFF]), (2, [3, 0, 0, 0])]

theorem test_cmp :
    resOf (after (.cmp true 1 2) minusFiveAndThree) = some 0xFFFFFFFFFFFFFFFF ∧
    resOf (after (.cmp false 1 2) minusFiveAndThree) = some 1 := by decide

theorem test_cmp_high_word :
    resOf (after (.cmp false 1 2) (regs base [(1, [0, 1]), (2, [0xFFFFFFFF, 0])])) = some 1 ∧
    resOf (after (.cmp true 1 2) (regs base [(1, [0, 0x80000000]), (2, [0xFFFFFFFF, 0x7FFFFFFF])])) =
      some 0xFFFFFFFFFFFFFFFF := by decide

theorem test_eq :
    resOf (after (.eq 1 2) (regs base [(1, [5]), (2, [5])])) = some 1 ∧
    stOf (after (.eq 1 2) (regs base [(1, [5]), (2, [5, 0])])) = some 0x112 := by decide

theorem test_ne :
    resOf (after (.ne 1 2) (regs base [(1, [5]), (2, [6])])) = some 1 ∧
    resOf (after (.ne 1 2) { regs base [(1, [5]), (2, [5])] with res := 9 }) = some 0 := by decide

/-! ### Cast and bit access (V130 to V156) -/

theorem test_cast :
    xOf 2 (after (.cast true 2 1 3) (regs base [(1, [0xFFFFFFFB])])) = some [0xFFFFFFFB, 0xFFFFFFFF, 0xFFFFFFFF] ∧
    xOf 2 (after (.cast false 2 1 3) (regs base [(1, [0xFFFFFFFB])])) = some [0xFFFFFFFB, 0, 0] := by decide

theorem test_cast_narrow_and_range :
    xOf 2 (after (.cast true 2 1 1) (regs base [(1, [0x80000000, 0])])) = some [0x80000000] ∧
    stOf (after (.cast false 2 1 0) base) = some 0x113 := by decide

/-- The value 2^64 at n = 4 (V142, V143, V145, V156). -/
def bit64 : State := regs base [(1, [0, 0, 1, 0])]

theorem test_getbit :
    resOf (after (.getbit 1 64) bit64) = some 1 ∧ resOf (after (.getbit 1 63) { bit64 with res := 9 }) = some 0 ∧
    stOf (after (.getbit 1 128) bit64) = some 0x114 := by decide

theorem test_setbit :
    xOf 1 (after (.setbit true 1 37) (regs base [(1, [0, 0, 0, 0])])) = some [0, 0x20, 0, 0] ∧
    xOf 1 (after (.setbit false 1 37) (regs base [(1, [0, 0x20, 0, 0])])) = some [0, 0, 0, 0] ∧
    stOf (after (.setbit true 1 128) bit64) = some 0x114 := by decide

theorem test_idxmsb :
    resOf (after (.idxmsb 1) (regs base [(1, [0x8765, 0, 0, 0])])) = some 0xF ∧
    resOf (after (.idxmsb 1) (regs base [(1, [0, 0, 0, 0])])) = some 0xFFFFFFFFFFFFFFFF ∧
    resOf (after (.idxmsb 1) bit64) = some 0x40 := by decide +kernel

/-! ### Text (V157 to V215) -/

theorem test_todec :
    textOf (after (.todec true 1) minusFiveAndThree) = some (str "-5") ∧
    textOf (after (.todec true 1) (regs base [(1, [0, 0, 0, 0])])) = some (str "0") := by decide +kernel

theorem test_todec_most_negative :
    textOf (after (.todec true 1) (regs base [(1, [0, 0, 0, 0x80000000])])) =
      some (str "-170141183460469231731687303715884105728") ∧
    stOf (after (.todec false 1) (regs ((small 4).setText (str "ab")) [(1, [12345])])) = some 0x116 := by decide +kernel

theorem test_tohex :
    textOf (after (.tohex 1) (regs base [(1, [0xFFFFFFFB])])) = some (str "fffffffb") ∧
    textOf (after (.tohex 1) (regs base [(1, [0x89ABCDEF, 0x01234567])])) = some (str "0123456789abcdef") := by decide +kernel

theorem test_fromdec :
    xOf 1 (after (.fromdec 1 4) (base.setText (str "-5"))) = some [0xFFFFFFFB, 0xFFFFFFFF, 0xFFFFFFFF, 0xFFFFFFFF] ∧
    xOf 1 (after (.fromdec 1 1) (base.setText (str "99999999999"))) = some [0x4876E7FF] := by decide +kernel

theorem test_fromdec_errors :
    stOf (after (.fromdec 1 4) (base.setText (str "+5"))) = some 0x102 ∧
    stOf (after (.fromdec 1 4) (base.setText (str "-"))) = some 0x104 ∧
    stOf (after (.fromdec 1 17) (base.setText (str "12a"))) = some 0x113 := by decide +kernel

theorem test_fromhex :
    xOf 1 (after (.fromhex 1 1) (base.setText (str "0x123456789"))) = some [0x23456789] ∧
    xOf 1 (after (.fromhex 1 4) (base.setText (str "-0x1"))) = some [0xFFFFFFFF, 0xFFFFFFFF, 0xFFFFFFFF, 0xFFFFFFFF] ∧
    stOf (after (.fromhex 1 4) (base.setText (str "0x"))) = some 0x104 ∧
    stOf (after (.fromhex 1 4) (base.setText (str "0x12g4"))) = some 0x103 := by decide +kernel

theorem test_fromhex_upper :
    stOf (after (.fromhex 1 4) (base.setText (str "0xABC"))) = some 0x103 ∧
    stOf (after (.fromhex 1 4) (base.setText (str "0X12"))) = some 0x104 ∧
    xOf 1 (after (.fromhex 1 4) ((State.resetWith (cfg true)).setText (str "0xaBcD"))) = some [0xABCD, 0, 0, 0] ∧
    xOf 1 (after (.fromhex 1 4) ((State.resetWith (cfg true)).setText (str "0X12"))) = some [0x12, 0, 0, 0] := by
  decide +kernel

/-! ### Fixed point (V216 to V299) -/

theorem test_fxfromi :
    xOf 2 (after (.fxfromi 2 1 1) (regs base [(1, [0xFFFFFFFD, 0xFFFFFFFF])])) = some [0, 0xFFFFFFFD] ∧
    stOf (after (.fxfromi 2 1 1) (regs base [(1, [7])])) = some 0x115 := by decide +kernel

theorem test_fxadd :
    xOf 3 (after (.fxadd 3 1 2 2) (regs base [(1, [0, 0x20000000, 0x3E8, 0, 0, 0]), (2, [0, 0xE0000000, 0, 0, 0, 0])])) =
      some [0, 0, 0x3E9, 0, 0, 0] ∧
    stOf (after (.fxadd 3 1 2 0) (regs base [(1, [1, 0]), (2, [1, 0, 0])])) = some 0x112 := by decide +kernel

theorem test_fxsub :
    xOf 3 (after (.fxsub 3 1 2 2) (regs base [(1, [0, 0, 0, 0, 0, 0]), (2, [0, 0x80000000, 0, 0, 0, 0])])) =
      some [0, 0x80000000, 0xFFFFFFFF, 0xFFFFFFFF, 0xFFFFFFFF, 0xFFFFFFFF] := by decide +kernel

/-- V226 and V229: the product is rounded down, not toward zero. -/
theorem test_fxmul :
    xOf 3 (after (.fxmul 3 1 2 2) (regs base
      [(1, [0, 0x80000000, 0xFFFFFFFE, 0xFFFFFFFF, 0xFFFFFFFF, 0xFFFFFFFF]), (2, [0, 0x80000000, 2, 0, 0, 0])])) =
      some [0, 0x40000000, 0xFFFFFFFC, 0xFFFFFFFF, 0xFFFFFFFF, 0xFFFFFFFF] ∧
    xOf 3 (after (.fxmul 3 2 1 1) (regs base [(1, [1, 0]), (2, [0xFFFFFFFF, 0xFFFFFFFF])])) =
      some [0xFFFFFFFF, 0xFFFFFFFF] := by decide +kernel

/-- V234: −1/3 toward zero. -/
theorem test_fxdiv :
    xOf 3 (after (.fxdiv 3 1 2 2) (regs base
      [(1, [0, 0, 0xFFFFFFFF, 0xFFFFFFFF, 0xFFFFFFFF, 0xFFFFFFFF]), (2, [0, 0, 3, 0, 0, 0])])) =
      some [0xAAAAAAAB, 0xAAAAAAAA, 0xFFFFFFFF, 0xFFFFFFFF, 0xFFFFFFFF, 0xFFFFFFFF] := by decide +kernel

theorem test_fxdiv_checks :
    stOf (after (.fxdiv 3 1 2 0) (regs base [(1, [5, 0]), (2, [0, 0])])) = some 0x115 ∧
    stOf (after (.fxdiv 3 1 2 1) (regs base [(1, [5, 0]), (2, [0, 0])])) = some 0x101 := by decide +kernel

theorem test_fxfromd :
    xOf 1 (after (.fxfromd 1 6 2 0xBFE0000000000000) base) =
      some [0, 0x80000000, 0xFFFFFFFF, 0xFFFFFFFF, 0xFFFFFFFF, 0xFFFFFFFF] ∧
    xOf 1 (after (.fxfromd 1 2 1 0x3FB999999999999A) base) = some [0x19999999, 0] := by decide +kernel

/-- V250 (−2^−65 is zero at F = 2), V244, and an infinity: no value is known, the command completes OK and counts a draw. -/
theorem test_fxfromd_small_and_infinite :
    xOf 1 (after (.fxfromd 1 6 2 0xBBE0000000000000) base) = some [0, 0, 0, 0, 0, 0] ∧
    xOf 1 (after (.fxfromd 1 8 4 1) base) = some [0, 0, 0, 0, 0, 0, 0, 0] ∧
    (after (.fxfromd 1 6 2 0x7FF0000000000000) base).map State.draws = some 1 ∧
    stOf (after (.fxfromd 1 6 2 0x7FF0000000000000) failed) = some 0x100 := by decide +kernel

theorem test_fxtod :
    resOf (after (.fxtod 1 2) (regs base [(1, [0, 0x20000000, 0x3E8, 0, 0, 0])])) = some 0x408F410000000000 ∧
    resOf (after (.fxtod 1 1) (regs base [(1, [0xFFFFFFFF, 0xFFFFFFFF, 0xFFFFFFFF, 0x7FFFFFFF])])) =
      some 0x45DFFFFFFFFFFFFF := by decide +kernel

theorem test_fxtod_small_and_negative :
    resOf (after (.fxtod 1 1) (regs base [(1, [1, 0])])) = some 0x3DF0000000000000 ∧
    resOf (after (.fxtod 1 1) (regs base [(1, [0, 0x80000000])])) = some 0xC1E0000000000000 := by decide +kernel

theorem test_fxtodec :
    textOf (after (.fxtodec 1 2) (regs base [(1, [0, 0x80000000, 0xFFFFFFFF, 0xFFFFFFFF, 0xFFFFFFFF, 0xFFFFFFFF])])) =
      some (str "-0.5") ∧
    textOf (after (.fxtodec 1 1) (regs base [(1, [1, 0])])) = some (str "0.00000000023283064365386962890625") := by
  decide +kernel

theorem test_fxtodec_whole :
    textOf (after (.fxtodec 1 2) (regs base [(1, [0, 0x20000000, 0x3E8, 0, 0, 0])])) = some (str "1000.125") ∧
    textOf (after (.fxtodec 1 1) (regs base [(1, [0, 0x80000000])])) = some (str "-2147483648.0") := by decide +kernel

theorem test_fxfromdec :
    xOf 1 (after (.fxfromdec 1 2 1) (base.setText (str "-0.1"))) = some [0xE6666667, 0xFFFFFFFF] ∧
    xOf 1 (after (.fxfromdec 1 6 2) (base.setText (str "1000"))) = some [0, 0, 0x3E8, 0, 0, 0] := by decide +kernel

theorem test_fxfromdec_errors :
    stOf (after (.fxfromdec 1 6 2) (base.setText (str "1.2.3"))) = some 0x102 ∧
    stOf (after (.fxfromdec 1 6 2) (base.setText (str "-.5"))) = some 0x104 ∧
    stOf (after (.fxfromdec 1 6 2) (base.setText (str "12."))) = some 0x104 ∧
    stOf (after (.fxfromdec 1 1 1) (base.setText (str "1.0"))) = some 0x115 := by decide +kernel

/-! ### Witnesses: for each statement with hypotheses, a state and operands that meet them together, clause by clause -/

theorem next_of {i : Instr} {s : State} (P : State → Prop) [DecidablePred P]
    (h : (match exec i s with | .next t => decide (P t) | _ => false) = true) : ∃ t, exec i s = .next t ∧ P t := by
  cases hx : exec i s with
  | next t => exact ⟨t, rfl, by simpa [hx] using h⟩
  | fault f => cases f
  | refused r => simp [hx] at h

theorem stepNext_of {s : State} (P : State → Prop) [DecidablePred P]
    (h : (match step s with | .next t => decide (P t) | _ => false) = true) : ∃ t, step s = .next t ∧ P t := by
  cases hx : step s with
  | next t => exact ⟨t, rfl, by simpa [hx] using h⟩
  | fault f => cases f
  | refused r => simp [hx] at h

/-- A state with a string, x1 = −2 and x2 = 3 at two words, RES and STATUS written. -/
def live : State :=
  { regs (base.setText (str "-1.5")) [(1, [0xFFFFFFFE, 0xFFFFFFFF]), (2, [3, 0])] with res := 7, status := 0x101 }

theorem live_pair : live.HoldsPair 1 2 [0xFFFFFFFE, 0xFFFFFFFF] [3, 0] := ⟨by decide, by decide, by decide⟩

theorem witness_DecodeOfEncode : (Instr.fxfromdec 7 255 255).wellFormed = true ∧ (Instr.sbget 65535).wellFormed = true := by
  decide

theorem witness_EncodeOfDecode : decode [0xECC0FFFF, 9] = .ok (.fxfromdec 3 255 255, [9]) := by decide

/-- A legal and an illegal LDI32 (V19, V305), with the header not yet and already received. -/
theorem witness_LegalSpellingIsMaskMatch :
    ∃ r : OpRow, opRow (Header.ofWord 0x20400001).op = some r ∧ opRow (Header.ofWord 0x20480001).op = some r ∧
      [(0x10000041 : Word)].length = r.ext ∧ unusedZero r (Header.ofWord 0x20400001) = true ∧
      unusedZero r (Header.ofWord 0x20480001) = false ∧
      (base.rx = ((0x20480001 : Word) :: [0x10000041]).take 0 ∧
        ({ base with port := [.word 0x20480001, .word 0x10000041, .rst] } : State).port =
          (((0x20480001 : Word) :: [0x10000041]).drop 0).map .word ++ [.rst]) ∧
      (1 ≤ [(0x10000041 : Word)].length ∧
        ({ base with rx := [0x20480001], port := [.word 0x10000041] } : State).rx =
          ((0x20480001 : Word) :: [0x10000041]).take 1 ∧
        ({ base with rx := [0x20480001], port := [.word 0x10000041] } : State).port =
          (((0x20480001 : Word) :: [0x10000041]).drop 1).map .word ++ []) :=
  ⟨⟨"LDI32", 0x08, true, true, false, false, .lo, 1, 0xFC3FFF00⟩, by decide, by decide, by decide, by decide, by decide,
    by decide, by decide⟩

/-- The lowest and the highest undefined opcode. -/
theorem witness_UndefinedOpcodeIsOneIllegalWord :
    (Header.ofWord 0x1C000000).op ∈ undefinedOpcodes ∧ (Header.ofWord 0xFFFFFFFF).op ∈ undefinedOpcodes ∧
    ({ base with port := [.word 0xFFFFFFFF, .rst] } : State).rx = [] := by decide

/-- A clause of each shape: LDI32, SETW; LDI64, FXFROMD; one word. -/
theorem witness_LengthAndExtensionWords :
    decode (0x20400001 :: [5, 6]) = .ok (.ldi32 false 1 1 5, [6]) ∧
    decode (0x30400002 :: [5, 6]) = .ok (.setw 1 2 5, [6]) ∧
    decode (0x24400004 :: [5, 6, 7]) = .ok (.ldi64 false 1 4 0x0000000600000005, [7]) ∧
    decode (0xE0400206 :: [5, 6, 7]) = .ok (.fxfromd 1 6 2 0x0000000600000005, [7]) ∧
    decode (0x40CA0000 :: [5]) = .ok (.add 3 1 2, [5]) := by decide

/-- With no word received before, and with all words but the last. -/
theorem witness_StepRunsDecodedCommand :
    decode [0x24400004, 1, 2] = .ok (.ldi64 false 1 4 0x0000000200000001, []) ∧
    (0 < [(0x24400004 : Word), 1, 2].length ∧ base.rx = [(0x24400004 : Word), 1, 2].take 0 ∧
      ({ base with port := [.word 0x24400004, .word 1, .word 2, .rst] } : State).port =
        ([(0x24400004 : Word), 1, 2].drop 0).map .word ++ [.rst]) ∧
    (2 < [(0x24400004 : Word), 1, 2].length ∧
      ({ base with rx := [0x24400004, 1], port := [.word 2] } : State).rx = [(0x24400004 : Word), 1, 2].take 2 ∧
      ({ base with rx := [0x24400004, 1], port := [.word 2] } : State).port =
        ([(0x24400004 : Word), 1, 2].drop 2).map .word ++ []) := by decide

/-- No word at all, and two words of three. -/
theorem witness_IncompleteCommandWaits :
    (notYetWhole (base.rx ++ []) ∧ base.port = ([] : List Word).map .word) ∧
    (notYetWhole (({ base with rx := [0x24400004], port := [.word 1] } : State).rx ++ [1]) ∧
      ({ base with rx := [0x24400004], port := [.word 1] } : State).port = [(1 : Word)].map .word) :=
  ⟨⟨.inl rfl, rfl⟩, ⟨.inr ⟨0x24400004, [1], by decide, by decide⟩, by decide⟩⟩

theorem witness_ResetForgetsPartialCommand :
    notYetWhole (({ live with rx := [0x24400004], port := [.word 1, .rst, .word 0] } : State).rx ++ [1]) ∧
    ({ live with rx := [0x24400004], port := [.word 1, .rst, .word 0] } : State).port =
      [(1 : Word)].map .word ++ .rst :: [.word 0] :=
  ⟨.inr ⟨0x24400004, [1], by decide, by decide⟩, by decide⟩

/-- A step that takes a command, one that takes a reset and one that waits. -/
theorem witness_OneResponsePerCommand :
    (∃ t, step { live with port := [.word 0x08000000] } = .next t ∧
      receive live.rx [.word 0x08000000] = .command [0x08000000] []) ∧
    (∃ t, step { live with port := [.rst] } = .next t ∧ receive live.rx [.rst] = .reset []) ∧
    (∃ t, step { live with port := [.word 0x20400001] } = .next t ∧
      receive live.rx [.word 0x20400001] = .waiting [0x20400001]) :=
  ⟨stepNext_of _ (by decide), stepNext_of _ (by decide), stepNext_of _ (by decide)⟩

/-- A destination that is no other register, and two states that differ in a register the command does not name. -/
theorem witness_OnlyNamedRegisters :
    (∃ t, exec (.mov 3 1) live = .next t ∧ (Instr.mov 3 1).dest ≠ some 5 ∧ (Instr.mov 3 1).dest = some 3 ∧
      statusLast t.status = okCode) ∧
    live.writeX 5 [9] = { live with x := (live.writeX 5 [9]).x } ∧
    (∀ r ∈ (Instr.mov 3 1).sources, live.x[r] = (live.writeX 5 [9]).x[r]) ∧ live.x[(5 : Reg)] ≠ (live.writeX 5 [9]).x[(5 : Reg)] :=
  ⟨next_of _ (by decide), by decide, by decide, by decide⟩

/-- A command of each clause: none writes what the clause names. -/
theorem witness_FrameOfEveryCommand :
    ∃ t, exec (.add 3 1 2) live = .next t ∧ (Instr.add 3 1 2).writesRes = false ∧ (Instr.add 3 1 2).writesSlen = false ∧
      (Instr.add 3 1 2).writesSb = false ∧ (Instr.add 3 1 2).mayDraw = false ∧ Instr.add 3 1 2 ≠ .clrst :=
  next_of _ (by decide)

theorem witness_StoredBytes :
    live.sb.wf = true ∧ (∃ t, exec (.sbput 0x30) live = .next t ∧ (0 : Nat) ≠ live.slen.toNat) ∧
    (live.Holds 1 [0xFFFFFFFE, 0xFFFFFFFF] ∧
      ∃ t, exec (.todec true 1) live = .next t ∧ (decText true [0xFFFFFFFE, 0xFFFFFFFF]).length ≤ 2) ∧
    (live.Holds 2 [3, 0] ∧ ∃ t, exec (.tohex 2) live = .next t ∧ (hexText [3, 0]).length ≤ 16) ∧
    (live.Holds 1 [0xFFFFFFFE, 0xFFFFFFFF] ∧ ∃ t, exec (.fxtodec 1 1) live = .next t ∧ (fxText 1 [3, 0]).length ≤ 34) :=
  ⟨by decide, next_of _ (by decide), ⟨by decide, next_of _ (by decide +kernel)⟩, ⟨by decide, next_of _ (by decide +kernel)⟩,
    ⟨by decide, next_of _ (by decide +kernel)⟩⟩

/-- One source of two invalid, and a command with a width field in range. -/
theorem witness_InvalidSourceFails :
    ((4 : Reg) ∈ (Instr.add 3 1 4).sources ∧ live.x[(4 : Reg)].valid = false ∧ (Instr.add 3 1 4).widthField = none) ∧
    ((4 : Reg) ∈ (Instr.cast true 3 4 16).sources ∧ (Instr.cast true 3 4 16).widthField = some 16 ∧ 16 ≤ live.cfg.nmax) := by
  decide

/-- 0, and one more than NMAX. -/
theorem witness_WidthFieldOutOfRangeFails :
    ((Instr.fromdec 3 0).widthField = some 0) ∧ (Instr.fxfromd 3 17 1 0).widthField = some 17 ∧ live.cfg.nmax < 17 := by decide

theorem witness_WidthMismatchFails :
    (Instr.fxdiv 3 1 4 0).sources = [1, 4] ∧ (live.writeX 4 [0]).Holds 1 [0xFFFFFFFE, 0xFFFFFFFF] ∧
    (live.writeX 4 [0]).Holds 4 [0] ∧ [(0xFFFFFFFE : Word), 0xFFFFFFFF].length ≠ [(0 : Word)].length := by decide

/-- F = 0 with a divisor of zero, F = n, and a command with a width field and no source. -/
theorem witness_FractionOutOfRangeFails :
    ((Instr.fxdiv 3 1 2 0).fractionField = some 0 ∧
      ∀ r ∈ (Instr.fxdiv 3 1 2 0).sources, ∃ a, live.Holds r a ∧ a.length = 2) ∧
    ((Instr.fxtod 1 2).fractionField = some 2 ∧ ∀ r ∈ (Instr.fxtod 1 2).sources, ∃ a, live.Holds r a ∧ a.length = 2) ∧
    ((Instr.fxfromdec 3 6 6).fractionField = some 6 ∧ (Instr.fxfromdec 3 6 6).widthField = some 6 ∧ 6 ≤ live.cfg.nmax ∧
      (Instr.fxfromdec 3 6 6).sources = []) := by
  have h1 : ∃ a, live.Holds 1 a ∧ a.length = 2 := ⟨[0xFFFFFFFE, 0xFFFFFFFF], by decide, by decide⟩
  have h2 : ∃ a, live.Holds 2 a ∧ a.length = 2 := ⟨[3, 0], by decide, by decide⟩
  refine ⟨⟨rfl, ?_⟩, ⟨rfl, ?_⟩, by decide⟩
  · intro r hr
    simp only [Instr.sources, List.mem_cons, List.not_mem_nil, or_false] at hr
    rcases hr with rfl | rfl
    · exact h1
    · exact h2
  · intro r hr
    simp only [Instr.sources, List.mem_cons, List.not_mem_nil, or_false] at hr
    exact hr ▸ h1

/-- The three bounds: n words, 32·n bits, SLEN characters; and V4's state, reset with no register valid, where SBGET 0 is out. -/
theorem witness_IndexOutOfRangeFails :
    live.Holds 1 [0xFFFFFFFE, 0xFFFFFFFF] ∧ [(0xFFFFFFFE : Word), 0xFFFFFFFF].length ≤ 2 ∧
    32 * [(0xFFFFFFFE : Word), 0xFFFFFFFF].length ≤ 64 ∧ live.slen.toNat ≤ 4 ∧
    ((∀ r : Reg, State.reset.x[r].valid = false) ∧ State.reset.slen.toNat ≤ 0) := by decide

theorem witness_ZeroDivisorFails :
    (live.writeX 2 [0, 0]).HoldsPair 1 2 [0xFFFFFFFE, 0xFFFFFFFF] [0, 0] ∧ uval [0, 0] = 0 ∧
    1 < [(0xFFFFFFFE : Word), 0xFFFFFFFF].length ∧ (∃ t, exec (.div10 3 1) live = .next t ∧ True) ∧
    ∃ t, exec (.div10 3 1) (small 1) = .next t ∧ (small 1).x[(1 : Reg)].valid = false :=
  ⟨⟨by decide, by decide, by decide⟩, by decide, by decide, next_of _ (by decide +kernel), next_of _ (by decide +kernel)⟩

/-- A buffer of one byte, full; the renderers' texts are longer. -/
theorem witness_TextTooLongFails :
    ((small 1).setText (str "a")).slen.toNat = (small 1).cfg.sbsize ∧
    (regs (small 1) [(1, [0xFFFFFFFE, 0xFFFFFFFF])]).Holds 1 [0xFFFFFFFE, 0xFFFFFFFF] ∧
    (small 1).cfg.sbsize < (decText true [0xFFFFFFFE, 0xFFFFFFFF]).length ∧ (small 1).cfg.sbsize < 8 * 2 ∧
    (small 1).cfg.sbsize < (fxText 1 [0xFFFFFFFE, 0xFFFFFFFF]).length := by decide +kernel

/-- A buffer with one byte free, and the last character of the string. -/
theorem witness_StringBufferCharacters :
    ((small 5).setText (str "-1.5")).cfg.wf = true ∧ ((small 5).setText (str "-1.5")).sb.wf = true ∧
    ((small 5).setText (str "-1.5")).slen.toNat < (small 5).cfg.sbsize ∧
    ((small 5).setText (str "-1.5")).text[3]? = some 0x35 := by decide

theorem witness_NativeIntegers : 1 ≤ 1 ∧ 16 ≤ live.cfg.nmax := by decide

theorem witness_CopyAndWordAccess :
    live.Holds 1 [0xFFFFFFFE, 0xFFFFFFFF] ∧ [(0xFFFFFFFE : Word), 0xFFFFFFFF][1]? = some 0xFFFFFFFF := by decide

theorem witness_AddSubNegValues : live.HoldsPair 1 2 [0xFFFFFFFE, 0xFFFFFFFF] [3, 0] := live_pair

theorem witness_BitwiseValues : live.HoldsPair 1 2 [0xFFFFFFFE, 0xFFFFFFFF] [3, 0] := live_pair

theorem witness_MultiplyValue : live.HoldsPair 1 1 [0xFFFFFFFE, 0xFFFFFFFF] [0xFFFFFFFE, 0xFFFFFFFF] :=
  ⟨by decide, by decide, by decide⟩

theorem witness_DivideValues : live.HoldsPair 1 2 [0xFFFFFFFE, 0xFFFFFFFF] [3, 0] ∧ uval [3, 0] ≠ 0 := ⟨live_pair, by decide⟩

theorem witness_TimesTenAndDivideByTen : live.Holds 1 [0xFFFFFFFE, 0xFFFFFFFF] := by decide

/-- The most negative dividend and −1. -/
theorem witness_DivisionLaws :
    [(0 : Word), 0x80000000].length = [(0xFFFFFFFF : Word), 0xFFFFFFFF].length ∧ uval [0xFFFFFFFF, 0xFFFFFFFF] ≠ 0 := by decide

theorem witness_ShiftValues : live.Holds 1 [0xFFFFFFFE, 0xFFFFFFFF] := by decide

theorem witness_ShiftRightThenLeft :
    63 < 32 * [(0xFFFFFFFE : Word), 0xFFFFFFFF].length ∧ 32 * [(0xFFFFFFFE : Word), 0xFFFFFFFF].length ≤ 64 ∧
    uval [0x76543000, 0xFEDCBA98] % 2 ^ 12 = 0 := by decide +kernel

theorem witness_CompareValues : live.HoldsPair 1 2 [0xFFFFFFFE, 0xFFFFFFFF] [3, 0] := live_pair

theorem witness_CastValue : live.Holds 1 [0xFFFFFFFE, 0xFFFFFFFF] ∧ 1 ≤ 1 ∧ 16 ≤ live.cfg.nmax := by decide

theorem witness_BitAccess :
    live.Holds 1 [0xFFFFFFFE, 0xFFFFFFFF] ∧ 63 < 32 * [(0xFFFFFFFE : Word), 0xFFFFFFFF].length := by decide

/-- Zero; and the highest bit 32·n − 1. -/
theorem witness_HighestBitIndex :
    (live.writeX 3 [0, 0]).Holds 3 [0, 0] ∧ uval [0, 0] = 0 ∧ live.Holds 1 [0xFFFFFFFE, 0xFFFFFFFF] ∧
    2 ^ 63 ≤ uval [0xFFFFFFFE, 0xFFFFFFFF] ∧ uval [0xFFFFFFFE, 0xFFFFFFFF] < 2 ^ (63 + 1) := by decide +kernel

theorem witness_DecimalText :
    live.Holds 1 [0xFFFFFFFE, 0xFFFFFFFF] ∧
    str "-2" = (if true = true ∧ sval [0xFFFFFFFE, 0xFFFFFFFF] < 0 then [0x2D] else []) ++
      asciiOf (Nat.toDigits 10 (if true then (sval [0xFFFFFFFE, 0xFFFFFFFF]).natAbs else uval [0xFFFFFFFE, 0xFFFFFFFF])) ∧
    (str "-2").length ≤ live.cfg.sbsize := by decide +kernel

theorem witness_HexText :
    live.Holds 1 [0xFFFFFFFE, 0xFFFFFFFF] ∧ (str "fffffffffffffffe").length = 8 * [(0xFFFFFFFE : Word), 0xFFFFFFFF].length ∧
    (∀ k : Nat, k < 16 → (str "fffffffffffffffe")[k]? =
      (asciiOf "0123456789abcdef".toList)[uval [0xFFFFFFFE, 0xFFFFFFFF] / 16 ^ (16 - 1 - k) % 16]?) ∧
    8 * [(0xFFFFFFFE : Word), 0xFFFFFFFF].length ≤ live.cfg.sbsize := by decide +kernel

/-- A text that fills the buffer, shorter than the one it replaces. -/
theorem witness_TextIsStored :
    ((small 4).setText (str "abcd")).cfg.wf = true ∧ ((small 4).setText (str "abcd")).sb.wf = true ∧
    (str "wxyz").length ≤ (small 4).cfg.sbsize := by decide

/-- The three clauses: "-", "-1.5" and "-15". -/
theorem witness_DecimalParse :
    16 ≤ live.cfg.nmax ∧ (base.setText (str "-")).text = [0x2D] ++ [] ∧
    (live.text = [0x2D] ++ str "1.5" ∧ ∃ c ∈ str "1.5", ¬ isDecDigit c) ∧
    ((base.setText (str "-15")).text = [0x2D] ++ str "15" ∧ str "15" ≠ [] ∧ ∀ c ∈ str "15", isDecDigit c) ∧
    ((base.setText (str "15")).text = [] ++ str "15" ∧ (str "15").head? ≠ some 0x2D) := by decide

/-- No prefix; no digit; a bad digit; digits; and with HEX_UPPER_IN an upper-case prefix and digits. -/
theorem witness_HexParse :
    ((base.setText (str "-12")).text = [0x2D] ++ str "12" ∧
      ¬ ∃ ds, str "12" = 0x30 :: 0x78 :: ds ∨ (base.cfg.hexUpperIn = true ∧ str "12" = 0x30 :: 0x58 :: ds)) ∧
    ((base.setText (str "0x")).text = [] ++ str "0x" ∧ str "0x" = 0x30 :: 0x78 :: [] ∧ (str "0x").head? ≠ some 0x2D) ∧
    (str "0xA" = 0x30 :: 0x78 :: str "A" ∧ ∃ c ∈ str "A", ¬ isHexDigit base.cfg.hexUpperIn c) ∧
    (str "0x9f" = 0x30 :: 0x78 :: str "9f" ∧ str "9f" ≠ [] ∧ ∀ c ∈ str "9f", isHexDigit base.cfg.hexUpperIn c) ∧
    ((cfg true).hexUpperIn = true ∧ str "0XaF" = 0x30 :: 0x58 :: str "aF" ∧ ∀ c ∈ str "aF", isHexDigit true c) := by
  refine ⟨⟨by decide, ?_⟩, by decide, by decide, by decide, by decide⟩
  rintro ⟨ds, h | ⟨h, -⟩⟩
  · have h2 : (str "12")[0]? = some 0x30 := by rw [h]; rfl
    exact absurd h2 (by decide)
  · exact absurd h (by decide)

theorem witness_TextRoundTrips :
    live.cfg.wf = true ∧ live.sb.wf = true ∧ live.Holds 1 [0xFFFFFFFE, 0xFFFFFFFF] ∧
    (∃ t, exec (.todec true 1) live = .next t ∧ statusLast t.status = okCode) ∧
    ∃ t, exec (.tohex 1) live = .next t ∧ (statusLast t.status = okCode ∧
      (base.setText (str "0xfffffffffffffffe")).cfg = t.cfg ∧
      (base.setText (str "0xfffffffffffffffe")).text = [0x30, 0x78] ++ t.text) :=
  ⟨by decide, by decide, by decide, next_of _ (by decide +kernel), next_of _ (by decide +kernel)⟩

theorem witness_RenderedLengths :
    1 ≤ (List.replicate 16 (0xFFFFFFFF : Word)).length ∧ (List.replicate 16 (0xFFFFFFFF : Word)).length ≤ 16 ∧
    15 < (List.replicate 16 (0xFFFFFFFF : Word)).length := by decide

theorem witness_FixedFromIntegerAddSub :
    live.HoldsPair 1 2 [0xFFFFFFFE, 0xFFFFFFFF] [3, 0] ∧ 1 < [(0xFFFFFFFE : Word), 0xFFFFFFFF].length := ⟨live_pair, by decide⟩

theorem witness_FixedMultiply :
    live.HoldsPair 1 2 [0xFFFFFFFE, 0xFFFFFFFF] [3, 0] ∧ 1 < [(0xFFFFFFFE : Word), 0xFFFFFFFF].length := ⟨live_pair, by decide⟩

theorem witness_FixedDivide :
    live.HoldsPair 1 2 [0xFFFFFFFE, 0xFFFFFFFF] [3, 0] ∧ 1 < [(0xFFFFFFFE : Word), 0xFFFFFFFF].length ∧ uval [3, 0] ≠ 0 :=
  ⟨live_pair, by decide, by decide⟩

/-- Exponent fields 0, 1, 2046 and 2047. -/
theorem witness_FixedFromDouble :
    16 ≤ live.cfg.nmax ∧ dexp 0x800FFFFFFFFFFFFF = 0 ∧ dexp 0x0010000000000000 = 1 ∧ dexp 0xFFEFFFFFFFFFFFFF = 2046 ∧
    dexp 0x7FF8000000000000 = 2047 := by decide +kernel

/-- Zero; exponents 1 and 0 (F = 32), 2046 and 2047 (34 words). -/
theorem witness_FixedToDouble :
    (live.writeX 3 [0, 0]).Holds 3 [0, 0] ∧ uval [0, 0] = 0 ∧
    ((live.writeX 3 (4 :: List.replicate 32 0)).Holds 3 (4 :: List.replicate 32 0) ∧
      2 ^ 2 ≤ (sval (4 :: List.replicate 32 0)).natAbs ∧ (sval (4 :: List.replicate 32 0)).natAbs < 2 ^ 3 ∧
      32 * 32 + 1 ≤ 2 + 1023 ∧ 2 + 1023 ≤ 32 * 32 + 2046) ∧
    (2 ^ 1 ≤ (sval (2 :: List.replicate 32 0)).natAbs ∧ (sval (2 :: List.replicate 32 0)).natAbs < 2 ^ 2 ∧
      1 + 1023 < 32 * 32 + 1) ∧
    (2 ^ 1055 ≤ (sval (List.replicate 32 0 ++ [0x80000000, 0])).natAbs ∧
      (sval (List.replicate 32 0 ++ [0x80000000, 0])).natAbs < 2 ^ 1056 ∧ 1055 + 1023 ≤ 32 * 1 + 2046) ∧
    (2 ^ 1056 ≤ (sval (List.replicate 33 0 ++ [1])).natAbs ∧ (sval (List.replicate 33 0 ++ [1])).natAbs < 2 ^ 1057 ∧
      32 * 1 + 2046 < 1056 + 1023) := by decide +kernel

/-- W = F = 1; and exponent 0 at n = 33, F = 32. -/
theorem witness_ExponentRange :
    ([(0xFFFFFFFE : Word), 0xFFFFFFFF].length = 1 + 1 ∧ 2 ^ 1 ≤ (sval [0xFFFFFFFE, 0xFFFFFFFF]).natAbs ∧
      (sval [0xFFFFFFFE, 0xFFFFFFFF]).natAbs < 2 ^ 2) ∧
    ((live.writeX 3 (2 :: List.replicate 32 0)).Holds 3 (2 :: List.replicate 32 0) ∧
      2 ^ 1 ≤ (sval (2 :: List.replicate 32 0)).natAbs ∧ (sval (2 :: List.replicate 32 0)).natAbs < 2 ^ 2 ∧
      32 < (2 :: List.replicate 32 (0 : Word)).length ∧ fxExponent 32 1 < 1) := by decide +kernel

/-- −1000.125, the subnormal of scenario 6, and the least normal double at F = 32, NMAX = 33. -/
theorem witness_DoubleRoundTrip :
    (dexp 0xC08F410000000000 ≠ 2047 ∧ |doubleValue 0xC08F410000000000| < 2 ^ (32 * (6 - 2) - 1) ∧
      ∃ t, exec (.fxfromd 1 6 2 0xC08F410000000000) live = .next t ∧ 6 ≤ live.cfg.nmax) ∧
    (dexp 0x0000000000000001 ≠ 2047 ∧ |doubleValue 0x0000000000000001| < 2 ^ (32 * (2 - 1) - 1) ∧
      ∃ t, exec (.fxfromd 1 2 1 0x0000000000000001) live = .next t ∧ 2 ≤ live.cfg.nmax) ∧
    (dexp 0x0010000000000000 ≠ 2047 ∧ dexp 0x0010000000000000 ≠ 0 ∧
      |doubleValue 0x0010000000000000| < 2 ^ (32 * (33 - 32) - 1) ∧
      ∃ t, exec (.fxfromd 1 33 32 0x0010000000000000)
        (State.resetWith { nmax := 33, sbsize := 1024, hexUpperIn := false }) = .next t ∧
        33 ≤ (State.resetWith { nmax := 33, sbsize := 1024, hexUpperIn := false }).cfg.nmax) :=
  ⟨⟨by decide +kernel, by decide +kernel, next_of _ (by decide +kernel)⟩,
    ⟨by decide +kernel, by decide +kernel, next_of _ (by decide +kernel)⟩,
    ⟨by decide +kernel, by decide +kernel, by decide +kernel, next_of _ (by decide +kernel)⟩⟩

/-- x1 at F = 1 is −2 · 2^−32 (V268 doubled); its text has 34 characters and a sign. -/
theorem witness_FixedText :
    live.Holds 1 [0xFFFFFFFE, 0xFFFFFFFF] ∧ 1 < [(0xFFFFFFFE : Word), 0xFFFFFFFF].length ∧
    str "-0.0000000004656612873077392578125" = (if sval [0xFFFFFFFE, 0xFFFFFFFF] < 0 then [0x2D] else []) ++
      asciiOf (Nat.toDigits 10 ((sval [0xFFFFFFFE, 0xFFFFFFFF]).natAbs / 2 ^ (32 * 1))) ++ [0x2E] ++
      str "0000000004656612873077392578125" ∧
    (str "-0.0000000004656612873077392578125").length ≤ live.cfg.sbsize := by decide +kernel

/-- A bad character in the integer part; no integer part; nothing after the point; a second point; with and without a
fraction. -/
theorem witness_FixedParse :
    6 ≤ live.cfg.nmax ∧
    ((base.setText (str "1e5")).text = [] ++ str "1e5" ++ ((none : Option (List Byte)).map (fun ds => 0x2E :: ds)).getD [] ∧
      0x2E ∉ str "1e5" ∧ (str "1e5").head? ≠ some 0x2D ∧ ∃ c ∈ str "1e5", ¬ isDecDigit c) ∧
    (base.setText (str "-.5")).text = [0x2D] ++ [] ++ ((some (str "5")).map (fun ds => 0x2E :: ds)).getD [] ∧
    (base.setText (str "12.")).text = [] ++ str "12" ++ ((some []).map (fun ds => 0x2E :: ds)).getD [] ∧
    ((base.setText (str "1.2.3")).text = [] ++ str "1" ++ ((some (str "2.3")).map (fun ds => 0x2E :: ds)).getD [] ∧
      ∃ c ∈ str "2.3", ¬ isDecDigit c) ∧
    (live.text = [0x2D] ++ str "1" ++ ((some (str "5")).map (fun ds => 0x2E :: ds)).getD [] ∧
      (∀ c ∈ str "1", isDecDigit c) ∧ ∀ c ∈ str "5", isDecDigit c) ∧
    ((base.setText (str "7")).text = [] ++ str "7" ++ ((none : Option (List Byte)).map (fun ds => 0x2E :: ds)).getD [] ∧
      str "7" ≠ [] ∧ (none : Option (List Byte)) ≠ some []) := by decide

theorem witness_FixedTextRoundTrip :
    live.cfg.wf = true ∧ live.sb.wf = true ∧ live.Holds 1 [0xFFFFFFFE, 0xFFFFFFFF] ∧
    [(0xFFFFFFFE : Word), 0xFFFFFFFF].length ≤ live.cfg.nmax ∧
    ∃ t, exec (.fxtodec 1 1) live = .next t ∧ statusLast t.status = okCode :=
  ⟨by decide, by decide, by decide, by decide, next_of _ (by decide +kernel)⟩

theorem witness_ResetSatisfiesInvariant :
    ({ nmax := 2, sbsize := 1, hexUpperIn := false } : Config).wf = true ∧
    ({ nmax := 255, sbsize := 65535, hexUpperIn := true } : Config).wf = true := by decide

/-- A state with values, text, a failure on record and a command waiting on the port. -/
theorem witness_StepKeepsInvariant :
    ({ live with port := [.word 0x40CA0000] } : State).Inv ∧
    ∃ t, step { live with port := [.word 0x40CA0000] } = .next t ∧ t.x[(3 : Reg)].w = [1, 0] :=
  ⟨⟨by decide, by decide, by decide, by decide, by decide, by decide, by decide, by decide, by decide, by decide⟩,
    stepNext_of _ (by decide)⟩

/-- Reset, a command sent, and its step. -/
theorem witness_ReachableStatesAreSafe : ∃ t, Reachable t ∧ t.slen = 1 := by
  have h : Reachable { base with port := base.port ++ [.word 0x1000002D] } := .send _ _ (.reset _ (by decide))
  obtain ⟨t, ht, hs⟩ := stepNext_of (s := { base with port := base.port ++ [.word 0x1000002D] }) (fun t => t.slen = 1)
    (by decide)
  exact ⟨t, .step _ t h ht, hs⟩

/-- Two states that differ in an invalid register's words and in a byte beyond SLEN. -/
def shadow : State := { live with x := live.x.set 5 { valid := false, w := [1, 2, 3] }, sb := live.sb.write 9 0x41 }

theorem witness_UnobservableStateNeverShows : live.ObsEq shadow ∧ live ≠ shadow :=
  ⟨⟨by decide, by decide, by decide, by decide, by decide, by decide, by decide, by decide, by decide, by decide, by decide,
    by decide⟩, by decide⟩

end Sys2Proof.Tests
end

/-!
# Wide registers: the state after reset, invalid sources, and the registers a command reads and writes (R23, R25, R37)

The one idea: a command looks at the wide registers only by reading its sources, right after the check of its width field (R177),
and what follows works from the values read. `Sourced` says this of an effect, and `exec_sourced` says it of every command.
-/

namespace Sys2Proof.Machine

open Sys2Proof

/-! ### Effects that agree but for the wide registers -/

/-- The same failure, or effects that differ in the wide registers alone and agree in the register `d` names. -/
inductive Agree (d : Option Reg) : Except Err State → Except Err State → Prop where
  | error (e : Err) : Agree d (.error e) (.error e)
  | ok (t : State) (x' : Vector WReg 8) (h : ∀ r : Reg, d = some r → x'[r] = t.x[r]) :
      Agree d (.ok t) (.ok { t with x := x' })

/-- After a check or a read with one answer, effects agree if what follows does. -/
theorem Agree.bind {α : Type} {d : Option Reg} {k k' : α → Except Err State} (c : Except Err α)
    (h : ∀ a, Agree d (k a) (k' a)) : Agree d (c >>= k) (c >>= k') := by
  cases c with
  | ok a => exact h a
  | error e => exact .error e

/-- Without a destination nothing is asked of the wide registers. -/
theorem Agree.noDest (t : State) (x' : Vector WReg 8) : Agree none (.ok t) (.ok { t with x := x' }) :=
  .ok t x' nofun

/-- With a destination only that register has to agree. -/
theorem Agree.dest {t : State} {x' : Vector WReg 8} {rd : Reg} (h : x'[rd] = t.x[rd]) :
    Agree (some rd) (.ok t) (.ok { t with x := x' }) :=
  .ok t x' fun _ hr => Option.some.inj hr ▸ h

/-- A written register holds the same whatever the state before held. -/
theorem State.writeX_get_eq (s s' : State) (r : Reg) (v : Wide) : (s'.writeX r v).x[r] = (s.writeX r v).x[r] :=
  (s'.writeX_get_self r v).trans (s.writeX_get_self r v).symm

/-- One value written to one register. -/
theorem Agree.writeX (s : State) (x' : Vector WReg 8) (rd : Reg) (v : Wide) :
    Agree (some rd) (.ok (s.writeX rd v)) (.ok (({ s with x := x' } : State).writeX rd v)) :=
  .dest (s.writeX_get_eq { s with x := x' } rd v)

theorem Agree.putText (s : State) (x' : Vector WReg 8) (text : List Byte) :
    Agree none (putText s text) (putText { s with x := x' } text) :=
  .bind (require (decide (text.length ≤ s.cfg.sbsize)) .stringOverflow) fun _ => .noDest (s.setText text) x'

/-! ### Reading the sources -/

/-- A register read depends on that register alone. -/
theorem readX_congr {s : State} {x' : Vector WReg 8} {r : Reg} (h : s.x[r] = x'[r]) :
    readX { s with x := x' } r = readX s r := by
  unfold readX
  rw [h]

/-- The pair read fails where either source is invalid (R23). -/
theorem readPair_invalid {s : State} {r1 r2 r : Reg} (hr : r ∈ [r1, r2]) (h : s.x[r].valid = false) :
    readPair s r1 r2 = .error .registerInvalid := by
  unfold readPair
  rcases readX_cases s r1 with ⟨h1, e1⟩ | ⟨-, e1⟩ <;> rw [e1]
  · have hne : r ≠ r1 := fun e => absurd (h1.symm.trans (e ▸ h)) (by decide)
    obtain rfl : r = r2 := by simpa [hne] using hr
    rw [readX_invalid h]
    rfl
  · rfl

/-- The pair read depends on its two registers alone. -/
theorem readPair_congr {s : State} {x' : Vector WReg 8} {r1 r2 : Reg} (h : ∀ r ∈ [r1, r2], s.x[r] = x'[r]) :
    readPair { s with x := x' } r1 r2 = readPair s r1 r2 := by
  unfold readPair
  rw [readX_congr (h r1 (by simp)), readX_congr (h r2 (by simp))]

/-- An effect `m` with width field `w` reads the registers `rs` alone: an invalid one of them is RegisterInvalid where the width
field is in range (R23, R177), and no other register has influence on the outcome or on what register `d` receives (R25). -/
structure Sourced (w : Option Nat) (rs : List Reg) (d : Option Reg) (m : State → Except Err State) : Prop where
  invalid : ∀ (s : State) (r : Reg), r ∈ rs → s.x[r].valid = false → (∀ n, w = some n → 1 ≤ n ∧ n ≤ s.cfg.nmax) →
    m s = .error .registerInvalid
  agree : ∀ (s : State) (x' : Vector WReg 8), (∀ r ∈ rs, s.x[r] = x'[r]) → Agree d (m s) (m { s with x := x' })

section

variable {w : Option Nat} {d : Option Reg}

/-- No source. -/
theorem Sourced.noSource {m : State → Except Err State} (h : ∀ s x', Agree d (m s) (m { s with x := x' })) :
    Sourced w [] d m where
  invalid _ _ hr := nomatch hr
  agree s x' _ := h s x'

/-- One source, and an effect that works from its value. -/
theorem Sourced.one {r1 : Reg} {k : Wide → State → Except Err State}
    (h : ∀ a s x', Agree d (k a s) (k a { s with x := x' })) :
    Sourced w [r1] d (fun s => readX s r1 >>= fun a => k a s) where
  invalid s r hr hv _ := by
    obtain rfl := List.mem_singleton.1 hr
    rw [readX_invalid hv]
    rfl
  agree s x' hx := by
    rw [readX_congr (hx r1 (by simp))]
    exact .bind _ fun a => h a s x'

/-- Two sources of one width, and an effect that works from their values. -/
theorem Sourced.pair {r1 r2 : Reg} {k : Wide × Wide → State → Except Err State}
    (h : ∀ p s x', Agree d (k p s) (k p { s with x := x' })) :
    Sourced w [r1, r2] d (fun s => readPair s r1 r2 >>= fun p => k p s) where
  invalid s r hr hv _ := by
    rw [readPair_invalid hr hv]
    rfl
  agree s x' hx := by
    rw [readPair_congr hx]
    exact .bind _ fun p => h p s x'

/-- Two sources of a fixed-point command: F is checked from their width, after they are read. -/
theorem Sourced.fxPair {r1 r2 : Reg} {f : Nat} {k : Wide × Wide → State → Except Err State}
    (h : ∀ p s x', Agree d (k p s) (k p { s with x := x' })) :
    Sourced w [r1, r2] d (fun s => readFxPair s f r1 r2 >>= fun p => k p s) := by
  have hread : (fun s => readFxPair s f r1 r2 >>= fun p => k p s) =
      fun s => readPair s r1 r2 >>= fun p => checkFraction f p.1.length >>= fun _ => k p s := by
    funext s
    simp only [readFxPair, bind_assoc, pure_bind]
  rw [hread]
  exact .pair fun p s x' => .bind _ fun _ => h p s x'

/-- The width field is checked before a source is read (R177 step 3). -/
theorem Sourced.width {rs : List Reg} {n : Nat} {m : State → Except Err State} (h : Sourced none rs d m) :
    Sourced (some n) rs d (fun s => checkWidth s n >>= fun _ => m s) where
  invalid s r hr hv hw := by
    obtain ⟨h1, h2⟩ := hw n rfl
    rw [checkWidth_ok h1 h2]
    exact h.invalid s r hr hv nofun
  agree s x' hx := .bind (checkWidth s n) fun _ => h.agree s x' hx

end

/-- Every command completes from an effect that reads no wide register but the sources it names (R25). -/
theorem exec_sourced (i : Instr) : ∃ m : State → Except Err State,
    (∀ s, exec i s = s.finish (m s)) ∧ Sourced i.widthField i.sources i.dest m := by
  cases i
  case nop => exact ⟨fun s => .ok s, fun _ => rfl, .noSource fun s x' => .noDest s x'⟩
  case clrst => exact ⟨fun s => .ok { s with status := 0 }, fun _ => rfl, .noSource fun _ x' => .noDest _ x'⟩
  case rdst => exact ⟨fun s => .ok (s.setRes (s.status.setWidth 64)), fun _ => rfl, .noSource fun _ x' => .noDest _ x'⟩
  case sbclr => exact ⟨fun s => .ok { s with slen := 0 }, fun _ => rfl, .noSource fun _ x' => .noDest _ x'⟩
  case sblen => exact ⟨fun s => .ok (s.setRes (s.slen.setWidth 64)), fun _ => rfl, .noSource fun _ x' => .noDest _ x'⟩
  all_goals refine ⟨_, fun _ => rfl, ?_⟩
  case sbput | sbget => exact .noSource fun _ x' => .bind _ fun _ => .noDest _ x'
  case ldi32 | ldi64 => exact .width (.noSource fun s x' => .writeX s x' _ _)
  case fromdec | fromhex => exact .width (.noSource fun s x' => .bind _ fun _ => .writeX s x' _ _)
  case fxfromdec =>
    exact .width (.noSource fun s x' => .bind _ fun _ => .bind _ fun _ => .writeX s x' _ _)
  case cast => exact .width (.one fun _ s x' => .writeX s x' _ _)
  case mov | neg | not | mul10 | shl | shr => exact .one fun _ s x' => .writeX s x' _ _
  case setw | setbit | fxfromi => exact .one fun _ s x' => .bind _ fun _ => .writeX s x' _ _
  case idxmsb => exact .one fun _ _ x' => .noDest _ x'
  case getw | getbit => exact .one fun _ _ x' => .bind _ fun _ => .noDest _ x'
  case todec | tohex => exact .one fun _ s x' => .putText s x' _
  case fxtodec => exact .one fun _ s x' => .bind _ fun _ => .putText s x' _
  case add | sub | and | or | xor | mul => exact .pair fun _ s x' => .writeX s x' _ _
  case div | mod => exact .pair fun _ s x' => .bind _ fun _ => .writeX s x' _ _
  case cmp | eq | ne => exact .pair fun _ _ x' => .noDest _ x'
  case fxadd | fxsub | fxmul => exact .fxPair fun _ s x' => .writeX s x' _ _
  case fxdiv => exact .fxPair fun _ s x' => .bind _ fun _ => .writeX s x' _ _
  case div10 rd rs1 =>
    exact .one fun a s x' => .dest (s.writeX_get_eq { s with x := x' } rd (div10Words a))
  case fxfromd rd n f imm64 =>
    refine .width (.noSource fun s x' => .bind _ fun _ => ?_)
    cases fxFromDouble n f imm64 with
    | some v => exact .writeX s x' rd v
    | none => exact .dest (s.writeX_get_eq { s with x := x' } rd ((List.range n).map (Config.freeWord s.draws)))
  case fxtod rs1 f =>
    refine .one fun a s x' => .bind _ fun _ => ?_
    cases fxToDouble f a <;> exact .noDest _ x'

/-- A command changes no wide register other than its destination, whichever way it completes. -/
theorem exec_x_frame {i : Instr} {s t : State} (h : exec i s = .next t) {r : Reg} (hr : i.dest ≠ some r) :
    t.x[r] = s.x[r] := by
  rcases exec_cases i s with ⟨u, hu, hc⟩ | ⟨e, he⟩
  · cases hu.symm.trans h
    exact hc.x r hr
  · cases he.symm.trans h
    rfl

/-- Two completions of effects that agree differ in the wide registers alone, and after OK agree in the destination. -/
theorem Agree.finish {d : Option Reg} {s t : State} {x' : Vector WReg 8} {e e' : Except Err State} (h : Agree d e e')
    (ht : s.finish e = .next t) : ∃ t', ({ s with x := x' } : State).finish e' = .next t' ∧ t' = { t with x := t'.x } ∧
      ∀ r : Reg, d = some r → statusLast t.status = okCode → t'.x[r] = t.x[r] := by
  cases h with
  | error e =>
    cases ht
    exact ⟨_, rfl, rfl, fun _ _ hok => absurd ((statusLast_afterErr e s.status).symm.trans hok) e.code_ne_ok⟩
  | ok u y h =>
    cases ht
    exact ⟨_, rfl, rfl, fun r hr _ => h r hr⟩

/-- Settles O14: the write frame is that of `exec_cases`, the independence of the other registers that of `exec_sourced`. -/
theorem onlyNamedRegisters : Obligations.OnlyNamedRegisters := by
  refine ⟨fun i s t ht r hr => exec_x_frame ht hr, fun i s s' t hs hx ht => ?_⟩
  obtain ⟨x', rfl⟩ : ∃ x', s' = { s with x := x' } := ⟨_, hs⟩
  obtain ⟨m, hm, hsrc⟩ := exec_sourced i
  rw [hm] at ht ⊢
  exact (hsrc.agree s x' hx).finish ht

/-- Settles O17: past the width check, every effect reads its sources before it does anything else. -/
theorem invalidSourceFails : Obligations.InvalidSourceFails := by
  intro i s r hr hv hw
  obtain ⟨m, hm, hsrc⟩ := exec_sourced i
  rw [State.FailsWith, hm, hsrc.invalid s r hr hv hw, State.finish_error]

/-- Settles O10, field by field of the reset state. -/
theorem resetState : Obligations.ResetState := by
  have hlast : statusLast 0 = 0x00 := by decide
  have heany : statusEany 0 = false := by decide
  refine ⟨fun c => ⟨rfl, rfl, hlast, heany, rfl, rfl, rfl, fun r => ?_⟩, rfl, rfl, rfl⟩
  simp [State.resetWith, WReg.invalid]

end Sys2Proof.Machine

/-!
# Texts that do not fit the string buffer (R53, R54, R84)

A renderer, past the checks of its source, completes as the store of its text does; so the overflow of the three renderers is the
one fact about that store.
-/

namespace Sys2Proof.Machine

open Sys2Proof

/-! ### The renderers on a valid source -/

/-- TODEC of a valid source stores the decimal text (R140). -/
theorem exec_todec_holds {s : State} {rs1 : Reg} {a : Wide} (sg : Bool) (ha : s.Holds rs1 a) :
    exec (.todec sg rs1) s = s.finish (putText s (decText sg a)) := by
  rw [exec, execTodec, readX_holds ha, except_ok_bind]

/-- TOHEX of a valid source stores the hexadecimal text (R142). -/
theorem exec_tohex_holds {s : State} {rs1 : Reg} {a : Wide} (ha : s.Holds rs1 a) :
    exec (.tohex rs1) s = s.finish (putText s (hexText a)) := by
  rw [exec, execTohex, readX_holds ha, except_ok_bind]

/-- FXTODEC of a valid source with F in range stores the fixed-point text (R149, R165). -/
theorem exec_fxtodec_holds {s : State} {rs1 : Reg} {f : Nat} {a : Wide} (ha : s.Holds rs1 a) (h1 : 1 ≤ f)
    (h2 : f < a.length) : exec (.fxtodec rs1 f) s = s.finish (putText s (fxText f a)) := by
  rw [exec, execFxtodec, readX_holds ha, except_ok_bind, checkFraction_ok h1 h2, except_ok_bind]

/-! ### Overflow -/

/-- The store of a text longer than SBSIZE completes with StringOverflow (R13, R53). -/
theorem finish_putText_overflow {s : State} {text : List Byte} (h : s.cfg.sbsize < text.length) :
    s.finish (putText s text) = .next (s.completeErr .stringOverflow) := by
  rw [putText_error h, State.finish_error]

/-- SBPUT fails from a full buffer on (R84). -/
theorem sbput_full_fails {s : State} (char : Byte) (h : s.cfg.sbsize ≤ s.slen.toNat) :
    s.FailsWith (.sbput char) .stringOverflow := by
  rw [State.FailsWith, exec, execSbput, decide_eq_false (Nat.not_lt.2 h), require_false, except_error_bind,
    State.finish_error]

/-- Settles O23: SBPUT by its capacity check, each renderer as the store of its text. -/
theorem textTooLongFails : Obligations.TextTooLongFails := by
  refine fun s char sg rs1 f a => ⟨fun hfull => sbput_full_fails char hfull.ge, fun ha => ⟨fun hlen => ?dec, fun hlen => ?hex,
    fun h1 h2 hlen => ?fx⟩⟩
  case dec => exact (exec_todec_holds sg ha).trans (finish_putText_overflow hlen)
  case hex => exact (exec_tohex_holds ha).trans (finish_putText_overflow (by rwa [length_hexText]))
  case fx => exact (exec_fxtodec_holds ha h1 h2).trans (finish_putText_overflow hlen)

end Sys2Proof.Machine

/-!
# The encoding of commands (R56, R59, R62, R63, R67)

Two facts carry the statements. Row by row, `buildInstr` reads from the extension words what `extensionOf` writes: so a header with
a defined opcode always spells a command, and the extension words of a decoded command are those of its encoding. And the words of
a whole command are received as that command wherever they stand divided between `rx` and the port.
-/

namespace Sys2Proof.Machine

open Sys2Proof

/-! ### Extension words (R59) -/

/-- What a command with `n` extension words reads from `ext`: nothing, imm32, or imm64 low word first (R59). -/
def extensionRead (n : Nat) (ext : List Word) : List Word :=
  match n with
  | 0 => []
  | 1 => [imm32Of ext]
  | _ => imm64Words (imm64Of ext)

/-- The words read are the extension words themselves, as no command has more than two. -/
theorem extensionRead_length_self {ext : List Word} (h : ext.length ≤ 2) : extensionRead ext.length ext = ext := by
  match ext, h with
  | [], _ => rfl
  | [_], _ => rfl
  | [first, second], _ => exact imm64Words_imm64Of first second

/-- Every row of the opcode map spells a command, with the extension words its row asks for: `buildInstr` and `extensionOf`
computed side by side along the map (R59, R60). -/
theorem buildInstr_row (h : Header) (ext : List Word) : ∀ r ∈ opcodeTable,
    (buildInstr { h with op := r.op } ext).map extensionOf = some (extensionRead r.ext ext) :=
  List.map_inj_left.1 rfl

/-- No row asks for more than two extension words (R59). -/
theorem opcodeTable_ext_le : ∀ r ∈ opcodeTable, r.ext ≤ 2 := by decide

/-- A header with a defined opcode and its extension words spells a command that has these extension words. -/
theorem buildInstr_of_opRow {h : Header} {ext : List Word} {r : OpRow} (hr : opRow h.op = some r)
    (hlen : ext.length = r.ext) : ∃ i, buildInstr h ext = some i ∧ extensionOf i = ext := by
  obtain ⟨hmem, hop⟩ := opRow_some hr
  have hrow := buildInstr_row h ext r hmem
  rw [hop, ← hlen, extensionRead_length_self (hlen ▸ opcodeTable_ext_le r hmem)] at hrow
  exact Option.map_eq_some_iff.1 hrow

/-- The words after the header of a decoded command are its extension words and the rest. -/
theorem decode_cons_extension {h : Word} {words rest : List Word} {i : Instr}
    (hd : decode (h :: words) = .ok (i, rest)) : words = extensionOf i ++ rest := by
  obtain ⟨w, ext, r, hwords, hr, hlen, -, hb⟩ := decode_eq_ok _ _ _ hd
  obtain ⟨rfl, rfl⟩ := List.cons.inj hwords
  obtain ⟨j, hj, hext⟩ := buildInstr_of_opRow hr hlen
  obtain rfl := Option.some.inj (hb.symm.trans hj)
  rw [hext]

/-- The two words of a 64-bit immediate are its low and its high half (R59). -/
theorem imm64Words_eq (k : BitVec 64) :
    ∃ first second : Word, imm64Words k = [first, second] ∧ k.toNat = second.toNat * 2 ^ 32 + first.toNat := by
  refine ⟨_, _, rfl, ?_⟩
  simp only [BitVec.toNat_ofNat]
  omega

/-- The number of extension words of every opcode, defined or not (R59, R63). -/
theorem one_add_extWords : ∀ op < 2 ^ 6,
    1 + extWords op = if op = 0x08 ∨ op = 0x0C then 2 else if op = 0x09 ∨ op = 0x38 then 3 else 1 := by decide

/-- Settles O6: the lengths by the opcode map, the immediates as the extension words of the decoded command. -/
theorem lengthAndExtensionWords : Obligations.LengthAndExtensionWords := by
  refine ⟨fun h => one_add_extWords _ (Header.ofWord_inRange h).1, fun h words rest i hd => ?_⟩
  have hwords := decode_cons_extension hd
  have h64 : ∀ k : BitVec 64, words = imm64Words k ++ rest → ∃ first second : Word,
      words = first :: second :: rest ∧ k.toNat = second.toNat * 2 ^ 32 + first.toNat := by
    intro k hk
    obtain ⟨first, second, he, hv⟩ := imm64Words_eq k
    exact ⟨first, second, by rw [hk, he]; rfl, hv⟩
  cases i
  case ldi64 sg rd n imm64 => exact h64 imm64 hwords
  case fxfromd rd n f imm64 => exact h64 imm64 hwords
  all_goals exact hwords

/-! ### Words on the port (R55, R56) -/

/-- The words of a whole command are received as that command, however many of them had been received before. -/
theorem receive_split {words : List Word} (h : commandComplete words = true) (k : Nat) (port : List PortEvent) :
    receive (words.take k) ((words.drop k).map .word ++ port) = .command words port := by
  have hlen : ∀ w ext, words.take k ++ words.drop k = w :: ext → 1 + ext.length ≤ commandLength w := by
    intro w ext he
    rw [List.take_append_drop] at he
    subst he
    exact (of_decide_eq_true h).le
  rw [receive_words _ _ _ hlen, List.take_append_drop, receive_complete h]

/-- A whole command that does not decode completes with IllegalCommand, its words consumed (R62, R63). -/
theorem step_split_illegal {s : State} {words : List Word} {k : Nat} {port : List PortEvent} {e : Reject}
    (hc : commandComplete words = true) (hd : decode words = .error e) (hrx : s.rx = words.take k)
    (hport : s.port = (words.drop k).map .word ++ port) :
    step s = .next ((s.accepted port).completeErr .illegalCommand) :=
  step_illegal (by rw [hrx, hport, receive_split hc]) hd

/-- A header and the extension words its opcode asks for are a whole command (R59). -/
theorem commandComplete_cons {h : Word} {ext : List Word} (hlen : ext.length = extWords (Header.ofWord h).op) :
    commandComplete (h :: ext) = true :=
  decide_eq_true (by rw [commandLength, hlen])

/-- The number of extension words of a defined opcode is that of its row. -/
theorem extWords_of_opRow {op : Nat} {r : OpRow} (hr : opRow op = some r) : extWords op = r.ext := by
  rw [extWords, hr]

/-- An undefined opcode has no extension words (R63). -/
theorem extWords_of_opRow_none {op : Nat} (hr : opRow op = none) : extWords op = 0 := by
  rw [extWords, hr]

/-- Words that are not yet a whole command are fewer than their header asks for. -/
theorem short_of_notYetWhole {words : List Word} (h : notYetWhole words) : Short words := by
  rcases h with rfl | ⟨w, ext, rfl, hlt⟩
  · exact Short.nil
  · rintro _ _ ⟨⟩
    exact hlt

/-- Settles O8: the words on the port are received, and the block waits for more. -/
theorem incompleteCommandWaits : Obligations.IncompleteCommandWaits := by
  intro s words hn hport
  have hs := short_of_notYetWhole hn
  refine step_waiting ?_
  calc receive s.rx s.port
      = receive s.rx (words.map .word ++ []) := by rw [hport, List.append_nil]
    _ = receive (s.rx ++ words) [] := receive_words _ _ _ fun w ext he => (hs w ext he).le
    _ = .waiting (s.rx ++ words) := receive_short_nil hs

/-! ### Illegal headers (R62, R63) -/

/-- A defined opcode with a nonzero unused field is refused, once its extension words are there (R62). -/
theorem decode_nonzeroField {h : Word} {ext : List Word} {r : OpRow} (hr : opRow (Header.ofWord h).op = some r)
    (hlen : ext.length = r.ext) (hz : unusedZero r (Header.ofWord h) = false) :
    decode (h :: ext) = .error .nonzeroField := by
  simp [decode, hr, hlen, hz]

/-- An undefined opcode is refused whatever follows it (R63). -/
theorem decode_undefinedOpcode {h : Word} (ext : List Word) (hr : opRow (Header.ofWord h).op = none) :
    decode (h :: ext) = .error .undefinedOpcode := by
  simp [decode, hr]

/-- A header with a defined opcode and its extension words decodes exactly when every unused field is zero (R62). -/
theorem decode_ok_iff_unusedZero {h : Word} {ext : List Word} {r : OpRow} (hr : opRow (Header.ofWord h).op = some r)
    (hlen : ext.length = r.ext) : (∃ i, decode (h :: ext) = .ok (i, [])) ↔ unusedZero r (Header.ofWord h) = true := by
  constructor
  · rintro ⟨i, hd⟩
    by_contra hz
    rw [decode_nonzeroField hr hlen (Bool.eq_false_iff.2 hz)] at hd
    cases hd
  · intro hz
    obtain ⟨i, hb, -⟩ := buildInstr_of_opRow hr hlen
    exact ⟨i, by simpa using decode_of_row (rest := []) hr hlen hz hb⟩

/-- Settles O4: the decoder's test, its agreement with the mask, and the step on a refused command. -/
theorem legalSpellingIsMaskMatch : Obligations.LegalSpellingIsMaskMatch := by
  intro h ext r hr hlen
  refine ⟨decode_ok_iff_unusedZero hr hlen, unusedZero_iff_mask hr, fun hz s k port _ hrx hport => ?_⟩
  exact step_split_illegal (commandComplete_cons (hlen.trans (extWords_of_opRow hr).symm)) (decode_nonzeroField hr hlen hz)
    hrx hport

/-- The opcodes without a row are those R63 lists. -/
theorem opRow_eq_none_iff : ∀ op < 64, opRow op = none ↔ op ∈ undefinedOpcodes := by decide

/-- Settles O5: the opcode map against R63's list, and the step on a header with no row. -/
theorem undefinedOpcodeIsOneIllegalWord : Obligations.UndefinedOpcodeIsOneIllegalWord := by
  refine ⟨opRow_eq_none_iff, fun s h port hop hrx hport => ?_⟩
  have hr : opRow (Header.ofWord h).op = none := (opRow_eq_none_iff _ (Header.ofWord_inRange h).1).2 hop
  have hacc : s.accepted port = { s with port := port } := by rw [State.accepted, ← hrx]
  rw [← hacc]
  exact step_split_illegal (words := [h]) (k := 0) (commandComplete_cons (extWords_of_opRow_none hr).symm)
    (decode_undefinedOpcode [] hr) hrx hport

/-! ### The worked encodings (R67) -/

/-- Settles O1, by running the decoder and the encoder on each row. -/
theorem workedEncodings : Obligations.WorkedEncodings := by
  unfold Obligations.WorkedEncodings
  decide

end Sys2Proof.Machine

/-!
# The laws of multiply and divide (R115)

By value each law is one about integers: the quotient and the remainder of the divider represent those of U or of S, and rounding
toward zero leaves the remainder between zero and the dividend, so it fits the width and keeps its sign.
-/

namespace Sys2Proof.Machine

open Sys2Proof

/-- A remainder of S(a) rounded toward zero lies between zero and S(a), so it is the S of its words (R10, R111). -/
theorem sval_wide_tmod {a : Wide} (ha : a ≠ []) (k : Int) :
    sval (wide a.length ((sval a).tmod k)) = (sval a).tmod k := by
  obtain ⟨hlow, hhigh⟩ := sval_range a ha
  have hlen : 1 ≤ a.length := List.length_pos_iff.2 ha
  have hmag : ((sval a).tmod k).natAbs ≤ (sval a).natAbs := by
    rw [Int.natAbs_tmod]
    exact Nat.mod_le _ _
  rcases le_total 0 (sval a) with hpos | hneg
  · have := Int.tmod_nonneg k hpos
    exact sval_wide hlen (by omega) (by omega)
  · have := Int.tmod_nonneg k (neg_nonneg.2 hneg)
    rw [Int.neg_tmod] at this
    exact sval_wide hlen (by omega) (by omega)

/-- A product and a sum of values, by any number that b represents (R12). -/
theorem wAdd_wMul_of_wide_eq {n : Nat} {b : Wide} {k : Int} (hk : wide n k = b) (q r : Int) :
    wAdd (wMul (wide n q) b) (wide n r) = wide n (q * k + r) := by
  rw [← hk, wMul_wide, wAdd_wide]

/-- The quotient times b plus the remainder is a, signed and unsigned (R115). -/
theorem divmod_quotient_mul_add_remainder {a b : Wide} (hlen : a.length = b.length) (hb : uval b ≠ 0) (sg : Bool) :
    wAdd (wMul (divmod sg a b).1 b) (divmod sg a b).2 = a := by
  have hu : wide a.length (uval b) = b := hlen ▸ wide_uval b
  have hs : wide a.length (sval b) = b := hlen ▸ wide_sval b
  cases sg
  case false =>
    rw [divmod_false hb, wAdd_wMul_of_wide_eq hu, ← Nat.cast_mul, ← Nat.cast_add, Nat.div_add_mod', wide_uval]
  case true =>
    rw [divmod_true hb, wAdd_wMul_of_wide_eq hs, Int.tdiv_mul_add_tmod, wide_sval]

/-- The unsigned remainder is below U(b) (R115). -/
theorem uval_divmod_remainder_lt {a b : Wide} (hb : uval b ≠ 0) : uval (divmod false a b).2 < uval b := by
  rw [divmod_false hb, uval_wide_natCast]
  exact (Nat.mod_le _ _).trans_lt (Nat.mod_lt _ (Nat.pos_of_ne_zero hb))

/-- The signed remainder is zero or has the sign of a (R115). -/
theorem signBit_divmod_remainder {a b : Wide} (ha : a ≠ []) (hb : uval b ≠ 0) :
    uval (divmod true a b).2 = 0 ∨ signBit (divmod true a b).2 = signBit a := by
  rw [divmod_true hb]
  by_cases hdvd : sval b ∣ sval a
  · left
    rw [Int.tmod_eq_zero_of_dvd hdvd]
    exact uval_wide_of_lt (k := 0) (wmod_pos _)
  · right
    rw [Bool.eq_iff_iff, signBit_iff_sval_neg, signBit_iff_sval_neg, sval_wide_tmod ha, ← Int.sign_eq_neg_one_iff_neg,
      Int.sign_tmod, if_neg hdvd, Int.sign_eq_neg_one_iff_neg]

/-- The ten that MUL10 and DIV10 take, at every width that holds a word. -/
theorem uval_wide_ten {n : Nat} (hn : 0 < n) : uval (wide n 10) = 10 := by
  have hle : wmod 1 ≤ wmod n := Nat.pow_le_pow_right (by decide) (Nat.mul_le_mul_left 32 hn)
  exact uval_wide_of_lt (k := 10) ((by decide : 10 < wmod 1).trans_le hle)

/-- MUL10 is MUL by ten (R113, R115). -/
theorem mul10Words_eq_mulWords (a : Wide) : mul10Words a = mulWords false a (wide a.length 10) := by
  have hten : (uval a : Int) * uval (wide a.length 10) ≡ uval a * 10 [ZMOD (wmod a.length : Int)] :=
    (uval_wide_modEq a.length 10).mul_left _
  rw [mul10Words_eq, mulWords_eq (length_wide _ _).symm, wide_congr hten, mul_comm 10, Nat.cast_mul, Nat.cast_ofNat]

/-- DIV10 is the unsigned DIV by ten (R114, R115). -/
theorem div10Words_eq_divmod (a : Wide) : div10Words a = (divmod false a (wide a.length 10)).1 := by
  rcases eq_or_ne a [] with rfl | ha
  · rfl
  · have hten := uval_wide_ten (List.length_pos_iff.2 ha)
    rw [divmod_false (by rw [hten]; decide), hten, div10Words]

/-- Settles O33, each law by the lemma that states it. -/
theorem divisionLaws : Obligations.DivisionLaws := by
  intro a b hlen
  refine ⟨fun hb => ⟨divmod_quotient_mul_add_remainder hlen hb, uval_divmod_remainder_lt hb, ?_⟩, ?_,
    mul10Words_eq_mulWords a, div10Words_eq_divmod a⟩
  · refine signBit_divmod_remainder ?_ hb
    rintro rfl
    exact hb (by rw [List.length_eq_zero_iff.1 hlen.symm, uval_nil])
  · rw [mulWords_eq hlen, mulWords_eq hlen]

end Sys2Proof.Machine

/-!
# Shifting right and then left (R122)

Back to back, SHR and SHL replace the shifted value V, which is U or S, by V − V mod 2^k. Up to the width, 2^k divides the
modulus, so V mod 2^k is the low bits of U whichever reading S chose; from the width on, the modulus divides the shifted value.
-/

namespace Sys2Proof.Machine

open Sys2Proof

/-- SHL of any number that its operand represents (R12, R120). -/
theorem shlWords_wide (n : Nat) (x : Int) (count : Nat) : shlWords (wide n x) count = wide n (x * 2 ^ count) :=
  (shlWords_eq _ _).trans (wShl_wide n x count)

/-- SHL of SHR is the rounded-down quotient of the shifted value, scaled back (R120, R121). -/
theorem shlWords_shrWords (sg : Bool) (a : Wide) (k : Nat) :
    shlWords (shrWords sg a k) k = wide a.length ((if sg then sval a else (uval a : Int)) / 2 ^ k * 2 ^ k) := by
  rw [shrWords_eq, shlWords_wide]

/-- The value a command reads as signed or unsigned is U(a) modulo 2^(32n) (R10, R12). -/
theorem signedOrUnsigned_modEq (sg : Bool) (a : Wide) :
    (if sg then sval a else (uval a : Int)) ≡ uval a [ZMOD (wmod a.length : Int)] := by
  cases sg
  case false => rfl
  case true => exact sval_modEq a

/-- Clearing the low k bits, k up to the width, keeps congruence modulo 2^(32n). -/
theorem clearLow_modEq {n k : Nat} (hk : k ≤ 32 * n) {x y : Int} (h : x ≡ y [ZMOD (wmod n : Int)]) :
    x / 2 ^ k * 2 ^ k ≡ y - y % 2 ^ k [ZMOD (wmod n : Int)] := by
  have hdvd : (2 ^ k : Int) ∣ wmod n := by
    rw [wmod_cast]
    exact pow_dvd_pow 2 hk
  have hlow : x % 2 ^ k = y % 2 ^ k := h.of_dvd hdvd
  have hquot : x / 2 ^ k * 2 ^ k = x - x % 2 ^ k := eq_sub_of_add_eq (Int.ediv_mul_add_emod x _)
  rw [hquot, hlow]
  exact h.sub_right _

/-- Up to the width, SHL of SHR clears the low bits of U(a), whichever S (R122). -/
theorem shlWords_shrWords_of_le {a : Wide} {k : Nat} (hk : k ≤ 32 * a.length) (sg : Bool) :
    shlWords (shrWords sg a k) k = wide a.length (uval a - uval a % 2 ^ k : Nat) := by
  rw [shlWords_shrWords, wide_congr (clearLow_modEq hk (signedOrUnsigned_modEq sg a)), Nat.cast_sub (Nat.mod_le _ _),
    Int.natCast_emod, Nat.cast_pow, Nat.cast_ofNat]

/-- A value with its low k bits cleared is the value itself exactly when they were zero. -/
theorem wide_clearLow_eq_self_iff (a : Wide) (k : Nat) :
    wide a.length (uval a - uval a % 2 ^ k : Nat) = a ↔ uval a % 2 ^ k = 0 := by
  have hlt : uval a - uval a % 2 ^ k < wmod a.length := (Nat.sub_le _ _).trans_lt (uval_lt a)
  have hle : uval a % 2 ^ k ≤ uval a := Nat.mod_le _ _
  constructor
  · intro h
    have hu := uval_wide_of_lt hlt
    rw [h] at hu
    omega
  · intro h
    rw [h, Nat.sub_zero, wide_uval]

/-- From the width on, SHL leaves nothing of its operand (R120). -/
theorem shlWords_of_width_le {a : Wide} {count : Nat} (h : 32 * a.length ≤ count) :
    shlWords a count = wide a.length 0 := by
  have hdvd : wmod a.length ∣ uval a * 2 ^ count := Dvd.dvd.mul_left (pow_dvd_pow 2 h) _
  rw [shlWords_eq]
  exact wide_congr (Int.modEq_zero_iff_dvd.2 (Int.natCast_dvd_natCast.2 hdvd))

/-- Settles O35, by value below the width and as SHL of everything from the width on. -/
theorem shiftRightThenLeft : Obligations.ShiftRightThenLeft := by
  refine fun a k sg => ⟨fun hk => ?below, fun hk => ?beyond⟩
  case below =>
    have hclear := shlWords_shrWords_of_le hk.le sg
    exact ⟨hclear, by rw [hclear, wide_clearLow_eq_self_iff]⟩
  case beyond => rw [shlWords_of_width_le (by rwa [length_shrWords]), length_shrWords]

end Sys2Proof.Machine

/-!
# The round trips of the decimal and the hexadecimal text (R148)

Each parser, past its width check, completes as the parse of the string does, and a renderer that completes with OK leaves its text
as the string. So the round trips are facts about the texts: what the numerals denote, and that a numeral holds neither '-' nor 'x',
as both are no digits.
-/

namespace Sys2Proof.Machine

open Sys2Proof

/-! ### The parsers on a width in range -/

/-- FROMDEC writes what the parse of the string answers (R144). -/
theorem exec_fromdec_width {s : State} (rd : Reg) {n : Nat} (h1 : 1 ≤ n) (h2 : n ≤ s.cfg.nmax) :
    exec (.fromdec rd n) s = s.finish (parseDec n s.text >>= fun v => .ok (s.writeX rd v)) := by
  rw [exec, execFromdec, checkWidth_ok h1 h2, except_ok_bind]
  rfl

/-- FROMHEX writes what the parse of the string answers (R146). -/
theorem exec_fromhex_width {s : State} (rd : Reg) {n : Nat} (h1 : 1 ≤ n) (h2 : n ≤ s.cfg.nmax) :
    exec (.fromhex rd n) s = s.finish (parseHex s.cfg.hexUpperIn n s.text >>= fun v => .ok (s.writeX rd v)) := by
  rw [exec, execFromhex, checkWidth_ok h1 h2, except_ok_bind]
  rfl

/-! ### The string a renderer leaves -/

/-- SBSIZE is below 2^16, the range of SLEN (R8, R30). -/
theorem sbsize_lt_of_cfg_wf {c : Config} (h : c.wf = true) : c.sbsize < 2 ^ 16 := by
  obtain ⟨-, -, -, hle⟩ := of_decide_eq_true h
  omega

/-- A store that completes with OK leaves the parameters as they were and its text as the string (R13, R178). -/
theorem text_of_finish_putText_ok {s t : State} {text : List Byte} (hcfg : s.cfg.wf = true) (hsb : s.sb.wf = true)
    (ht : s.finish (putText s text) = .next t) (hok : statusLast t.status = okCode) : t.cfg = s.cfg ∧ t.text = text := by
  rcases le_or_gt text.length s.cfg.sbsize with hfits | hlong
  · rw [putText_ok hfits, State.finish_ok] at ht
    cases ht
    exact ⟨rfl, setText_text (hfits.trans_lt (sbsize_lt_of_cfg_wf hcfg)) hsb⟩
  · rw [finish_putText_overflow hlong] at ht
    cases ht
    exact absurd ((statusLast_afterErr _ _).symm.trans hok) (Err.code_ne_ok _)

/-! ### Numerals hold neither '-' nor 'x' -/

/-- The sign is no digit, so digits do not begin with it (R43). -/
theorem head?_ne_minus_of_digits {upper : Bool} {ds : List Byte} (h : ∀ c ∈ ds, isHexDigit upper c) :
    ds.head? ≠ some chMinus := by
  intro hhead
  have hminus : ∀ u : Bool, ¬ isHexDigit u chMinus := by decide
  exact hminus upper (h chMinus (List.mem_of_head? hhead))

/-- Neither 'x' nor 'X' is a digit, so digits do not begin with "0x" or "0X" (R43, R146, R147). -/
theorem digits_without_hexPrefix {upper : Bool} {body : List Byte} (h : ∀ c ∈ body, isHexDigit upper c) :
    ¬ ∃ ds, body = 0x30 :: 0x78 :: ds ∨ (upper = true ∧ body = 0x30 :: 0x58 :: ds) := by
  have hx : ∀ u : Bool, ¬ isHexDigit u 0x78 ∧ ¬ isHexDigit u 0x58 := by decide
  rintro ⟨ds, rfl | ⟨-, rfl⟩⟩
  · exact (hx upper).1 (h 0x78 (by simp))
  · exact (hx upper).2 (h 0x58 (by simp))

/-! ### The texts read back -/

/-- A sign and a magnitude, of S(a) or of U(a), represent a (R10, R140). -/
theorem wide_sign_magnitude (sg : Bool) (a : Wide) :
    wide a.length (if sg = true ∧ sval a < 0 then -((if sg then (sval a).natAbs else uval a : Nat) : Int)
      else (if sg then (sval a).natAbs else uval a : Nat)) = a := by
  cases sg
  case false => simp
  case true =>
    have habs : (if sval a < 0 then -((sval a).natAbs : Int) else (sval a).natAbs) = sval a := by
      split <;> omega
    simp only [true_and, if_true, habs, wide_sval]

/-- The decimal text of a, signed or unsigned, parses to a (R148). -/
theorem parseDec_decText (sg : Bool) (a : Wide) : parseDec a.length (decText sg a) = .ok a := by
  obtain ⟨hdigits, hne, hvalue⟩ := decimal_spec (magnitude_lt sg a)
  have hhead := head?_ne_minus_of_digits (upper := false) fun c hc => .inl (hdigits c hc)
  have hparse := parseDec_ok (n := a.length) (neg := decide (sg = true ∧ sval a < 0)) (fun _ => hhead) hne hdigits
  simp only [decide_eq_true_eq, hvalue, wide_sign_magnitude] at hparse
  rw [decText_eq, hparse]

/-- The hexadecimal text of a is no text of FROMHEX: "0x" does not stand before it (R148). -/
theorem parseHex_hexText (upper : Bool) (n : Nat) (a : Wide) : parseHex upper n (hexText a) = .error .badFormat := by
  have hdigits : ∀ c ∈ hexText a, isHexDigit upper c := hexText_digits
  rw [parseHex, splitSign_other (head?_ne_minus_of_digits hdigits)]
  simp only [stripHexPrefix_error (digits_without_hexPrefix hdigits), except_error_bind]

/-- The hexadecimal text of a with "0x" before it parses to a (R148). -/
theorem parseHex_0x_hexText (upper : Bool) {a : Wide} (ha : 1 ≤ a.length) :
    parseHex upper a.length ([0x30, 0x78] ++ hexText a) = .ok a := by
  have hne : hexText a ≠ [] := List.ne_nil_of_length_pos (by rw [length_hexText]; omega)
  have hparse := parseHex_ok (upper := upper) (neg := false) (n := a.length) (fun _ => by simp [chMinus])
    (.inl rfl) hne hexText_digits
  rwa [hexValue_hexText, if_neg Bool.false_ne_true, if_neg Bool.false_ne_true, wide_uval] at hparse

/-- Settles O45: a renderer's text is the string, and the parser reads the value back from it. -/
theorem textRoundTrips : Obligations.TextRoundTrips := by
  intro s sg rs1 rd a hcfg hsb ha h1 h2
  refine ⟨fun t ht hok => ?dec, fun t ht hok => ?hex⟩
  case dec =>
    rw [exec_todec_holds sg ha] at ht
    obtain ⟨htcfg, htext⟩ := text_of_finish_putText_ok hcfg hsb ht hok
    rw [State.CompletesTo, exec_fromdec_width rd h1 (htcfg ▸ h2), htext, parseDec_decText]
    rfl
  case hex =>
    rw [exec_tohex_holds ha] at ht
    obtain ⟨htcfg, htext⟩ := text_of_finish_putText_ok hcfg hsb ht hok
    refine ⟨?_, fun u hucfg hutext => ?_⟩
    · rw [State.FailsWith, exec_fromhex_width rd h1 (htcfg ▸ h2), htext, parseHex_hexText]
      rfl
    · rw [State.CompletesTo, exec_fromhex_width rd h1 (hucfg.trans htcfg ▸ h2), hutext, htext, parseHex_0x_hexText _ h1]
      rfl

end Sys2Proof.Machine

/-!
# Exceptions: one response per command, and division by zero (R171, R179)

A command completes in one of two ways (`exec_cases`), and either completion adds one response: that is R179. For R171, the three
divisions on valid sources complete as their divisor check does, and DIV10 has no check but that of its source.
-/

namespace Sys2Proof.Machine

open Sys2Proof

/-! ### One response (R179) -/

/-- `t` is `s` after one command: one response more, of the values now in LAST and RES; LAST a code of R170, and RES the old one
where that code is a failure. -/
structure Responded (s t : State) : Prop where
  rsp : t.rsp = { status := statusLast t.status, res := t.res } :: s.rsp
  code : producedCode (statusLast t.status) = true
  res : statusLast t.status ≠ okCode → t.res = s.res

/-- The code of every non-OK status is one that R170 lists. -/
theorem producedCode_code (e : Err) : producedCode e.code = true := by cases e <;> decide

/-- A completion with OK adds one response to those before its effects. -/
theorem responded_completeOk {s t : State} (h : t.rsp = s.rsp) : Responded s t.completeOk where
  rsp := by rw [State.completeOk_rsp, h]; rfl
  code := by rw [State.completeOk_status, statusLast_afterOk]; decide
  res hne := absurd (statusLast_afterOk t.status) hne

/-- A completion with a non-OK status adds one response, with RES as it was. -/
theorem responded_completeErr (s : State) (e : Err) : Responded s (s.completeErr e) where
  rsp := s.completeErr_rsp e
  code := by rw [State.completeErr_status, statusLast_afterErr, producedCode_code]
  res _ := s.completeErr_res e

/-- Every command responds once, whichever way it completes. -/
theorem exec_responded {i : Instr} {s t : State} (h : exec i s = .next t) : Responded s t := by
  rcases exec_cases i s with ⟨u, hu, hc⟩ | ⟨e, he⟩
  · cases hu.symm.trans h
    exact responded_completeOk hc.rsp
  · cases he.symm.trans h
    exact responded_completeErr s e

/-- A step that takes a command from the port responds once, the command legal or not. -/
theorem step_responded {s t : State} {words : List Word} {port : List PortEvent}
    (hr : receive s.rx s.port = .command words port) (h : step s = .next t) : Responded (s.accepted port) t := by
  cases hd : decode words with
  | ok p => exact exec_responded ((step_command hr hd).symm.trans h)
  | error e =>
    cases (step_illegal hr hd).symm.trans h
    exact responded_completeErr _ .illegalCommand

/-- Settles O13, by what the port holds: a whole command, `rst`, or neither. -/
theorem oneResponsePerCommand : Obligations.OneResponsePerCommand := by
  intro s t h
  cases hr : receive s.rx s.port with
  | command words port =>
    obtain ⟨hrsp, hcode, hres⟩ := step_responded hr h
    exact ⟨hrsp, hcode, hres⟩
  | reset port =>
    cases (step_reset hr).symm.trans h
    exact s.applyReset_rsp port
  | waiting words =>
    cases (step_waiting hr).symm.trans h
    rfl

/-! ### Division by zero (R171) -/

section

variable {s : State} {rs1 rs2 : Reg} {a b : Wide}

/-- DIV of valid sources of one width checks the divisor and writes the quotient (R111). -/
theorem exec_div_holdsPair (sg : Bool) (rd : Reg) (h : s.HoldsPair rs1 rs2 a b) :
    exec (.div sg rd rs1 rs2) s = s.finish (checkDivisor b >>= fun _ => .ok (s.writeX rd (divmod sg a b).1)) := by
  rw [exec, execDiv, readPair_holds h, except_ok_bind]
  rfl

/-- MOD of valid sources of one width checks the divisor and writes the remainder (R112). -/
theorem exec_mod_holdsPair (sg : Bool) (rd : Reg) (h : s.HoldsPair rs1 rs2 a b) :
    exec (.mod sg rd rs1 rs2) s = s.finish (checkDivisor b >>= fun _ => .ok (s.writeX rd (divmod sg a b).2)) := by
  rw [exec, execMod, readPair_holds h, except_ok_bind]
  rfl

/-- FXDIV of valid sources of one width, with F in range, checks the divisor and writes the quotient (R149, R154). -/
theorem exec_fxdiv_holdsPair (rd : Reg) {f : Nat} (h : s.HoldsPair rs1 rs2 a b) (h1 : 1 ≤ f) (h2 : f < a.length) :
    exec (.fxdiv rd rs1 rs2 f) s = s.finish (checkDivisor b >>= fun _ => .ok (s.writeX rd (fxDivWords f a b))) := by
  rw [exec, execFxdiv, readFxPair_holds h h1 h2, except_ok_bind]
  rfl

/-- Whatever would follow the divisor check, a zero divisor completes with DivideByZero. -/
theorem finish_checkDivisor_zero {k : Unit → Except Err State} (hb : uval b = 0) :
    s.finish (checkDivisor b >>= k) = .next (s.completeErr .divideByZero) := by
  rw [checkDivisor_error hb, except_error_bind, State.finish_error]

end

/-- DIV10 completes with OK or with RegisterInvalid: its divisor is ten, and there is nothing else to check (R114). -/
theorem statusLast_exec_div10 {s t : State} {rd rs1 : Reg} (h : exec (.div10 rd rs1) s = .next t) :
    statusLast t.status = okCode ∨ statusLast t.status = Err.registerInvalid.code := by
  rw [exec, execDiv10] at h
  rcases readX_cases s rs1 with ⟨-, hread⟩ | ⟨-, hread⟩ <;> rw [hread] at h <;> cases h
  · exact .inl (statusLast_afterOk _)
  · exact .inr (statusLast_afterErr _ _)

/-- Settles O22: each division by its divisor check, DIV10 by the two statuses it completes with. -/
theorem zeroDivisorFails : Obligations.ZeroDivisorFails := by
  intro s rd rs1 rs2 a b sg f
  refine ⟨fun h hb => ⟨?div, ?mod, fun h1 h2 => ?fxdiv⟩, fun t ht => ?div10⟩
  case div => exact (exec_div_holdsPair sg rd h).trans (finish_checkDivisor_zero hb)
  case mod => exact (exec_mod_holdsPair sg rd h).trans (finish_checkDivisor_zero hb)
  case fxdiv => exact (exec_fxdiv_holdsPair rd h h1 h2).trans (finish_checkDivisor_zero hb)
  case div10 => rcases statusLast_exec_div10 ht with hl | hl <;> rw [hl] <;> decide

end Sys2Proof.Machine

/-!
# One spelling for every command (R57 to R60, R62, R64)

The header of a command and the row of its opcode agree field by field: the encoder fills the fields the row lists and leaves the
others zero, `buildInstr` reads the same fields back. So decoding an encoding meets the command again, and a header whose unused
fields are zero is, of all headers, the one the encoder gives for the command it spells.
-/

namespace Sys2Proof.Machine

open Sys2Proof

/-! ### The header the encoder writes -/

/-- The header of a well-formed command fits the row of its opcode: the extension words are there and the unused fields are zero
(R59, R62). -/
theorem opRow_headerOf {i : Instr} (h : i.wellFormed = true) : ∃ r, opRow (headerOf i).op = some r ∧
    (extensionOf i).length = r.ext ∧ unusedZero r (headerOf i) = true := by
  have hlo : ∀ {k : Nat}, fitsByte k = true → (k / 2 ^ 8 == 0) = true := fun hk =>
    beq_iff_eq.2 (Nat.div_eq_of_lt (of_decide_eq_true hk))
  cases i
  all_goals refine ⟨_, rfl, rfl, ?_⟩
  case sbput char => exact hlo (decide_eq_true char.isLt)
  case ldi32 | ldi64 | cast | fromdec | fromhex => exact hlo h
  case fxfromi f | fxadd f | fxsub f | fxmul f | fxdiv f | fxtod f | fxtodec f =>
    exact beq_iff_eq.2 (joinImm_mod (hi := f) (lo := 0) (by decide))
  all_goals rfl

/-- The fields of a well-formed command fit the header word (R57). -/
theorem headerOf_inRange {i : Instr} (h : i.wellFormed = true) : (headerOf i).inRange := by
  have hbyte : ∀ {k : Nat}, fitsByte k = true → k < 2 ^ 16 := fun hk => (of_decide_eq_true hk).trans (by decide)
  have hjoin : ∀ {hi lo : Nat}, fitsByte hi = true → fitsByte lo = true → joinImm hi lo < 2 ^ 16 :=
    fun h1 h2 => joinImm_lt (of_decide_eq_true h1) (of_decide_eq_true h2)
  cases i
  all_goals refine ⟨of_decide_eq_true rfl, ?_⟩
  case sbput char => exact char.isLt.trans (by decide)
  case sbget | getw | setw | shl | shr | getbit | setbit => exact of_decide_eq_true h
  case ldi32 | ldi64 | cast | fromdec | fromhex => exact hbyte h
  case fxfromi | fxadd | fxsub | fxmul | fxdiv | fxtod | fxtodec => exact hjoin h rfl
  case fxfromd | fxfromdec =>
    obtain ⟨hn, hf⟩ := (Bool.and_eq_true _ _).mp h
    exact hjoin hf hn
  all_goals exact Nat.two_pow_pos 16

/-- `buildInstr` reads from header and extension words what the encoder has put there (R58, R59). -/
theorem buildInstr_headerOf {i : Instr} (h : i.wellFormed = true) :
    buildInstr (headerOf i) (extensionOf i) = some i := by
  have hlo : ∀ {k : Nat}, fitsByte k = true → k % 2 ^ 8 = k := fun hk => Nat.mod_eq_of_lt (of_decide_eq_true hk)
  have hjoin : ∀ {f lo : Nat}, fitsByte lo = true → joinImm f lo / 2 ^ 8 = f ∧ joinImm f lo % 2 ^ 8 = lo := fun hk =>
    ⟨joinImm_div (of_decide_eq_true hk), joinImm_mod (of_decide_eq_true hk)⟩
  have hzero : ∀ f : Nat, joinImm f 0 / 2 ^ 8 = f := fun f => (hjoin rfl).1
  cases i
  -- at a known opcode the command read is found by computation; what remains is that its fields are the fields written
  all_goals refine Eq.trans (b := some _) rfl ?_
  case sbput char =>
    simp only [headerOf, Header.immlo, Nat.mod_eq_of_lt char.isLt, BitVec.ofNat_toNat, BitVec.setWidth_eq]
  case ldi32 | ldi64 | cast | fromdec | fromhex =>
    simp only [headerOf, extensionOf, Header.immlo, hlo h, imm64Of_imm64Words, imm32Of, List.getD_cons_zero]
  case fxfromi | fxadd | fxsub | fxmul | fxdiv | fxtod | fxtodec => simp only [headerOf, Header.immhi, hzero]
  case fxfromd | fxfromdec =>
    obtain ⟨hn, -⟩ := (Bool.and_eq_true _ _).mp h
    simp only [headerOf, extensionOf, Header.immlo, Header.immhi, (hjoin hn).1, (hjoin hn).2, imm64Of_imm64Words]
  all_goals rfl

/-- Settles O2: the header word gives the fields back, and they meet the decoder's checks. -/
theorem decodeOfEncode : Obligations.DecodeOfEncode := by
  intro i rest h
  obtain ⟨r, hrow, hlen, hzero⟩ := opRow_headerOf h
  have hfields := Header.ofWord_toWord (headerOf_inRange h)
  exact decode_of_row (by rw [hfields, hrow]) hlen (by rw [hfields, hzero]) (by rw [hfields, buildInstr_headerOf h])

/-! ### The header the decoder reads -/

/-- The part of a header's imm16 a command uses (R58). -/
def usedImm (u : ImmUse) (h : Header) : Nat :=
  match u with
  | .none => 0
  | .lo => h.immlo
  | .hi => joinImm h.immhi 0
  | .full => h.imm16

/-- imm16 is its used and its unused part together. -/
theorem usedImm_add_unusedPart (u : ImmUse) (h : Header) : usedImm u h + u.unusedPart h = h.imm16 := by
  cases u <;> simp only [usedImm, ImmUse.unusedPart, joinImm, Header.immlo, Header.immhi] <;> omega

/-- The header with the fields that row `r` does not use set to zero (R60, R62). -/
def usedFields (r : OpRow) (h : Header) : Header where
  op := r.op
  s := r.s && h.s
  rd := if r.rd then h.rd else 0
  rs1 := if r.rs1 then h.rs1 else 0
  rs2 := if r.rs2 then h.rs2 else 0
  imm16 := usedImm r.imm h

/-- Where the unused fields are zero already, the used ones are the whole header. -/
theorem usedFields_eq_self {r : OpRow} {h : Header} (hop : r.op = h.op) (hzero : unusedZero r h = true) :
    usedFields r h = h := by
  obtain ⟨hs, hrd, hrs1, hrs2, himm⟩ := (unusedZero_iff r h).1 hzero
  have hflag : (r.s && h.s) = h.s := by rcases hs with e | e <;> simp [e]
  have hreg : ∀ {used : Bool} {q : Reg}, used = true ∨ q.val = 0 → (if used then q else 0) = q := by
    rintro (_ | _) q hq
    · exact Fin.ext (hq.resolve_left Bool.false_ne_true).symm
    · rfl
  have himm16 : usedImm r.imm h = h.imm16 := by simpa [himm] using usedImm_add_unusedPart r.imm h
  obtain ⟨op, s, rd, rs1, rs2, imm16⟩ := h
  exact Header.mk.injEq .. ▸ ⟨hop, hflag, hreg hrd, hreg hrs1, hreg hrs2, himm16⟩

/-- Row by row, the encoder's header for the command `buildInstr` reads has the used fields of the header read, and the command is
well-formed: a field holds no number too large for it (R58, R60). -/
theorem buildInstr_row_headerOf {h : Header} (hr : h.inRange) (ext : List Word) : ∀ r ∈ opcodeTable,
    ∃ i, buildInstr { h with op := r.op } ext = some i ∧ headerOf i = usedFields r h ∧ i.wellFormed = true := by
  have hlo : fitsByte (h.imm16 % 2 ^ 8) = true := decide_eq_true h.immlo_lt
  have hhi : fitsByte (h.imm16 / 2 ^ 8) = true := decide_eq_true (Header.immhi_lt hr)
  have hfull : fitsHalf h.imm16 = true := decide_eq_true hr.2
  have hjoin : joinImm (h.imm16 / 2 ^ 8) (h.imm16 % 2 ^ 8) = h.imm16 := h.joinImm_halves
  simp only [opcodeTable, rowsSystem, rowsConstruct, rowsAddLogic, rowsMulDiv, rowsShiftCompare, rowsCastText, rowsFixed,
    List.forall_mem_append, List.forall_mem_cons, List.not_mem_nil, false_imp_iff, implies_true, and_true]
  and_intros
  all_goals refine ⟨_, rfl, ?_⟩
  all_goals simp only [headerOf, usedFields, usedImm, Instr.wellFormed, Header.immlo, Header.immhi, hlo, hhi, hfull, hjoin,
    BitVec.toNat_ofNat, Nat.mod_mod, Bool.true_and, Bool.false_and, if_true, if_false, Bool.false_eq_true, and_self]

/-- A header in range whose unused fields are zero is the encoder's header for the command it spells. -/
theorem headerOf_of_buildInstr {h : Header} {ext : List Word} {r : OpRow} {i : Instr} (hr : h.inRange)
    (hrow : opRow h.op = some r) (hzero : unusedZero r h = true) (hb : buildInstr h ext = some i) :
    headerOf i = h ∧ i.wellFormed = true := by
  obtain ⟨hmem, hop⟩ := opRow_some hrow
  have hfields := buildInstr_row_headerOf hr ext r hmem
  rw [hop, usedFields_eq_self hop hzero] at hfields
  obtain ⟨j, hj, hheader, hwf⟩ := hfields
  obtain rfl := Option.some.inj (hb.symm.trans hj)
  exact ⟨hheader, hwf⟩

/-- Settles O3: header and extension words of the words decoded are those of the command's encoding. -/
theorem encodeOfDecode : Obligations.EncodeOfDecode := by
  intro words rest i hd
  obtain ⟨w, ext, r, rfl, hrow, -, hzero, hb⟩ := decode_eq_ok _ _ _ hd
  obtain ⟨hheader, hwf⟩ := headerOf_of_buildInstr (Header.ofWord_inRange w) hrow hzero hb
  refine ⟨hwf, ?_⟩
  rw [encode, hheader, Header.toWord_ofWord, List.cons_append, ← decode_cons_extension hd]

/-! ### The words of a command on the port -/

/-- Settles O7: the words are received as that command, wherever they stand divided between `rx` and the port. -/
theorem stepRunsDecodedCommand : Obligations.StepRunsDecodedCommand := by
  intro s words k i port hd _ hrx hport
  exact step_command (by rw [hrx, hport, receive_split (complete_of_decode hd)]) hd

/-- Settles O9: the words before `rst` are received and forgotten, and the state is the one `applyReset` leaves. -/
theorem resetForgetsPartialCommand : Obligations.ResetForgetsPartialCommand := by
  intro s words port hn hport
  have hs := short_of_notYetWhole hn
  have hreset : receive s.rx s.port = .reset port := by
    rw [hport, receive_words _ _ _ fun w ext he => (hs w ext he).le, receive_short_rst hs]
  refine ⟨_, step_reset hreset, fun r => ?_, rfl, rfl, rfl, rfl, rfl, rfl, rfl, rfl⟩
  rw [State.applyReset_get, WReg.invalid]

end Sys2Proof.Machine

/-!
# What a command leaves unchanged (R28, R30, R41, R170, R178)

Both completions are the two of `exec_cases`: an OK completion of confined effects, or a failure, whose only effect is STATUS. For
the bytes of SB, the storing commands are SBPUT and the renderers, which store one text at address 0.
-/

namespace Sys2Proof.Machine

open Sys2Proof

/-! ### STATUS and the other fields -/

/-- Settles O11: the two completions of `exec_cases`. -/
theorem failureChangesStatusOnly : Obligations.FailureChangesStatusOnly := by
  intro i s
  rcases exec_cases i s with ⟨u, hu, hc⟩ | ⟨e, he⟩
  · refine ⟨_, hu, .inl ⟨statusLast_afterOk _, fun hi => ?_⟩⟩
    rw [State.completeOk_status, statusEany_afterOk, hc.status hi]
  · exact ⟨_, he, .inr ⟨e, statusLast_afterErr e _, e.code_ne_ok, statusEany_afterErr e _, statusReserved_afterErr e _,
      rfl, rfl, rfl, rfl, rfl, rfl, rfl, rfl⟩⟩

/-- Settles O12: the codes by computation, the fields of STATUS by the lemmas about either completion. -/
theorem statusCodes : Obligations.StatusCodes :=
  ⟨rfl, rfl, fun _ e => ⟨statusLast_afterOk _, statusEany_afterOk _, statusReserved_afterOk _, statusLast_afterErr e _,
    statusEany_afterErr e _, statusReserved_afterErr e _⟩⟩

/-- Settles O15: after OK the frame is that of the confined effects, after a failure everything but STATUS. -/
theorem frameOfEveryCommand : Obligations.FrameOfEveryCommand := by
  intro i s t ht
  rcases exec_cases i s with ⟨u, hu, hc⟩ | ⟨e, he⟩
  · cases hu.symm.trans ht
    refine ⟨hc.res, hc.slen, fun h a => congrArg (fun m => Memory.read m a) (hc.sb h), hc.draws, fun h => ?_, hc.rx, hc.port,
      hc.cfg⟩
    rw [State.completeOk_status, statusReserved_afterOk, hc.status h]
  · cases he.symm.trans ht
    exact ⟨fun _ => rfl, fun _ => rfl, fun _ _ => rfl, fun _ => rfl, fun _ => statusReserved_afterErr e _, rfl, rfl, rfl⟩

/-- Settles O24: these commands have no check, so each is the completion of its effects. -/
theorem systemCommands : Obligations.SystemCommands := fun _ => ⟨rfl, rfl, rfl, rfl, rfl⟩

/-! ### The bytes of SB -/

/-- SBPUT with room stores the character at SLEN and counts it (R84). -/
theorem sbput_completes {s : State} (char : Byte) (h : s.slen.toNat < s.cfg.sbsize) :
    s.CompletesTo (.sbput char) { s with sb := s.sb.write s.slen.toNat char, slen := s.slen + 1 } := by
  rw [State.CompletesTo, exec, execSbput, decide_eq_true h, require_true, except_ok_bind, except_pure, State.finish_ok]

/-- The store of a text that fits completes with OK (R13). -/
theorem finish_putText_fits {s : State} {text : List Byte} (h : text.length ≤ s.cfg.sbsize) :
    s.finish (putText s text) = .next (s.setText text).completeOk := by
  rw [putText_ok h, State.finish_ok]

/-- The store of a text changes no byte beyond the text, whether it fits or not. -/
theorem read_beyond_text {s t : State} {text : List Byte} (hwf : s.sb.wf = true) (ht : s.finish (putText s text) = .next t)
    {a : Nat} (ha : text.length ≤ a) : t.sb.read a = s.sb.read a := by
  rcases le_or_gt text.length s.cfg.sbsize with hfits | hlong
  · cases (finish_putText_fits hfits).symm.trans ht
    exact Memory.read_writeBytes_outside hwf 0 text (.inr (by omega))
  · cases (finish_putText_overflow hlong).symm.trans ht
    rfl

/-- Settles O16: SBPUT writes the one byte, a renderer its text; for FXTODEC nothing where F is out of range. -/
theorem storedBytes : Obligations.StoredBytes := by
  refine ⟨fun s t char hwf ht a ha => ?sbput, fun s t sg rs1 v hwf hv ht a => ?todec, fun s t rs1 v hwf hv ht a => ?tohex,
    fun s t rs1 f v hwf hv ht a ha => ?fxtodec⟩
  case sbput =>
    rcases lt_or_ge s.slen.toNat s.cfg.sbsize with hroom | hfull
    · cases (sbput_completes char hroom).symm.trans ht
      exact Memory.read_write_ne hwf char ha
    · cases (sbput_full_fails char hfull).symm.trans ht
      rfl
  case todec => exact read_beyond_text hwf ((exec_todec_holds sg hv).symm.trans ht)
  case tohex => exact read_beyond_text hwf ((exec_tohex_holds hv).symm.trans ht)
  case fxtodec =>
    by_cases hf : 1 ≤ f ∧ f < v.length
    · exact read_beyond_text hwf ((exec_fxtodec_holds hv hf.1 hf.2).symm.trans ht) ha
    · rw [exec, execFxtodec, readX_holds hv, except_ok_bind, checkFraction_error (by omega)] at ht
      cases ht
      rfl

end Sys2Proof.Machine

/-!
# What every step keeps (R21, R29, R30, R47, R56, R179)

The invariant splits in two. What it says of registers and string buffer is kept by the effects: each value written has a width in
range, each text stored has been found to fit (`Keeps`, and `exec_keeps` for every command). What it says of STATUS and of the
responses is kept by either completion, whatever the effects are.
-/

namespace Sys2Proof.Machine

open Sys2Proof

/-! ### Registers and string buffer in range -/

/-- A width that a register of a block with parameters `c` may have (R21). -/
def WidthOk (c : Config) (n : Nat) : Prop := 1 ≤ n ∧ n ≤ c.nmax

/-- The invariant's part on parameters, wide registers and string buffer. -/
structure State.Stored (s : State) : Prop where
  cfg_wf : s.cfg.wf = true
  widths : ∀ r : Reg, s.x[r].valid = true → WidthOk s.cfg s.x[r].n
  slen_le : s.slen.toNat ≤ s.cfg.sbsize
  sb_wf : s.sb.wf = true
  sb_bound : ∀ c ∈ s.sb, c.1 < s.cfg.sbsize

theorem State.Inv.stored {s : State} (h : s.Inv) : s.Stored where
  cfg_wf := h.cfg_wf
  widths := h.widths
  slen_le := h.slen_le
  sb_wf := h.sb_wf
  sb_bound := h.sb_bound

section

variable {s : State} (h : s.Stored)
include h

/-- The width of a valid register is in range. -/
theorem State.Stored.holds {r : Reg} {a : Wide} (ha : s.Holds r a) : WidthOk s.cfg a.length := by
  have hr := h.widths r (by rw [ha, WReg.of_valid])
  rwa [ha, WReg.of_n] at hr

theorem State.Stored.setRes (k : BitVec 64) : (s.setRes k).Stored := ⟨h.cfg_wf, h.widths, h.slen_le, h.sb_wf, h.sb_bound⟩

theorem State.Stored.countDraw : s.countDraw.Stored := ⟨h.cfg_wf, h.widths, h.slen_le, h.sb_wf, h.sb_bound⟩

theorem State.Stored.writeX (r : Reg) {v : Wide} (hv : WidthOk s.cfg v.length) : (s.writeX r v).Stored where
  cfg_wf := h.cfg_wf
  widths q hq := by
    by_cases e : q = r
    · rw [e, State.writeX_get_self]
      exact hv
    · rw [State.writeX_get_ne s v e] at hq ⊢
      exact h.widths q hq
  slen_le := h.slen_le
  sb_wf := h.sb_wf
  sb_bound := h.sb_bound

/-- A text that fits stays within the buffer's addresses (R47). -/
theorem State.Stored.setText {text : List Byte} (hfits : text.length ≤ s.cfg.sbsize) : (s.setText text).Stored where
  cfg_wf := h.cfg_wf
  widths := h.widths
  slen_le := by
    rw [State.setText_slen, BitVec.toNat_ofNat]
    exact (Nat.mod_le _ _).trans hfits
  sb_wf := Memory.wf_writeBytes h.sb_wf 0 text
  sb_bound := Memory.addr_writeBytes h.sb_bound (by rwa [Nat.zero_add])

/-- With room for it, a character stays within the buffer's addresses (R47, R84). -/
theorem State.Stored.appendChar (char : Byte) (hroom : s.slen.toNat < s.cfg.sbsize) :
    ({ s with sb := s.sb.write s.slen.toNat char, slen := s.slen + 1 } : State).Stored where
  cfg_wf := h.cfg_wf
  widths := h.widths
  slen_le := by
    show (s.slen + 1).toNat ≤ s.cfg.sbsize
    rw [BitVec.toNat_add]
    exact (Nat.mod_le _ _).trans hroom
  sb_wf := Memory.wf_write h.sb_wf _ _
  sb_bound := Memory.addr_writeBytes (bs := [char]) h.sb_bound hroom

end

/-! ### Effects that keep them in range -/

/-- Two sources of a fixed-point command are read as any two sources; F is checked after that. -/
theorem readFxPair_bind {α : Type} (s : State) (f : Nat) (r1 r2 : Reg) (k : Wide × Wide → Except Err α) :
    (readFxPair s f r1 r2 >>= k) = readPair s r1 r2 >>= fun p => checkFraction f p.1.length >>= fun _ => k p := by
  simp only [readFxPair, bind_assoc, pure_bind]

/-- An effect that, where it succeeds, leaves registers and string buffer in range. -/
def Keeps (e : Except Err State) : Prop := ∀ t, e = .ok t → t.Stored

theorem Keeps.ok {t : State} (h : t.Stored) : Keeps (.ok t) := by
  rintro _ ⟨⟩
  exact h

/-- What follows a check or a read needs to keep them for the answers it can give only. -/
theorem Keeps.bind {α : Type} {c : Except Err α} {k : α → Except Err State} (h : ∀ a, c = .ok a → Keeps (k a)) :
    Keeps (c >>= k) := by
  intro t ht
  obtain ⟨a, ha, hk⟩ := (except_bind_eq_ok c k t).1 ht
  exact h a ha t hk

section

variable {s : State} (h : s.Stored)

/-- Past the width check the width is in range (R177 step 3). -/
theorem Keeps.width {n : Nat} {k : Unit → Except Err State} (hk : WidthOk s.cfg n → Keeps (k ())) :
    Keeps (checkWidth s n >>= k) :=
  .bind fun _ hc => by
    obtain ⟨h0, hle⟩ := of_decide_eq_true ((require_eq_ok _ _).1 hc)
    exact hk ⟨Nat.pos_of_ne_zero h0, hle⟩

include h

/-- A value written, of a width in range. -/
theorem Keeps.write (rd : Reg) {v : Wide} (hv : WidthOk s.cfg v.length) : Keeps (.ok (s.writeX rd v)) :=
  .ok (h.writeX rd hv)

/-- A value of the width of one of the sources. -/
theorem Keeps.write_like (rd : Reg) {a v : Wide} (ha : WidthOk s.cfg a.length) (hv : v.length = a.length) :
    Keeps (.ok (s.writeX rd v)) :=
  .write h rd (hv ▸ ha)

/-- The store of a text, if it fits. -/
theorem Keeps.putText (text : List Byte) : Keeps (putText s text) :=
  .bind fun _ hc => .ok (h.setText (of_decide_eq_true ((require_eq_ok _ _).1 hc)))

/-- What follows a register read works from a value of a width in range. -/
theorem Keeps.read {r : Reg} {k : Wide → Except Err State} (hk : ∀ a, WidthOk s.cfg a.length → Keeps (k a)) :
    Keeps (readX s r >>= k) :=
  .bind fun a ha => by
    rcases readX_cases s r with ⟨hv, e⟩ | ⟨-, e⟩ <;> cases e.symm.trans ha
    exact hk _ (h.holds (State.holds_of_valid hv))

/-- What follows a pair read works from two values of one width in range (R100). -/
theorem Keeps.readPair {r1 r2 : Reg} {k : Wide × Wide → Except Err State}
    (hk : ∀ a b, WidthOk s.cfg a.length → a.length = b.length → Keeps (k (a, b))) : Keeps (readPair s r1 r2 >>= k) :=
  .bind fun (a, b) hp => by
    have hpair := (readPair_eq_ok s r1 r2 _).1 hp
    exact hk a b (h.holds hpair.first) hpair.width

/-- The same with the check of F (R149). -/
theorem Keeps.readFxPair {f : Nat} {r1 r2 : Reg} {k : Wide × Wide → Except Err State}
    (hk : ∀ a b, WidthOk s.cfg a.length → a.length = b.length → Keeps (k (a, b))) : Keeps (readFxPair s f r1 r2 >>= k) := by
  rw [readFxPair_bind]
  exact .readPair h fun a b ha hb => .bind fun _ _ => hk a b ha hb

end

/-! ### The widths of results -/

theorem length_mulWords {a b : Wide} (h : a.length = b.length) (sg : Bool) : (mulWords sg a b).length = a.length := by
  rw [mulWords_eq h, length_wide]

theorem length_divmod (sg : Bool) (a b : Wide) :
    (divmod sg a b).1.length = a.length ∧ (divmod sg a b).2.length = a.length := by
  unfold divmod
  constructor <;> dsimp only <;> split <;> simp

theorem length_ldi32Words (sg : Bool) {n : Nat} (hn : 1 ≤ n) (k : Word) : (ldi32Words sg n k).length = n := by
  rw [ldi32Words_eq sg hn, length_wide]

theorem length_ldi64Words (sg : Bool) (n : Nat) (k : BitVec 64) : (ldi64Words sg n k).length = n := by
  rw [ldi64Words_eq, length_wide]

theorem length_parseDecDigits {n : Nat} {acc v : Wide} {ds : List Byte} (h : parseDecDigits n acc ds = .ok v) :
    v.length = acc.length := by
  induction ds generalizing acc with
  | nil =>
    cases h
    rfl
  | cons c cs ih =>
    rw [parseDecDigits] at h
    split at h
    · rw [ih h, length_wAdd, mul10Words_eq, length_wide]
    · cases h

theorem length_parseHexDigits {upper : Bool} {n : Nat} {acc v : Wide} {ds : List Byte}
    (h : parseHexDigits upper n acc ds = .ok v) : v.length = acc.length := by
  induction ds generalizing acc with
  | nil =>
    cases h
    rfl
  | cons c cs ih =>
    rw [parseHexDigits] at h
    split at h
    · rw [ih h, length_wAdd, length_wShl]
    · cases h

/-- A sign does not change a width. -/
theorem length_signed (neg : Bool) (v : Wide) : (if neg then wNeg v else v).length = v.length := by
  cases neg
  · rfl
  · exact length_wNeg v

theorem length_parseDec {n : Nat} {text : List Byte} {v : Wide} (h : parseDec n text = .ok v) : v.length = n := by
  simp only [parseDec, except_bind_eq_ok, except_pure, Except.ok.injEq] at h
  obtain ⟨_, -, acc, hacc, rfl⟩ := h
  rw [length_signed, length_parseDecDigits hacc, length_wide]

theorem length_parseHex {upper : Bool} {n : Nat} {text : List Byte} {v : Wide} (h : parseHex upper n text = .ok v) :
    v.length = n := by
  simp only [parseHex, except_bind_eq_ok, except_pure, Except.ok.injEq] at h
  obtain ⟨_, -, _, -, acc, hacc, rfl⟩ := h
  rw [length_signed, length_parseHexDigits hacc, length_wide]

theorem length_parseFx {n f : Nat} {text : List Byte} {v : Wide} (h : parseFx n f text = .ok v) : v.length = n := by
  simp only [parseFx, except_bind_eq_ok, except_pure, Except.ok.injEq] at h
  obtain ⟨_, -, _, -, _, -, rfl⟩ := h
  rw [length_signed, length_wide]

/-! ### Every command -/

/-- Every command completes from an effect that keeps registers and string buffer in range. -/
theorem exec_keeps (i : Instr) {s : State} (h : s.Stored) : ∃ e, exec i s = s.finish e ∧ Keeps e := by
  cases i
  case nop => exact ⟨_, rfl, .ok h⟩
  case clrst => exact ⟨.ok { s with status := 0 }, rfl, .ok ⟨h.cfg_wf, h.widths, h.slen_le, h.sb_wf, h.sb_bound⟩⟩
  case rdst => exact ⟨_, rfl, .ok (h.setRes _)⟩
  case sbclr => exact ⟨.ok { s with slen := 0 }, rfl, .ok ⟨h.cfg_wf, h.widths, Nat.zero_le _, h.sb_wf, h.sb_bound⟩⟩
  case sblen => exact ⟨_, rfl, .ok (h.setRes _)⟩
  all_goals refine ⟨_, rfl, ?_⟩
  case sbput char => exact .bind fun _ hc => .ok (h.appendChar char (of_decide_eq_true ((require_eq_ok _ _).1 hc)))
  case sbget => exact .bind fun _ _ => .ok (h.setRes _)
  case ldi32 sg rd n k => exact .width fun hn => .write h rd (by rwa [length_ldi32Words sg hn.1])
  case ldi64 sg rd n k => exact .width fun hn => .write h rd (by rwa [length_ldi64Words])
  case fromdec rd n => exact .width fun hn => .bind fun v hv => .write h rd (by rwa [length_parseDec hv])
  case fromhex rd n => exact .width fun hn => .bind fun v hv => .write h rd (by rwa [length_parseHex hv])
  case fxfromdec rd n f =>
    exact .width fun hn => .bind fun _ _ => .bind fun v hv => .write h rd (by rwa [length_parseFx hv])
  case fxfromd rd n f d =>
    refine .width fun hn => .bind fun _ _ => ?_
    cases hv : fxFromDouble n f d with
    | some v => exact .write h rd (by rwa [length_fxFromDouble hv])
    | none => exact .ok (h.writeX rd (by rwa [List.length_map, List.length_range])).countDraw
  case cast sg rd rs1 m => exact .width fun hm => .read h fun a _ => .write h rd (by rwa [length_wCast])
  case mov rd rs1 => exact .read h fun a ha => .write h rd ha
  case neg rd rs1 => exact .read h fun a ha => .write_like h rd ha (by rw [length_wAdd, length_wNot])
  case not rd rs1 => exact .read h fun a ha => .write_like h rd ha (length_wNot a)
  case mul10 rd rs1 => exact .read h fun a ha => .write_like h rd ha (by rw [mul10Words_eq, length_wide])
  case div10 rd rs1 => exact .read h fun a ha => .ok ((h.writeX rd (by rwa [div10Words, length_wide])).setRes _)
  case shl rd rs1 count => exact .read h fun a ha => .write_like h rd ha (length_shlWords a count)
  case shr sg rd rs1 count => exact .read h fun a ha => .write_like h rd ha (length_shrWords sg a count)
  case fxfromi rd rs1 f => exact .read h fun a ha => .bind fun _ _ => .write_like h rd ha (length_wShl a _)
  case setw rd index k => exact .read h fun a ha => .bind fun _ _ => .write_like h rd ha (List.length_set ..)
  case setbit v rd index => exact .read h fun a ha => .bind fun _ _ => .write_like h rd ha (length_setBitOf a index v)
  case idxmsb => exact .read h fun _ _ => .ok (h.setRes _)
  case getw | getbit => exact .read h fun _ _ => .bind fun _ _ => .ok (h.setRes _)
  case todec | tohex => exact .read h fun _ _ => .putText h _
  case fxtodec => exact .read h fun _ _ => .bind fun _ _ => .putText h _
  case fxtod rs1 f =>
    refine .read h fun a _ => .bind fun _ _ => ?_
    cases fxToDouble f a with
    | some k => exact .ok (h.setRes k)
    | none => exact .ok (h.setRes _).countDraw
  case cmp | eq | ne => exact .readPair h fun _ _ _ _ => .ok (h.setRes _)
  case add rd _ _ => exact .readPair h fun a b ha hb => .write_like h rd ha (length_addCarry hb false)
  case sub rd _ _ => exact .readPair h fun a b ha _ => .write_like h rd ha (length_wAdd a _)
  case and rd _ _ | or rd _ _ | xor rd _ _ =>
    exact .readPair h fun a b ha hb => .write_like h rd ha (by rw [List.length_zipWith, ← hb, Nat.min_self])
  case mul sg rd _ _ => exact .readPair h fun a b ha hb => .write_like h rd ha (length_mulWords hb sg)
  case div sg rd _ _ =>
    exact .readPair h fun a b ha _ => .bind fun _ _ => .write_like h rd ha (length_divmod sg a b).1
  case mod sg rd _ _ =>
    exact .readPair h fun a b ha _ => .bind fun _ _ => .write_like h rd ha (length_divmod sg a b).2
  case fxadd rd _ _ _ => exact .readFxPair h fun a b ha _ => .write_like h rd ha (length_wAdd a b)
  case fxsub rd _ _ _ => exact .readFxPair h fun a b ha _ => .write_like h rd ha (length_wSub a b)
  case fxmul rd _ _ f => exact .readFxPair h fun a b ha _ => .write_like h rd ha (length_wCast _ _ _)
  case fxdiv rd _ _ f => exact .readFxPair h fun a b ha _ => .bind fun _ _ => .write_like h rd ha (length_wCast _ _ _)

/-! ### Either completion -/

theorem State.Stored.completeOk {s : State} (h : s.Stored) : s.completeOk.Stored :=
  ⟨h.cfg_wf, h.widths, h.slen_le, h.sb_wf, h.sb_bound⟩

theorem State.Stored.completeErr {s : State} (h : s.Stored) (e : Err) : (s.completeErr e).Stored :=
  ⟨h.cfg_wf, h.widths, h.slen_le, h.sb_wf, h.sb_bound⟩

/-- After a command, registers and string buffer are in range. -/
theorem exec_stored {i : Instr} {s t : State} (h : s.Stored) (ht : exec i s = .next t) : t.Stored := by
  obtain ⟨e, he, hk⟩ := exec_keeps i h
  rcases (s.finish_eq_next t e).1 (he.symm.trans ht) with ⟨u, hu, rfl⟩ | ⟨e, -, rfl⟩
  · exact (hk u hu).completeOk
  · exact h.completeErr e

/-- An OK completion leaves LAST = OK and one more response with that code (R178, R179). -/
theorem State.Stored.inv_completeOk {s : State} (h : s.completeOk.Stored) (hres : statusReserved s.status = 0)
    (hrsp : ∀ r ∈ s.rsp, producedCode r.status = true) (hrx : commandComplete s.rx = false) : s.completeOk.Inv where
  cfg_wf := h.cfg_wf
  widths := h.widths
  slen_le := h.slen_le
  sb_wf := h.sb_wf
  sb_bound := h.sb_bound
  reserved_zero := (statusReserved_afterOk _).trans hres
  last_code := (responded_completeOk rfl).code
  last_eany hne := absurd (statusLast_afterOk _) hne
  rsp_code := List.forall_mem_cons.2 ⟨(responded_completeOk rfl).code, hrsp⟩
  rx_partial := hrx

/-- A completion with a failure leaves LAST a code of R170, EANY set, and one more response with that code (R178, R179). -/
theorem State.Inv.completeErr {s : State} (h : s.Inv) (e : Err) : (s.completeErr e).Inv where
  cfg_wf := h.cfg_wf
  widths := h.widths
  slen_le := h.slen_le
  sb_wf := h.sb_wf
  sb_bound := h.sb_bound
  reserved_zero := (statusReserved_afterErr e _).trans h.reserved_zero
  last_code := (responded_completeErr s e).code
  last_eany _ := statusEany_afterErr e _
  rsp_code := List.forall_mem_cons.2 ⟨(responded_completeErr s e).code, h.rsp_code⟩
  rx_partial := h.rx_partial

/-- Every command keeps the invariant. -/
theorem exec_inv {i : Instr} {s t : State} (h : s.Inv) (ht : exec i s = .next t) : t.Inv := by
  have hstored := exec_stored h.stored ht
  rcases exec_cases i s with ⟨u, hu, hc⟩ | ⟨e, he⟩
  · cases hu.symm.trans ht
    have hreserved : statusReserved u.status = 0 := by
      by_cases hi : i = .clrst
      · rw [hc.clrst hi]
        decide
      · rw [hc.status hi, h.reserved_zero]
    exact hstored.inv_completeOk hreserved (hc.rsp ▸ h.rsp_code) (hc.rx ▸ h.rx_partial)
  · cases he.symm.trans ht
    exact h.completeErr e

/-! ### Every step -/

/-- The state in which a command runs, its words taken from the port (R56). -/
theorem State.Inv.accepted {s : State} (h : s.Inv) (port : List PortEvent) : (s.accepted port).Inv :=
  { h with rx_partial := rfl }

/-- The state in which the block waits (R56). -/
theorem State.Inv.waiting {s : State} (h : s.Inv) {words : List Word} (hw : commandComplete words = false) :
    ({ s with rx := words, port := [] } : State).Inv :=
  { h with rx_partial := hw }

/-- A state with the contents that reset leaves, whatever stands on the port (R191). -/
theorem inv_of_reset {c : Config} (hc : c.wf = true) (port : List PortEvent) {rsp : List Response}
    (hrsp : ∀ r ∈ rsp, producedCode r.status = true) (draws : Nat) :
    ({ State.resetWith c with port := port, rsp := rsp, draws := draws } : State).Inv where
  cfg_wf := hc
  widths r hr := by simp [State.resetWith, WReg.invalid] at hr
  slen_le := Nat.zero_le _
  sb_wf := Memory.wf_nil
  sb_bound := nofun
  reserved_zero := (by decide : statusReserved 0 = 0)
  last_code := (by decide : producedCode (statusLast 0) = true)
  last_eany hne := absurd (by decide : statusLast 0 = okCode) hne
  rsp_code := hrsp
  rx_partial := rfl

/-- Settles O57: the reset state with an empty port, no responses and no draws; the defaults of R7 are in range. -/
theorem resetSatisfiesInvariant : Obligations.ResetSatisfiesInvariant :=
  have h : ∀ c : Config, c.wf = true → (State.resetWith c).Inv := fun _ hc => inv_of_reset hc [] (List.forall_mem_nil _) 0
  ⟨h, h Config.standard rfl⟩

/-- Settles O58, by what the port holds: a command, legal or not, `rst`, or neither. -/
theorem stepKeepsInvariant : Obligations.StepKeepsInvariant := by
  intro s t h ht
  rcases receive_cases s.rx s.port with ⟨words, port, hr, -⟩ | ⟨port, hr⟩ | ⟨words, hr, hw⟩
  · cases hd : decode words with
    | ok p => exact exec_inv (h.accepted port) ((step_command hr hd).symm.trans ht)
    | error e =>
      cases (step_illegal hr hd).symm.trans ht
      exact (h.accepted port).completeErr .illegalCommand
  · cases (step_reset hr).symm.trans ht
    exact inv_of_reset h.cfg_wf port h.rsp_code s.draws
  · cases (step_waiting hr).symm.trans ht
    exact h.waiting hw

/-- From every state a step answers a next state. -/
theorem step_answers_next (s : State) : ∃ t, step s = .next t := by
  rcases receive_cases s.rx s.port with ⟨words, port, hr, -⟩ | ⟨port, hr⟩ | ⟨words, hr, -⟩
  · cases hd : decode words with
    | ok p =>
      rw [step_command hr hd]
      rcases exec_cases p.1 (s.accepted port) with ⟨u, hu, -⟩ | ⟨e, he⟩
      · exact ⟨_, hu⟩
      · exact ⟨_, he⟩
    | error e => exact ⟨_, step_illegal hr hd⟩
  · exact ⟨_, step_reset hr⟩
  · exact ⟨_, step_waiting hr⟩

/-- Every state a host can bring the block into satisfies the invariant: a step keeps it, and sending touches the port alone. -/
theorem Reachable.inv {s : State} (h : Reachable s) : s.Inv := by
  induction h with
  | reset c hc => exact resetSatisfiesInvariant.1 c hc
  | send s events _ ih => exact { ih with }
  | step s t _ hst ih => exact stepKeepsInvariant s t ih hst

/-- Settles O59: the invariant by induction over the ways a state is reached, the next step by what the port holds. -/
theorem reachableStatesAreSafe : Obligations.ReachableStatesAreSafe := fun s h => ⟨h.inv, step_answers_next s⟩

end Sys2Proof.Machine

/-!
# What cannot be observed never shows (R35, R36, R41, R191)

In two states that differ only in what cannot be observed, every check and every read has one answer, and every effect writes the
same values; so the two runs of a command make the same choices and end in two such states again (`ObsAgree`).
-/

namespace Sys2Proof.Machine

open Sys2Proof

/-! ### One answer from both states -/

section

variable {s s' : State} (h : s.ObsEq s')
include h

/-- A register is read from both states alike: an invalid one in neither, a valid one with its words (R23, R36). -/
theorem State.ObsEq.readX_eq (r : Reg) : readX s r = readX s' r := by
  have hvalid := h.valid r
  rcases readX_cases s r with ⟨hv, e⟩ | ⟨hv, e⟩ <;> rcases readX_cases s' r with ⟨hv', e'⟩ | ⟨hv', e'⟩
  · rw [e, e', h.words r hv]
  · cases hv.symm.trans (hvalid.trans hv')
  · cases hv.symm.trans (hvalid.trans hv')
  · rw [e, e']

theorem State.ObsEq.readPair_eq (r1 r2 : Reg) : readPair s r1 r2 = readPair s' r1 r2 := by
  rw [readPair, readPair, h.readX_eq, h.readX_eq]

theorem State.ObsEq.readFxPair_eq (f : Nat) (r1 r2 : Reg) : readFxPair s f r1 r2 = readFxPair s' f r1 r2 := by
  rw [readFxPair, readFxPair, h.readPair_eq]

theorem State.ObsEq.checkWidth_eq (n : Nat) : checkWidth s n = checkWidth s' n := by
  rw [checkWidth, checkWidth, h.cfg]

/-- The strings are the same (R40, R41). -/
theorem State.ObsEq.text_eq : s.text = s'.text := by
  rw [State.text, State.text, ← h.slen]
  exact List.map_congr_left fun a ha => h.text a (List.mem_range.1 ha)

/-! ### Effects on both states -/

theorem State.ObsEq.setRes (k : BitVec 64) : (s.setRes k).ObsEq (s'.setRes k) := { h with res := rfl }

theorem State.ObsEq.countDraw : s.countDraw.ObsEq s'.countDraw := { h with draws := congrArg (· + 1) h.draws }

theorem State.ObsEq.setStatus (st : BitVec 32) :
    ({ s with status := st } : State).ObsEq { s' with status := st } := { h with status := rfl }

/-- The empty string shows no byte (R83). -/
theorem State.ObsEq.clearText : ({ s with slen := 0 } : State).ObsEq { s' with slen := 0 } :=
  { h with slen := rfl, text := fun a ha => absurd ha (Nat.not_lt_zero a) }

/-- A written register is valid with the same words in both (R22). -/
theorem State.ObsEq.writeX (r : Reg) (v : Wide) : (s.writeX r v).ObsEq (s'.writeX r v) :=
  have hreg : ∀ q : Reg, (s.writeX r v).x[q].valid = (s'.writeX r v).x[q].valid ∧
      ((s.writeX r v).x[q].valid = true → (s.writeX r v).x[q].w = (s'.writeX r v).x[q].w) := by
    intro q
    by_cases e : q = r
    · rw [e, State.writeX_get_self, State.writeX_get_self]
      exact ⟨rfl, fun _ => rfl⟩
    · rw [State.writeX_get_ne s v e, State.writeX_get_ne s' v e]
      exact ⟨h.valid q, h.words q⟩
  { h with valid := fun q => (hreg q).1, words := fun q => (hreg q).2 }

/-- A text stored is the string in both (R13). -/
theorem State.ObsEq.setText (text : List Byte) : (s.setText text).ObsEq (s'.setText text) :=
  { h with
    slen := rfl
    text := fun a ha => by
      rw [State.setText_slen, BitVec.toNat_ofNat] at ha
      have hlt : a < text.length := ha.trans_le (Nat.mod_le _ _)
      have hread := fun {m : Memory} (hm : m.wf = true) => Memory.read_writeBytes_inside hm 0 text hlt
      rw [Nat.zero_add] at hread
      rw [State.setText_sb, State.setText_sb, hread h.sb_wf.1, hread h.sb_wf.2]
    sb_wf := ⟨Memory.wf_writeBytes h.sb_wf.1 0 text, Memory.wf_writeBytes h.sb_wf.2 0 text⟩ }

/-- A character appended stands behind the same string in both (R84). -/
theorem State.ObsEq.appendChar (char : Byte) :
    ({ s with sb := s.sb.write s.slen.toNat char, slen := s.slen + 1 } : State).ObsEq
      { s' with sb := s'.sb.write s'.slen.toNat char, slen := s'.slen + 1 } :=
  { h with
    slen := congrArg (· + 1) h.slen
    text := fun a ha => by
      have hle : a < s.slen.toNat + 1 := ha.trans_le (by rw [BitVec.toNat_add]; exact Nat.mod_le _ _)
      show (s.sb.write s.slen.toNat char).read a = (s'.sb.write s'.slen.toNat char).read a
      rw [← h.slen]
      rcases Nat.lt_succ_iff_lt_or_eq.1 hle with hlt | rfl
      · rw [Memory.read_write_ne h.sb_wf.1 char hlt.ne, Memory.read_write_ne h.sb_wf.2 char hlt.ne, h.text a hlt]
      · rw [Memory.read_write_self h.sb_wf.1, Memory.read_write_self h.sb_wf.2]
    sb_wf := ⟨Memory.wf_write h.sb_wf.1 _ _, Memory.wf_write h.sb_wf.2 _ _⟩ }

theorem State.ObsEq.completeOk : s.completeOk.ObsEq s'.completeOk :=
  { h with
    status := congrArg statusAfterOk h.status
    rsp := by rw [State.completeOk_rsp, State.completeOk_rsp, h.status, h.res, h.rsp] }

theorem State.ObsEq.completeErr (e : Err) : (s.completeErr e).ObsEq (s'.completeErr e) :=
  { h with
    status := congrArg (statusAfterErr e) h.status
    rsp := by rw [State.completeErr_rsp, State.completeErr_rsp, h.status, h.res, h.rsp] }

theorem State.ObsEq.accepted (port : List PortEvent) : (s.accepted port).ObsEq (s'.accepted port) :=
  { h with rx := rfl, port := rfl }

theorem State.ObsEq.waiting (words : List Word) :
    ({ s with rx := words, port := [] } : State).ObsEq { s' with rx := words, port := [] } :=
  { h with rx := rfl, port := rfl }

/-- Reset leaves two states that do not differ at all. -/
theorem State.ObsEq.applyReset (port : List PortEvent) : (s.applyReset port).ObsEq (s'.applyReset port) := by
  rw [State.applyReset, State.applyReset, h.cfg, h.rsp, h.draws]
  exact ⟨fun _ => rfl, fun _ _ => rfl, rfl, rfl, rfl, fun _ _ => rfl, ⟨rfl, rfl⟩, rfl, rfl, rfl, rfl, rfl⟩

end

/-! ### Commands -/

/-- The same failure, or effects that differ only in what cannot be observed. -/
inductive ObsAgree : Except Err State → Except Err State → Prop where
  | error (e : Err) : ObsAgree (.error e) (.error e)
  | ok {t t' : State} (h : t.ObsEq t') : ObsAgree (.ok t) (.ok t')

/-- After a check or a read with one answer, effects agree if what follows that answer does. -/
theorem ObsAgree.bind {α : Type} {c c' : Except Err α} {k k' : α → Except Err State} (hc : c = c')
    (hk : ∀ a, c = .ok a → ObsAgree (k a) (k' a)) : ObsAgree (c >>= k) (c' >>= k') := by
  subst hc
  cases c with
  | ok a => exact hk a rfl
  | error e => exact .error e

theorem ObsAgree.putText {s s' : State} (h : s.ObsEq s') (text : List Byte) : ObsAgree (putText s text) (putText s' text) :=
  .bind (by rw [h.cfg]) fun _ _ => .ok (h.setText text)

/-- Two completions of effects that agree are two states that differ only in what cannot be observed. -/
theorem ObsAgree.finish {s s' : State} (h : s.ObsEq s') {e e' : Except Err State} (ha : ObsAgree e e') :
    ∃ t t', s.finish e = .next t ∧ s'.finish e' = .next t' ∧ t.ObsEq t' := by
  cases ha with
  | error e => exact ⟨_, _, rfl, rfl, h.completeErr e⟩
  | ok ht => exact ⟨_, _, rfl, rfl, ht.completeOk⟩

/-- Every command completes from effects that agree. -/
theorem exec_obsAgree (i : Instr) {s s' : State} (h : s.ObsEq s') :
    ∃ e e', exec i s = s.finish e ∧ exec i s' = s'.finish e' ∧ ObsAgree e e' := by
  cases i
  case nop => exact ⟨_, _, rfl, rfl, .ok h⟩
  case clrst => exact ⟨.ok { s with status := 0 }, .ok { s' with status := 0 }, rfl, rfl, .ok (h.setStatus 0)⟩
  case rdst => exact ⟨_, _, rfl, rfl, .ok (h.status ▸ h.setRes _)⟩
  case sbclr => exact ⟨.ok { s with slen := 0 }, .ok { s' with slen := 0 }, rfl, rfl, .ok h.clearText⟩
  case sblen => exact ⟨_, _, rfl, rfl, .ok (h.slen ▸ h.setRes _)⟩
  all_goals refine ⟨_, _, rfl, rfl, ?_⟩
  case sbput char => exact .bind (by rw [h.slen, h.cfg]) fun _ _ => .ok (h.appendChar char)
  case sbget index =>
    refine .bind (by rw [h.slen]) fun _ hc => .ok ?_
    rw [← h.text index (of_decide_eq_true ((require_eq_ok _ _).1 hc))]
    exact h.setRes _
  case ldi32 | ldi64 => exact .bind (h.checkWidth_eq _) fun _ _ => .ok (h.writeX _ _)
  case fromdec => exact .bind (h.checkWidth_eq _) fun _ _ => .bind (by rw [h.text_eq]) fun _ _ => .ok (h.writeX _ _)
  case fromhex =>
    exact .bind (h.checkWidth_eq _) fun _ _ => .bind (by rw [h.text_eq, h.cfg]) fun _ _ => .ok (h.writeX _ _)
  case fxfromdec =>
    exact .bind (h.checkWidth_eq _) fun _ _ => .bind rfl fun _ _ => .bind (by rw [h.text_eq]) fun _ _ => .ok (h.writeX _ _)
  case fxfromd rd n f d =>
    refine .bind (h.checkWidth_eq n) fun _ _ => .bind rfl fun _ _ => ?_
    cases fxFromDouble n f d with
    | some v => exact .ok (h.writeX rd v)
    | none => exact .ok (h.draws ▸ (h.writeX rd _).countDraw)
  case cast => exact .bind (h.checkWidth_eq _) fun _ _ => .bind (h.readX_eq _) fun _ _ => .ok (h.writeX _ _)
  case mov | neg | not | mul10 | shl | shr => exact .bind (h.readX_eq _) fun _ _ => .ok (h.writeX _ _)
  case div10 => exact .bind (h.readX_eq _) fun _ _ => .ok ((h.writeX _ _).setRes _)
  case fxfromi | setw | setbit => exact .bind (h.readX_eq _) fun _ _ => .bind rfl fun _ _ => .ok (h.writeX _ _)
  case idxmsb => exact .bind (h.readX_eq _) fun _ _ => .ok (h.setRes _)
  case getw | getbit => exact .bind (h.readX_eq _) fun _ _ => .bind rfl fun _ _ => .ok (h.setRes _)
  case todec | tohex => exact .bind (h.readX_eq _) fun _ _ => .putText h _
  case fxtodec => exact .bind (h.readX_eq _) fun _ _ => .bind rfl fun _ _ => .putText h _
  case fxtod rs1 f =>
    refine .bind (h.readX_eq rs1) fun a _ => .bind rfl fun _ _ => ?_
    cases fxToDouble f a with
    | some k => exact .ok (h.setRes k)
    | none => exact .ok (h.draws ▸ (h.setRes _).countDraw)
  case cmp | eq | ne => exact .bind (h.readPair_eq _ _) fun _ _ => .ok (h.setRes _)
  case add | sub | and | or | xor | mul => exact .bind (h.readPair_eq _ _) fun _ _ => .ok (h.writeX _ _)
  case div | mod => exact .bind (h.readPair_eq _ _) fun _ _ => .bind rfl fun _ _ => .ok (h.writeX _ _)
  case fxadd | fxsub | fxmul => exact .bind (h.readFxPair_eq _ _ _) fun _ _ => .ok (h.writeX _ _)
  case fxdiv => exact .bind (h.readFxPair_eq _ _ _) fun _ _ => .bind rfl fun _ _ => .ok (h.writeX _ _)

/-- Settles O60: the port shows both states the same, and what it shows takes both to states that cannot be told apart. -/
theorem unobservableStateNeverShows : Obligations.UnobservableStateNeverShows := by
  intro s s' h
  have hreceive : receive s'.rx s'.port = receive s.rx s.port := by rw [h.rx, h.port]
  rcases receive_cases s.rx s.port with ⟨words, port, hr, -⟩ | ⟨port, hr⟩ | ⟨words, hr, -⟩ <;> rw [hr] at hreceive
  · cases hd : decode words with
    | ok p =>
      obtain ⟨e, e', he, he', ha⟩ := exec_obsAgree p.1 (h.accepted port)
      rw [step_command hr hd, step_command hreceive hd, he, he']
      exact ha.finish (h.accepted port)
    | error e => exact ⟨_, _, step_illegal hr hd, step_illegal hreceive hd, (h.accepted port).completeErr _⟩
  · exact ⟨_, _, step_reset hr, step_reset hreceive, h.applyReset port⟩
  · exact ⟨_, _, step_waiting hr, step_waiting hreceive, h.waiting words⟩

end Sys2Proof.Machine

/-!
# The checks in their order (R149, R177) and single characters (R84, R85)

Every command performs its checks before it has any effect, so a failure is one fact about the first steps of its meaning: what it
checks first (`exec_of_widthField`), or what it reads first (`exec_of_two_sources`), and what that answers.
-/

namespace Sys2Proof.Machine

open Sys2Proof

/-- A check or a read that answers passes its answer on. -/
theorem bind_of_ok {α β : Type} {c : Except Err α} {a : α} (hc : c = .ok a) (k : α → Except Err β) : (c >>= k) = k a := by
  rw [hc, except_ok_bind]

/-! ### The width field (R177 step 3) -/

/-- A command with a width field checks it before everything else. -/
theorem exec_of_widthField {i : Instr} {n : Nat} (h : i.widthField = some n) (s : State) :
    ∃ k, exec i s = s.finish (checkWidth s n >>= k) := by
  cases i <;> cases h <;> exact ⟨_, rfl⟩

/-- Settles O18: the check of the width field is the first thing the command does, and it fails. -/
theorem widthFieldOutOfRangeFails : Obligations.WidthFieldOutOfRangeFails := by
  intro i s n hi hn
  obtain ⟨k, hk⟩ := exec_of_widthField hi s
  rw [State.FailsWith, hk, checkWidth_error hn, except_error_bind, State.finish_error]

/-! ### The widths of two sources (R177 step 5) -/

/-- A command with two sources reads both, and compares their widths, before everything else. -/
theorem exec_of_two_sources {i : Instr} {r1 r2 : Reg} (h : i.sources = [r1, r2]) (s : State) :
    ∃ k, exec i s = s.finish (readPair s r1 r2 >>= k) := by
  cases i <;> cases h
  case fxadd | fxsub | fxmul | fxdiv => exact ⟨_, congrArg s.finish (readFxPair_bind s _ r1 r2 _)⟩
  all_goals exact ⟨_, rfl⟩

/-- Two valid registers of different widths are no pair (R100). -/
theorem readPair_mismatch {s : State} {r1 r2 : Reg} {a b : Wide} (ha : s.Holds r1 a) (hb : s.Holds r2 b)
    (hne : a.length ≠ b.length) : readPair s r1 r2 = .error .widthMismatch := by
  rw [readPair, readX_holds ha, readX_holds hb, except_ok_bind, except_ok_bind, decide_eq_false hne, require_false,
    except_error_bind]

/-- Settles O19: the read of the pair is the first thing the command does, and it fails. -/
theorem widthMismatchFails : Obligations.WidthMismatchFails := by
  intro i s r1 r2 a b hi ha hb hne
  obtain ⟨k, hk⟩ := exec_of_two_sources hi s
  rw [State.FailsWith, hk, readPair_mismatch ha hb hne, except_error_bind, State.finish_error]

/-! ### The fraction word count (R149, R177 step 6) -/

/-- A fixed-point command checks F by n right after its width field or its sources have given it n. -/
theorem exec_of_fractionField {i : Instr} {s : State} {n f : Nat} (hi : i.fractionField = some f)
    (hw : ∀ m, i.widthField = some m → m = n ∧ 1 ≤ m ∧ m ≤ s.cfg.nmax)
    (hsrc : ∀ r ∈ i.sources, ∃ a, s.Holds r a ∧ a.length = n) : ∃ k, exec i s = s.finish (checkFraction f n >>= k) := by
  cases i <;> cases hi
  case fxfromd | fxfromdec =>
    obtain ⟨rfl, h1, h2⟩ := hw _ rfl
    exact ⟨_, congrArg s.finish (bind_of_ok (checkWidth_ok h1 h2) _)⟩
  case fxfromi rs1 | fxtod rs1 | fxtodec rs1 =>
    obtain ⟨a, ha, rfl⟩ := hsrc rs1 (List.mem_singleton_self _)
    exact ⟨_, congrArg s.finish (bind_of_ok (readX_holds ha) _)⟩
  case fxadd rs1 rs2 | fxsub rs1 rs2 | fxmul rs1 rs2 | fxdiv rs1 rs2 =>
    obtain ⟨a, ha, rfl⟩ := hsrc rs1 (List.mem_cons_self ..)
    obtain ⟨b, hb, hlen⟩ := hsrc rs2 (List.mem_cons_of_mem _ (List.mem_singleton_self _))
    have hpair : s.HoldsPair rs1 rs2 a b := ⟨ha, hb, hlen.symm⟩
    exact ⟨_, congrArg s.finish ((readFxPair_bind s f rs1 rs2 _).trans (bind_of_ok (readPair_holds hpair) _))⟩

/-- Settles O20: whatever n comes from, the check of F by it is the first one that fails. -/
theorem fractionOutOfRangeFails : Obligations.FractionOutOfRangeFails := by
  intro i s n f hi hf hw hsrc
  obtain ⟨k, hk⟩ := exec_of_fractionField hi hw hsrc
  rw [State.FailsWith, hk, checkFraction_error hf, except_error_bind, State.finish_error]

/-! ### Indexes (R177 step 6) -/

section

variable {s : State} {r : Reg} {a : Wide} (ha : s.Holds r a)
include ha

/-- GETW of a valid register checks the index and reads the word (R93). -/
theorem exec_getw_holds (index : Nat) : exec (.getw r index) s =
    s.finish (checkIndex index a.length >>= fun _ => .ok (s.setRes ((a.getD index 0).setWidth 64))) :=
  congrArg s.finish (bind_of_ok (readX_holds ha) _)

/-- SETW of a valid register checks the index and changes the word (R94). -/
theorem exec_setw_holds (index : Nat) (imm32 : Word) : exec (.setw r index imm32) s =
    s.finish (checkIndex index a.length >>= fun _ => .ok (s.writeX r (a.set index imm32))) :=
  congrArg s.finish (bind_of_ok (readX_holds ha) _)

/-- GETBIT of a valid register checks the index and reads the bit (R131). -/
theorem exec_getbit_holds (index : Nat) : exec (.getbit r index) s =
    s.finish (checkIndex index (32 * a.length) >>= fun _ => .ok (s.setRes (BitVec.ofNat 64 (bitOf a index).toNat))) :=
  congrArg s.finish (bind_of_ok (readX_holds ha) _)

/-- SETBIT of a valid register checks the index and changes the bit (R132). -/
theorem exec_setbit_holds (v : Bool) (index : Nat) : exec (.setbit v r index) s =
    s.finish (checkIndex index (32 * a.length) >>= fun _ => .ok (s.writeX r (setBitOf a index v))) :=
  congrArg s.finish (bind_of_ok (readX_holds ha) _)

end

/-- Whatever would follow the index check, an index at or beyond its bound completes with IndexRange. -/
theorem finish_checkIndex_error {s : State} {index bound : Nat} {k : Unit → Except Err State} (h : bound ≤ index) :
    s.finish (checkIndex index bound >>= k) = .next (s.completeErr .indexRange) := by
  rw [checkIndex_error h, except_error_bind, State.finish_error]

/-- An index below its bound passes the check. -/
theorem finish_checkIndex_ok {s t : State} {index bound : Nat} (h : index < bound) :
    s.finish (checkIndex index bound >>= fun _ => .ok t) = .next t.completeOk := by
  rw [checkIndex_ok h, except_ok_bind, State.finish_ok]

/-- Settles O21: SBGET reads no register, the other four check the index right after theirs. -/
theorem indexOutOfRangeFails : Obligations.IndexOutOfRangeFails := by
  refine fun s r a index imm32 v => ⟨fun h => finish_checkIndex_error h, fun ha => ⟨fun h => ⟨?getw, ?setw⟩,
    fun h => ⟨?getbit, ?setbit⟩⟩⟩
  case getw => exact (exec_getw_holds ha index).trans (finish_checkIndex_error h)
  case setw => exact (exec_setw_holds ha index imm32).trans (finish_checkIndex_error h)
  case getbit => exact (exec_getbit_holds ha index).trans (finish_checkIndex_error h)
  case setbit => exact (exec_setbit_holds ha v index).trans (finish_checkIndex_error h)

/-! ### Single characters (R84, R85) -/

/-- A character stored at SLEN stands behind the string, as long as SLEN does not wrap. -/
theorem text_appendChar {s : State} (char : Byte) (hwf : s.sb.wf = true) (hlt : s.slen.toNat + 1 < 2 ^ 16) :
    ({ s with sb := s.sb.write s.slen.toNat char, slen := s.slen + 1 } : State).text = s.text ++ [char] ∧
      (s.slen + 1).toNat = s.slen.toNat + 1 := by
  have hslen : (s.slen + 1).toNat = s.slen.toNat + 1 := by
    rw [BitVec.toNat_add]
    exact Nat.mod_eq_of_lt hlt
  refine ⟨?_, hslen⟩
  show (List.range (s.slen + 1).toNat).map (s.sb.write s.slen.toNat char).read = _
  rw [hslen, List.range_succ, List.map_append, List.map_singleton, Memory.read_write_self hwf]
  refine congrArg (· ++ [char]) (List.map_congr_left fun a ha => ?_)
  exact Memory.read_write_ne hwf char (List.mem_range.1 ha).ne

/-- The characters of the string are the bytes below SLEN (R40). -/
theorem read_of_text_getElem? {s : State} {index : Nat} {c : Byte} (h : s.text[index]? = some c) :
    index < s.slen.toNat ∧ s.sb.read index = c := by
  obtain ⟨hlt, hget⟩ := List.getElem?_eq_some_iff.1 h
  exact ⟨by simpa [State.text] using hlt, by simpa [State.text] using hget⟩

/-- Settles O25: SBPUT by the byte it stores behind the string, SBGET by the byte the string has at the index. -/
theorem stringBufferCharacters : Obligations.StringBufferCharacters := by
  refine fun s char index hcfg hwf => ⟨fun hroom => ?put, fun c hc => ?get⟩
  case put =>
    obtain ⟨htext, hslen⟩ := text_appendChar char hwf (by have := sbsize_lt_of_cfg_wf hcfg; omega)
    exact ⟨_, sbput_completes char hroom, htext, hslen, Memory.wf_write hwf _ _, rfl⟩
  case get =>
    obtain ⟨hlt, rfl⟩ := read_of_text_getElem? hc
    exact finish_checkIndex_ok hlt

end Sys2Proof.Machine

/-!
# The values of the integer commands (R90 to R94, R100 to R106, R110 to R114, R120, R121, R125 to R127, R130 to R133)

On sources that pass the checks, every command completes with the result its shape writes; the laws of the word algorithms give that
result as a number.
-/

namespace Sys2Proof.Machine

open Sys2Proof

section

variable {s : State} {i : Instr} {rd rs1 rs2 : Reg} {a b v : Wide}

/-! ### The shapes by value -/

/-- A two-register command completes with the value of its operation (R102). -/
theorem completes_unary {op : Wide → Wide} (hi : exec i s = unary op rd rs1 s) (ha : s.Holds rs1 a) (hv : op a = v) :
    s.CompletesTo i (s.withX rd v) :=
  hv ▸ hi.trans (unary_holds ha)

/-- A three-register command completes with the value of its operation (R100). -/
theorem completes_binary {op : Wide → Wide → Wide} (hi : exec i s = binary op rd rs1 rs2 s) (h : s.HoldsPair rs1 rs2 a b)
    (hv : op a b = v) : s.CompletesTo i (s.withX rd v) :=
  hv ▸ hi.trans (binary_holds h)

/-- A compare completes with the number it gives (R125). -/
theorem completes_compareTo {g : Wide → Wide → BitVec 64} {k : BitVec 64} (hi : exec i s = compareTo g rs1 rs2 s)
    (h : s.HoldsPair rs1 rs2 a b) (hk : g a b = k) : s.CompletesTo i (s.withRes k) :=
  hk ▸ hi.trans (compareTo_holds h)

end

/-! ### Construction, copy, word access (R90 to R94) -/

/-- Settles O26: the words built are those of the immediate, sign- or zero-extended. -/
theorem nativeIntegers : Obligations.NativeIntegers := by
  intro s sg rd n imm32 imm64 h1 h2
  rw [← ldi32Words_eq sg h1, ← ldi64Words_eq sg n]
  exact ⟨congrArg s.finish (bind_of_ok (checkWidth_ok h1 h2) _), congrArg s.finish (bind_of_ok (checkWidth_ok h1 h2) _)⟩

/-- Settles O27: a register read gives the words, and one of them is read or replaced. -/
theorem copyAndWordAccess : Obligations.CopyAndWordAccess := by
  intro s rd rs1 a index imm32 w ha
  refine ⟨congrArg s.finish (bind_of_ok (readX_holds ha) _), fun hw => ?_⟩
  obtain ⟨hlt, hget⟩ := List.getElem?_eq_some_iff.1 hw
  have hword : a.getD index 0 = w := by rw [List.getD_eq_getElem?_getD, hw, Option.getD_some]
  refine ⟨hword ▸ (exec_getw_holds ha index).trans (finish_checkIndex_ok hlt), a.set index imm32,
    (exec_setw_holds ha index imm32).trans (finish_checkIndex_ok hlt), List.length_set .., fun k hk => ?_⟩
  rw [List.getElem?_set]
  by_cases h : index = k
  · rw [if_pos h, if_pos h.symm, if_pos (h ▸ hk)]
  · rw [if_neg h, if_neg (Ne.symm h)]

/-! ### Add, subtract, bitwise (R100 to R106) -/

/-- Settles O28: the carry chain adds, SUB adds the negation, NEG is that negation. -/
theorem addSubNegValues : Obligations.AddSubNegValues := by
  refine fun s rd rs1 rs2 a b h => ⟨?add, ?sub, ?neg⟩
  case add => exact completes_binary (op := fun a b => addCarry a b false) rfl h (addCarry_eq_wAdd h.width)
  case sub => exact completes_binary (op := fun a b => wAdd a (wNeg b)) rfl h (wSub_eq h.width)
  case neg => exact completes_unary rfl h.first (wNeg_eq a)

/-- NOT gives 2^(32n) − 1 − U(a) (R103). -/
theorem wNot_eq_wide (a : Wide) : wNot a = wide a.length ((2 ^ (32 * a.length) : Int) - 1 - uval a) := by
  have hlt := uval_lt a
  have hvalue : (2 ^ (32 * a.length) : Int) - 1 - uval a = (wmod a.length - 1 - uval a : Nat) := by
    rw [← wmod_cast]
    omega
  apply uval_injective (by simp)
  rw [uval_wNot, hvalue, uval_wide_of_lt (by omega)]

/-- A word-by-word operation that acts bit by bit gives the number with these bits (R104 to R106). -/
theorem zipWith_eq_wide {a b : Wide} (h : a.length = b.length) (f : Word → Word → Word) (g : Bool → Bool → Bool) (m : Nat)
    (hf : ∀ (u v : Word) (j : Nat), j < 32 → (f u v).getLsbD j = g (u.getLsbD j) (v.getLsbD j))
    (hm : ∀ j, m.testBit j = g ((uval a).testBit j) ((uval b).testBit j)) : List.zipWith f a b = wide a.length m := by
  refine eq_wide_of_bits (by rw [List.length_zipWith, ← h, Nat.min_self]) fun j hj => ?_
  rw [bitOf_zipWith h f g hf hj, hm, testBit_uval, testBit_uval]

/-- Settles O29: NOT by its number, the others bit by bit. -/
theorem bitwiseValues : Obligations.BitwiseValues := by
  refine fun s rd rs1 rs2 a b h => ⟨completes_unary rfl h.first (wNot_eq_wide a), completes_binary rfl h ?and,
    completes_binary rfl h ?or, completes_binary rfl h ?xor⟩
  case and => exact zipWith_eq_wide h.width _ and _ (fun _ _ _ _ => BitVec.getLsbD_and) fun _ => Nat.testBit_and ..
  case or => exact zipWith_eq_wide h.width _ or _ (fun _ _ _ _ => BitVec.getLsbD_or) fun _ => Nat.testBit_or ..
  case xor => exact zipWith_eq_wide h.width _ xor _ (fun _ _ _ _ => BitVec.getLsbD_xor) fun _ => Nat.testBit_xor ..

/-! ### Multiply, divide (R110 to R114) -/

/-- Settles O30: the schoolbook product, signed or not. -/
theorem multiplyValue : Obligations.MultiplyValue := fun _ sg _ _ _ _ _ h =>
  completes_binary rfl h (mulWords_eq h.width sg)

/-- A divisor other than zero passes its check. -/
theorem finish_checkDivisor_ok {s t : State} {b : Wide} (hb : uval b ≠ 0) :
    s.finish (checkDivisor b >>= fun _ => .ok t) = .next t.completeOk := by
  rw [checkDivisor_ok hb, except_ok_bind, State.finish_ok]

/-- Settles O31: past the divisor check, the value of `divmod`, unsigned and signed. -/
theorem divideValues : Obligations.DivideValues := by
  intro s rd rs1 rs2 a b h hb
  have hdiv : ∀ sg, s.CompletesTo (.div sg rd rs1 rs2) (s.withX rd (divmod sg a b).1) := fun sg =>
    (exec_div_holdsPair sg rd h).trans (finish_checkDivisor_ok hb)
  have hmod : ∀ sg, s.CompletesTo (.mod sg rd rs1 rs2) (s.withX rd (divmod sg a b).2) := fun sg =>
    (exec_mod_holdsPair sg rd h).trans (finish_checkDivisor_ok hb)
  have hu := divmod_false (a := a) hb
  have hs := divmod_true (a := a) hb
  refine ⟨?_, ?_, ?_, ?_⟩
  · simpa only [hu] using hdiv false
  · simpa only [hu] using hmod false
  · simpa only [hs] using hdiv true
  · simpa only [hs] using hmod true

/-- Settles O32: MUL10 by its value, DIV10 by its definition. -/
theorem timesTenAndDivideByTen : Obligations.TimesTenAndDivideByTen := fun s _ _ a ha =>
  ⟨completes_unary rfl ha (mul10Words_eq a), congrArg s.finish (bind_of_ok (readX_holds ha) _)⟩

/-! ### Shifts and compares (R120, R121, R125 to R127) -/

/-- Settles O34: the word shifts by their values, for every count. -/
theorem shiftValues : Obligations.ShiftValues := by
  refine fun s rd rs1 a count ha => ⟨completes_unary rfl ha (shlWords_eq a count), completes_unary rfl ha ?_,
    completes_unary rfl ha (shrWords_eq true a count)⟩
  rw [shrWords_eq, if_neg Bool.false_ne_true, Int.natCast_ediv, Nat.cast_pow, Nat.cast_ofNat]

/-- Settles O36: CMP is a sign of a difference, which is zero exactly where the words are the same. -/
theorem compareValues : Obligations.CompareValues := by
  intro s rs1 rs2 a b h
  have hcmp := fun sg => completes_compareTo (i := .cmp sg rs1 rs2)
    (g := fun a b => BitVec.ofInt 64 (compareWords sg a b)) rfl h (congrArg _ (compareWords_eq h.width sg))
  refine ⟨hcmp false, hcmp true, completes_compareTo (g := fun a b => if ucmp a b = 0 then 1 else 0) rfl h ?eq,
    completes_compareTo (g := fun a b => if ucmp a b ≠ 0 then 1 else 0) rfl h ?ne⟩
  case eq => simp only [ucmp_eq_zero_iff h.width]
  case ne => simp only [ne_eq, ucmp_eq_zero_iff h.width, ite_not]

/-! ### Cast and bit access (R130 to R133) -/

/-- Settles O37: the width check, the read, and the value of the cast. -/
theorem castValue : Obligations.CastValue := by
  intro s sg rd rs1 a m ha h1 h2
  rw [← wCast_eq]
  exact (congrArg s.finish (bind_of_ok (checkWidth_ok h1 h2) _)).trans (congrArg s.finish (bind_of_ok (readX_holds ha) _))

/-- Settles O38: GETBIT gives the bit of U, SETBIT changes that bit and no other. -/
theorem bitAccess : Obligations.BitAccess := by
  intro s r a index v ha hlt
  have hbit : BitVec.ofNat 64 (bitOf a index).toNat = if (uval a).testBit index then 1 else 0 := by
    rw [testBit_uval]
    cases bitOf a index <;> rfl
  refine ⟨hbit ▸ (exec_getbit_holds ha index).trans (finish_checkIndex_ok hlt), setBitOf a index v,
    (exec_setbit_holds ha v index).trans (finish_checkIndex_ok hlt), length_setBitOf a index v, fun k => ?_⟩
  rw [testBit_uval, testBit_uval, bitOf_setBitOf v hlt]

/-- IDXMSB of a valid register completes with the number `msbIndex` gives (R133). -/
theorem exec_idxmsb_holds {s : State} {rs1 : Reg} {a : Wide} (ha : s.Holds rs1 a) :
    s.CompletesTo (.idxmsb rs1) (s.withRes (msbIndex a)) :=
  congrArg s.finish (bind_of_ok (readX_holds ha) _)

/-- Settles O39: no highest bit for zero, else the one between the powers of two. -/
theorem highestBitIndex : Obligations.HighestBitIndex := by
  refine fun s rs1 a ha => ⟨fun h0 => ?zero, fun b h1 h2 => ?some⟩
  case zero =>
    have hnone : msbIndex a = BitVec.ofNat 64 (2 ^ 64 - 1) := by
      rw [msbIndex, (topBit_eq_none_iff_uval a).2 h0]
      rfl
    exact hnone ▸ exec_idxmsb_holds ha
  case some =>
    have htop := (topBit_eq_some_iff_uval a b).2 ⟨h1, h2⟩
    have hsome : msbIndex a = BitVec.ofNat 64 b := by rw [msbIndex, htop]
    exact ⟨((topBit_eq_some_iff a _ b).1 htop).1, hsome ▸ exec_idxmsb_holds ha⟩

end Sys2Proof.Machine

/-!
# Text (R13, R53, R140, R142, R144, R146, R147)

A renderer that fits completes with its text stored, so its statement is about the text. A parser completes as the parse of the
string does, and the parse is decided by the digits: none, some that are no digits, or digits alone.
-/

namespace Sys2Proof.Machine

open Sys2Proof

/-! ### Rendering -/

/-- Settles O40: the text TODEC stores is the sign and the library's numeral. -/
theorem decimalText : Obligations.DecimalText := by
  intro s sg rs1 a text ha htext hfits
  have hdec : text = decText sg a := by rw [htext, decText_eq, decimal_eq (magnitude_lt sg a), chMinus]
  rw [State.CompletesTo, exec_todec_holds sg ha, ← hdec, finish_putText_fits hfits]

/-- The hexadecimal characters are those of the string "0123456789abcdef" (R142). -/
theorem hexChar_eq_ascii {d : Nat} (hd : d < 16) : (asciiOf "0123456789abcdef".toList)[d]? = some (hexChar d) := by
  have hall : ∀ d : Fin 16, (asciiOf "0123456789abcdef".toList)[d.val]? = some (hexChar d.val) := by decide
  exact hall ⟨d, hd⟩

/-- The characters of the text of TOHEX, from the most significant nibble on (R142). -/
theorem getElem?_hexText {a : Wide} {k : Nat} (hk : k < 8 * a.length) :
    (hexText a)[k]? = (asciiOf "0123456789abcdef".toList)[uval a / 16 ^ (8 * a.length - 1 - k) % 16]? := by
  rw [hexChar_eq_ascii (Nat.mod_lt _ (by decide)), hexText, List.getElem?_map, List.getElem?_range hk, Option.map_some, pow_mul]
  rfl

/-- Settles O41: the text TOHEX stores is the one with these characters. -/
theorem hexText_completes : Obligations.HexText := by
  intro s rs1 a text ha hlen hchars hfits
  have hhex : text = hexText a := by
    refine List.ext_getElem? fun k => ?_
    rcases lt_or_ge k (8 * a.length) with hk | hk
    · rw [hchars k hk, getElem?_hexText hk]
    · rw [List.getElem?_eq_none (hlen ▸ hk), List.getElem?_eq_none (by rwa [length_hexText])]
  rw [State.CompletesTo, exec_tohex_holds ha, ← hhex, finish_putText_fits (hlen ▸ hfits)]

/-- Settles O42: the written bytes read as the text, the others as before. -/
theorem textIsStored : Obligations.TextIsStored := by
  intro s text hcfg hwf hfits
  have hlt := hfits.trans_lt (sbsize_lt_of_cfg_wf hcfg)
  refine ⟨setText_text hlt hwf, ?_, Memory.wf_writeBytes hwf 0 text, fun a ha => ?_, rfl⟩
  · rw [State.setText_slen, BitVec.toNat_ofNat, Nat.mod_eq_of_lt hlt]
  · exact Memory.read_writeBytes_outside hwf 0 text (.inr (by rwa [Nat.zero_add]))

/-! ### The lengths of texts (R53) -/

theorem length_decLoop_le {fuel k d : Nat} (h : k < 10 ^ d) : (decLoop fuel k).length ≤ d := by
  induction fuel generalizing k d with
  | zero => exact Nat.zero_le _
  | succ fuel ih =>
    rw [decLoop]
    split
    · exact Nat.zero_le _
    · cases d with
      | zero => omega
      | succ d => exact Nat.succ_le_succ (ih (by rw [pow_succ] at h; omega))

/-- A number below 10^d has at most d digits, zero one. -/
theorem length_decimal_le {fuel k d : Nat} (hd : 1 ≤ d) (h : k < 10 ^ d) : (decimal fuel k).length ≤ d := by
  unfold decimal
  split
  · exact hd
  · rw [List.length_reverse]
    exact length_decLoop_le h

/-- A sign is at most one character. -/
theorem length_sign_le (p : Prop) [Decidable p] : (if p then [chMinus] else []).length ≤ 1 := by
  split <;> decide

/-- A number of w words has at most 10·w decimal digits, as 2^32 < 10^10. -/
theorem two_pow_words_le (w : Nat) : 2 ^ (32 * w) ≤ 10 ^ (10 * w) := by
  rw [pow_mul, pow_mul]
  exact Nat.pow_le_pow_left (by decide) w

/-- Numbers of up to 16 words have at most 155 digits, as 2^93 < 10^28. -/
theorem two_pow_words_le_of_le_16 {n : Nat} (h : n ≤ 16) : 2 ^ (32 * n) ≤ 10 ^ 155 := calc
  2 ^ (32 * n) ≤ 2 ^ (93 * 5 + 47) := pow_le_pow_right₀ one_le_two (by omega)
  _ = (2 ^ 93) ^ 5 * 2 ^ 47 := by rw [pow_add, pow_mul]
  _ ≤ (10 ^ 28) ^ 5 * 10 ^ 15 := Nat.mul_le_mul (Nat.pow_le_pow_left (by norm_num) 5) (by norm_num)
  _ = 10 ^ 155 := by rw [← pow_mul, ← pow_add]

/-- Up to 16 words, TODEC's text is a sign and at most 155 digits. -/
theorem length_decText_le {a : Wide} (h : a.length ≤ 16) (sg : Bool) : (decText sg a).length ≤ 156 := by
  have hmag := (magnitude_lt sg a).trans_le (two_pow_words_le_of_le_16 h)
  have hsign := length_sign_le (sg = true ∧ sval a < 0)
  have hdigits := length_decimal_le (fuel := 32 * a.length) (by decide) hmag
  rw [decText_eq, List.length_append]
  omega

/-- A sign, 10 digits a whole word, the point, and 32 digits a fraction word. -/
theorem length_fxText_le {a : Wide} {f : Nat} (h1 : 1 ≤ f) (h2 : f < a.length) :
    (fxText f a).length ≤ 2 + 10 * (a.length - f) + 32 * f := by
  have hwhole : (sval a).natAbs / 2 ^ (32 * f) < 10 ^ (10 * (a.length - f)) := by
    refine lt_of_lt_of_le ?_ (two_pow_words_le _)
    rw [Nat.div_lt_iff_lt_mul (Nat.two_pow_pos _), ← pow_add, ← Nat.mul_add, Nat.sub_add_cancel h2.le]
    exact magnitude_lt true a
  have hsign := length_sign_le (sval a < 0)
  have hdigits := length_decimal_le (fuel := 32 * a.length) (by omega) hwhole
  obtain ⟨-, -, hfrac, -⟩ := fxFraction_spec h1 (sval a).natAbs
  rw [fxText_eq, List.length_append, List.length_append, List.length_cons]
  omega

/-- Settles O46: 155 digits of 16 words; for FXTODEC, with W whole words and F, at most 2 + 10W + 32F characters. -/
theorem renderedLengths : Obligations.RenderedLengths := by
  intro a sg f _ h16
  refine ⟨length_decText_le h16 sg, length_hexText a, by rw [length_hexText]; omega, fun h1 h2 => ?_⟩
  have := length_fxText_le h1 h2
  omega

/-! ### Parsing -/

/-- A sign alone is no decimal text (R144). -/
theorem parseDec_empty {n : Nat} {neg : Bool} {ds : List Byte} (hs : neg = false → ds.head? ≠ some chMinus) (h : ds = []) :
    parseDec n ((if neg then [chMinus] else []) ++ ds) = .error .badFormat := by
  rw [parseDec, splitSign_text hs, h]
  rfl

/-- A character that is no digit makes the text no decimal text (R144). -/
theorem parseDec_invalid {n : Nat} {neg : Bool} {ds : List Byte} (hs : neg = false → ds.head? ≠ some chMinus)
    (h : ∃ c ∈ ds, ¬ isDecDigit c) : parseDec n ((if neg then [chMinus] else []) ++ ds) = .error .invalidDigit := by
  have hne : (!ds.isEmpty) = true := by
    obtain ⟨c, hc, -⟩ := h
    simpa using List.ne_nil_of_mem hc
  rw [parseDec, splitSign_text hs]
  simp only [hne, require_true, except_ok_bind, parseDecDigits_error h, except_error_bind]

/-- Settles O43: the parse of the string, by its digits. -/
theorem decimalParse : Obligations.DecimalParse := by
  intro s rd n neg ds h1 h2 htext hs
  have hexec := exec_fromdec_width rd h1 h2
  rw [show s.text = (if neg then [chMinus] else []) ++ ds from htext] at hexec
  refine ⟨fun h => ?empty, fun h => ?invalid, fun hne h => ?digits⟩
  case empty => exact hexec.trans (by rw [parseDec_empty hs h]; rfl)
  case invalid => exact hexec.trans (by rw [parseDec_invalid hs h]; rfl)
  case digits => exact hexec.trans (by rw [parseDec_ok hs hne h]; rfl)

section

variable {upper neg : Bool} {n : Nat} {body ds : List Byte} (hs : neg = false → body.head? ≠ some chMinus)
include hs

/-- Without "0x" the text is no hexadecimal text (R146, R147). -/
theorem parseHex_noPrefix (h : ¬ ∃ ds, body = 0x30 :: 0x78 :: ds ∨ (upper = true ∧ body = 0x30 :: 0x58 :: ds)) :
    parseHex upper n ((if neg then [chMinus] else []) ++ body) = .error .badFormat := by
  rw [parseHex, splitSign_text hs]
  simp only [stripHexPrefix_error h, except_error_bind]

variable (hb : body = 0x30 :: 0x78 :: ds ∨ (upper = true ∧ body = 0x30 :: 0x58 :: ds))
include hb

/-- "0x" alone is no hexadecimal text (R146). -/
theorem parseHex_empty (h : ds = []) : parseHex upper n ((if neg then [chMinus] else []) ++ body) = .error .badFormat := by
  rw [parseHex, splitSign_text hs]
  simp only [stripHexPrefix_ok hb, h, except_ok_bind]
  rfl

/-- A character that is no hexadecimal digit makes the text no hexadecimal text (R146, R147). -/
theorem parseHex_invalid (h : ∃ c ∈ ds, ¬ isHexDigit upper c) :
    parseHex upper n ((if neg then [chMinus] else []) ++ body) = .error .invalidHexDigit := by
  have hne : (!ds.isEmpty) = true := by
    obtain ⟨c, hc, -⟩ := h
    simpa using List.ne_nil_of_mem hc
  rw [parseHex, splitSign_text hs]
  simp only [stripHexPrefix_ok hb, hne, require_true, except_ok_bind, parseHexDigits_error h, except_error_bind]

end

/-- Settles O44: the parse of the string, by what stands before the digits and by the digits. -/
theorem hexParse : Obligations.HexParse := by
  intro s rd n neg body h1 h2 htext hs
  have hexec := exec_fromhex_width rd h1 h2
  rw [show s.text = (if neg then [chMinus] else []) ++ body from htext] at hexec
  refine ⟨fun h => ?noPrefix, fun ds hb => ⟨fun h => ?empty, fun h => ?invalid, fun hne h => ?digits⟩⟩
  case noPrefix => exact hexec.trans (by rw [parseHex_noPrefix hs h]; rfl)
  case empty => exact hexec.trans (by rw [parseHex_empty hs hb h]; rfl)
  case invalid => exact hexec.trans (by rw [parseHex_invalid hs hb h]; rfl)
  case digits => exact hexec.trans (by rw [parseHex_ok hs hb hne h]; rfl)

end Sys2Proof.Machine

/-!
# Fixed point (R149 to R154, R160 to R168)

Past its checks each command completes with the value of one function on wide values, so its statement is about that function. FXTOD
takes the exponent from the leading bit of the magnitude, which bounds it by the width (R163); FXTODEC and FXFROMDEC meet in the
digits of the fraction, which denote it exactly (R166).
-/

namespace Sys2Proof.Machine

open Sys2Proof

/-! ### Arithmetic (R150 to R154) -/

section

variable {s : State} {rs1 rs2 : Reg} {a b : Wide} {f : Nat} (h : s.HoldsPair rs1 rs2 a b) (h1 : 1 ≤ f) (h2 : f < a.length)
include h h1 h2

theorem exec_fxfromi_holds (rd : Reg) : s.CompletesTo (.fxfromi rd rs1 f) (s.withX rd (wShl a (32 * f))) :=
  (congrArg s.finish (bind_of_ok (readX_holds h.first) _)).trans (congrArg s.finish (bind_of_ok (checkFraction_ok h1 h2) _))

theorem exec_fxadd_holdsPair (rd : Reg) : s.CompletesTo (.fxadd rd rs1 rs2 f) (s.withX rd (wAdd a b)) :=
  congrArg s.finish (bind_of_ok (readFxPair_holds h h1 h2) _)

theorem exec_fxsub_holdsPair (rd : Reg) : s.CompletesTo (.fxsub rd rs1 rs2 f) (s.withX rd (wSub a b)) :=
  congrArg s.finish (bind_of_ok (readFxPair_holds h h1 h2) _)

theorem exec_fxmul_holdsPair (rd : Reg) : s.CompletesTo (.fxmul rd rs1 rs2 f) (s.withX rd (fxMulWords f a b)) :=
  congrArg s.finish (bind_of_ok (readFxPair_holds h h1 h2) _)

end

/-- Settles O47: shift, sum and difference by the signed readings, which represent the same values (R12). -/
theorem fixedFromIntegerAddSub : Obligations.FixedFromIntegerAddSub := by
  intro s rd rs1 rs2 f a b h h1 h2
  have ha := wide_sval a
  have hb : wide a.length (sval b) = b := h.width ▸ wide_sval b
  have hshl : wShl a (32 * f) = wide a.length (sval a * 2 ^ (32 * f)) := by rw [← wShl_wide, ha]
  have hadd : wAdd a b = wide a.length (sval a + sval b) := by rw [← wAdd_wide, ha, hb]
  have hsub : wSub a b = wide a.length (sval a - sval b) := by
    rw [wSub, sub_eq_add_neg, ← wAdd_wide, ← wNeg_wide, ha, hb]
  rw [← hshl, ← hadd, ← hsub]
  exact ⟨exec_fxfromi_holds h h1 h2 rd, exec_fxadd_holdsPair h h1 h2 rd, exec_fxsub_holdsPair h h1 h2 rd⟩

/-- Settles O48: the widened product, shifted and narrowed, by its value. -/
theorem fixedMultiply : Obligations.FixedMultiply := by
  intro s rd rs1 rs2 f a b h h1 h2
  rw [← fxMulWords_eq]
  exact exec_fxmul_holdsPair h h1 h2 rd

/-- Settles O49: past the divisor check, the widened quotient by its value. -/
theorem fixedDivide : Obligations.FixedDivide := by
  intro s rd rs1 rs2 f a b h h1 h2 hb
  rw [← fxDivWords_eq h.width hb h1 h2]
  exact (exec_fxdiv_holdsPair rd h h1 h2).trans (finish_checkDivisor_ok hb)

/-! ### From a double (R160, R161) -/

section

variable {s : State} {n f : Nat} (rd : Reg) {d : BitVec 64} (h1 : 1 ≤ f) (h2 : f < n) (h3 : n ≤ s.cfg.nmax)
include h1 h2 h3

/-- FXFROMD, past its checks, completes as the conversion of the pattern says. -/
theorem exec_fxfromd_checked : exec (.fxfromd rd n f d) s = s.finish
    (match fxFromDouble n f d with
      | some v => .ok (s.writeX rd v)
      | none => .ok (s.writeX rd ((List.range n).map (Config.freeWord s.draws))).countDraw) := by
  rw [exec, execFxfromd, checkWidth_ok (by omega) h3, except_ok_bind, checkFraction_ok h1 h2, except_ok_bind]
  rfl

theorem exec_fxfromd_some {v : Wide} (hv : fxFromDouble n f d = some v) :
    s.CompletesTo (.fxfromd rd n f d) (s.withX rd v) := by
  rw [State.CompletesTo, exec_fxfromd_checked rd h1 h2 h3, hv]
  rfl

theorem exec_fxfromd_none (hv : fxFromDouble n f d = none) : s.CompletesTo (.fxfromd rd n f d)
    { s.withX rd ((List.range n).map (Config.freeWord s.draws)) with draws := s.draws + 1 } := by
  rw [State.CompletesTo, exec_fxfromd_checked rd h1 h2 h3, hv]
  rfl

end

/-- Settles O50: by the exponent field, zero, the scaled mantissa, or the free words of a draw. -/
theorem fixedFromDouble : Obligations.FixedFromDouble := by
  refine fun s rd n f d h1 h2 h3 => ⟨fun h0 => ?zero, fun h0 h2047 => ?normal, fun h2047 => ?draw⟩
  case zero => exact exec_fxfromd_some rd h1 h2 h3 (fxFromDouble_zero h0)
  case normal => exact exec_fxfromd_some rd h1 h2 h3 (fxFromDouble_normal (by omega) h0 h2047)
  case draw => exact ⟨_, by simp, exec_fxfromd_none rd h1 h2 h3 (fxFromDouble_open h2047)⟩

/-! ### To a double (R162, R163) -/

section

variable {s : State} {rs1 : Reg} {f : Nat} {a : Wide} (ha : s.Holds rs1 a) (h1 : 1 ≤ f) (h2 : f < a.length)
include ha h1 h2

/-- FXTOD, past its checks, completes as the conversion of the value says. -/
theorem exec_fxtod_checked : exec (.fxtod rs1 f) s = s.finish
    (match fxToDouble f a with
      | some k => .ok (s.setRes k)
      | none => .ok (s.setRes (Config.freeRes s.draws)).countDraw) := by
  rw [exec, execFxtod, readX_holds ha, except_ok_bind, checkFraction_ok h1 h2, except_ok_bind]
  rfl

theorem exec_fxtod_some {k : BitVec 64} (hk : fxToDouble f a = some k) : s.CompletesTo (.fxtod rs1 f) (s.withRes k) := by
  rw [State.CompletesTo, exec_fxtod_checked ha h1 h2, hk]
  rfl

theorem exec_fxtod_none (hk : fxToDouble f a = none) :
    s.CompletesTo (.fxtod rs1 f) { s.withRes (Config.freeRes s.draws) with draws := s.draws + 1 } := by
  rw [State.CompletesTo, exec_fxtod_checked ha h1 h2, hk]
  rfl

end

/-- Settles O51: +0.0 for zero, else the pattern composed from the leading bit where the exponent allows it. -/
theorem fixedToDouble : Obligations.FixedToDouble := by
  intro s rs1 f a ha h1 h2
  refine ⟨fun h0 => exec_fxtod_some ha h1 h2 (fxToDouble_zero h0), fun p hp1 hp2 => ⟨fun e1 e2 => ?normal, fun he =>
    ⟨_, exec_fxtod_none ha h1 h2 (fxToDouble_open hp1 hp2 he)⟩⟩⟩
  case normal =>
    obtain ⟨hmant, hlow, hhigh⟩ := fxMantissa_eq hp1 hp2
    have hexp : p + 1023 - 32 * f < 2 ^ 11 := by omega
    have hman := Nat.mod_lt (fxMantissa (sval a).natAbs p) (Nat.two_pow_pos 52)
    refine ⟨_, exec_fxtod_some ha h1 h2 (fxToDouble_normal hp1 hp2 e1 e2), ?_, dexp_dcompose hexp hman, ?_⟩
    · rw [dsign_dcompose hexp hman, Bool.eq_iff_iff, decide_eq_true_eq, signBit_iff_sval_neg]
    · rw [dman_dcompose hman, ← hmant]
      omega

/-- The leading bit of a magnitude is below the width. -/
theorem lt_width_of_two_pow_le {a : Wide} {p : Nat} (h : 2 ^ p ≤ (sval a).natAbs) : p < 32 * a.length :=
  (Nat.pow_lt_pow_iff_right Nat.one_lt_two).1 (h.trans_lt (magnitude_lt true a))

/-- The exponent of FXTOD lies between those of the lowest and the highest bit (R163). -/
theorem fxExponent_range {a : Wide} {W F p : Nat} (hlen : a.length = W + F) (hp : 2 ^ p ≤ (sval a).natAbs) :
    1023 - 32 * (F : Int) ≤ fxExponent F p ∧ fxExponent F p ≤ 1022 + 32 * (W : Int) := by
  have := lt_width_of_two_pow_le hp
  unfold fxExponent
  omega

/-- The value 1 has its leading bit at 0. -/
theorem sval_wide_one {n : Nat} (hn : 1 ≤ n) : sval (wide n 1) = 1 := by
  have hone : (1 : Int) < 2 ^ (32 * n - 1) := one_lt_pow₀ one_lt_two (by omega)
  exact sval_wide hn (by linarith) hone

/-- The most negative value has its leading bit at 32·n − 1. -/
theorem sval_wide_most_negative {n : Nat} (hn : 1 ≤ n) : sval (wide n (-2 ^ (32 * n - 1))) = -2 ^ (32 * n - 1) := by
  have hpos : (0 : Int) < 2 ^ (32 * n - 1) := by positivity
  exact sval_wide hn le_rfl (by linarith)

/-- Settles O52: the bounds by the width; they are met by the value 1 and by the most negative value. -/
theorem exponentRange : Obligations.ExponentRange := by
  refine ⟨fun W F hW hF => ⟨⟨fun h => ?legal, fun h a hlen p hp _ => ?bounded⟩, fun a hlen p hp _ => fxExponent_range hlen hp⟩,
    fun s rs1 f p a ha h1 h2 hp1 hp2 he => ?draw⟩
  case legal =>
    have hn : 1 ≤ W + F := by omega
    have hlow := h (wide (W + F) 1) (length_wide _ _) 0 (by rw [sval_wide_one hn]; decide) (by rw [sval_wide_one hn]; decide)
    have hmag : (sval (wide (W + F) (-2 ^ (32 * (W + F) - 1)))).natAbs = 2 ^ (32 * (W + F) - 1) := by
      rw [sval_wide_most_negative hn, Int.natAbs_neg, Int.natAbs_pow]
      rfl
    have hhigh := h _ (length_wide _ _) (32 * (W + F) - 1) hmag.ge
      (by rw [hmag]; exact Nat.pow_lt_pow_right Nat.one_lt_two (Nat.lt_succ_self _))
    unfold fxExponent at hlow hhigh
    omega
  case bounded =>
    have := fxExponent_range hlen hp
    omega
  case draw =>
    have := fxExponent_range (W := a.length - f) (F := f) (by omega) hp1
    refine ⟨by omega, _, exec_fxtod_none ha h1 h2 (fxToDouble_open hp1 hp2 ?_)⟩
    unfold fxExponent at he
    omega

/-! ### Decimal text (R165 to R168) -/

/-- Settles O54: the digits are those of the fraction loop, the text is the one FXTODEC stores. -/
theorem fixedText : Obligations.FixedText := by
  intro s rs1 f a ha h1 h2
  obtain ⟨hdigits, hpos, hlen, hlast, hvalue⟩ := fxFraction_spec h1 (sval a).natAbs
  refine ⟨fxFraction f (sval a).natAbs, hdigits, hpos, hlen, hlast, hvalue, fun text htext hfits => ?_⟩
  have hwhole : (sval a).natAbs / 2 ^ (32 * f) < 2 ^ (32 * a.length) := (Nat.div_le_self _ _).trans_lt (magnitude_lt true a)
  have hfx : text = fxText f a := by
    rw [htext, fxText_eq, decimal_eq hwhole, List.append_assoc, List.append_assoc]
    rfl
  rw [State.CompletesTo, exec_fxtodec_holds ha h1 h2, ← hfx, finish_putText_fits hfits]

/-- FXFROMDEC writes what the parse of the string answers (R167). -/
theorem exec_fxfromdec_width {s : State} (rd : Reg) {n f : Nat} (h1 : 1 ≤ f) (h2 : f < n) (h3 : n ≤ s.cfg.nmax) :
    exec (.fxfromdec rd n f) s = s.finish (parseFx n f s.text >>= fun v => .ok (s.writeX rd v)) := by
  rw [exec, execFxfromdec, checkWidth_ok (by omega) h3, except_ok_bind, checkFraction_ok h1 h2, except_ok_bind]
  rfl

end Sys2Proof.Machine

/-!
# The parse of fixed-point text and its round trip (R167)

The text is cut where the parser cuts it: sign, whole part, and what follows. Either part fails by its first character that is no
digit or by having no character, and two good parts denote the value; the text FXTODEC writes has two good parts.
-/

namespace Sys2Proof.Machine

open Sys2Proof

/-! ### Texts that are refused -/

/-- What follows the whole part: nothing, or the point and the fraction characters (R167). -/
def fracTail (frac : Option (List Byte)) : List Byte := (frac.map (fun ds => chPoint :: ds)).getD []

/-- It is empty or begins with the point. -/
theorem fracTail_cases (frac : Option (List Byte)) : fracTail frac = [] ∨ ∃ cs, fracTail frac = chPoint :: cs := by
  cases frac with
  | none => exact .inl rfl
  | some ds => exact .inr ⟨ds, rfl⟩

/-- It does not begin with '-', so a whole part that does not is no sign either. -/
theorem head?_append_fracTail {neg : Bool} {is : List Byte} (hs : neg = false → is.head? ≠ some chMinus)
    (frac : Option (List Byte)) : neg = false → (is ++ fracTail frac).head? ≠ some chMinus := by
  intro hneg
  cases is with
  | nil => rcases fracTail_cases frac with h | ⟨cs, h⟩ <;> simp [h, chPoint, chMinus]
  | cons c cs => exact hs hneg

section

variable {n f : Nat} {neg : Bool} {is : List Byte} (hs : neg = false → is.head? ≠ some chMinus) (frac : Option (List Byte))
include hs

/-- A character of the whole part that is no digit (R167). -/
theorem parseFx_invalid_whole (h : ∃ c ∈ is, ¬ isDecDigit c) (hp : chPoint ∉ is) :
    parseFx n f ((if neg then [chMinus] else []) ++ (is ++ fracTail frac)) = .error .invalidDigit := by
  rw [parseFx, splitSign_text (head?_append_fracTail hs frac)]
  simp only [parseWhole_error h hp, except_error_bind]

/-- No whole part (R167). -/
theorem parseFx_empty_whole (h : is = []) :
    parseFx n f ((if neg then [chMinus] else []) ++ (is ++ fracTail frac)) = .error .badFormat := by
  have hw := parseWhole_ok (is := []) (by simp) (fracTail_cases frac) 0 0
  rw [parseFx, splitSign_text (head?_append_fracTail hs frac), h]
  simp only [hw, except_ok_bind]
  rfl

variable (hne : is ≠ []) (h : ∀ c ∈ is, isDecDigit c)
include hne h

/-- After a good whole part, a failure is that of what follows it (R167). -/
theorem parseFx_error_tail {e : Err} (ht : parseTail (fracTail frac) = .error e) :
    parseFx n f ((if neg then [chMinus] else []) ++ (is ++ fracTail frac)) = .error e := by
  have hw := parseWhole_ok h (fracTail_cases frac) 0 0
  have hl : decide (0 + is.length ≠ 0) = true := by simpa using hne
  rw [parseFx, splitSign_text (head?_append_fracTail hs frac)]
  simp only [hw, except_ok_bind, hl, require_true, ht, except_error_bind]

/-- Two good parts denote their value; no fraction part is a fraction of zero (R167). -/
theorem parseFx_ok (hfrac : frac ≠ some []) (h' : ∀ c ∈ frac.getD [], isDecDigit c) :
    parseFx n f ((if neg then [chMinus] else []) ++ (is ++ fracTail frac)) =
      .ok (wide n ((if neg then -1 else 1) *
        (decValue is * 2 ^ (32 * f) + decValue (frac.getD []) * 2 ^ (32 * f) / 10 ^ (frac.getD []).length : Nat))) := by
  cases frac with
  | none => simpa [fracTail, decValue] using parseFx_whole (n := n) (f := f) hs hne h
  | some ds =>
    exact parseFx_point (head?_append_fracTail hs (some ds)) hne h (fun e => hfrac (congrArg some e)) h'

end

/-- A fraction part with a character that is no digit (R167). -/
theorem parseTail_invalid {ds : List Byte} (h : ∃ c ∈ ds, ¬ isDecDigit c) :
    parseTail (fracTail (some ds)) = .error .invalidDigit := by
  cases ds with
  | nil => simp at h
  | cons c cs => exact parseFrac_error h 0 0

/-- Settles O55: the parse of the string, by its whole part and then by what follows it. -/
theorem fixedParse : Obligations.FixedParse := by
  intro s rd n f neg is frac h1 h2 h3 hpoint hs htext
  have hexec := exec_fxfromdec_width rd h1 h2 h3
  rw [show s.text = (if neg then [chMinus] else []) ++ (is ++ fracTail frac) from htext.trans (List.append_assoc ..)] at hexec
  refine ⟨fun h => ?invalid, fun h => ?empty, fun hne h => ⟨fun hf => ?emptyFrac, fun ds hf h' => ?invalidFrac,
    fun hf h' => ?digits⟩⟩
  case invalid => exact hexec.trans (by rw [parseFx_invalid_whole hs frac h hpoint]; rfl)
  case empty => exact hexec.trans (by rw [parseFx_empty_whole hs frac h]; rfl)
  case emptyFrac => exact hexec.trans (by rw [parseFx_error_tail hs frac hne h (e := .badFormat) (by rw [hf]; rfl)]; rfl)
  case invalidFrac => exact hexec.trans (by rw [parseFx_error_tail hs frac hne h (hf ▸ parseTail_invalid h')]; rfl)
  case digits => exact hexec.trans (by rw [parseFx_ok hs frac hne h hf h']; rfl)

/-! ### The round trip -/

/-- Whole part and fraction digits of a magnitude denote it exactly (R166, R167). -/
theorem whole_add_fraction {f : Nat} (h1 : 1 ≤ f) (m : Nat) :
    m / 2 ^ (32 * f) * 2 ^ (32 * f) + decValue (fxFraction f m) * 2 ^ (32 * f) / 10 ^ (fxFraction f m).length = m := by
  obtain ⟨-, -, -, -, hvalue⟩ := fxFraction_spec h1 m
  rw [hvalue, Nat.mul_div_cancel _ (pow_pos (by decide) _), Nat.div_add_mod']

/-- The text FXTODEC writes for a parses to a (R167). -/
theorem parseFx_fxText {f : Nat} (h1 : 1 ≤ f) (a : Wide) : parseFx a.length f (fxText f a) = .ok a := by
  have hwhole : (sval a).natAbs / 2 ^ (32 * f) < 2 ^ (32 * a.length) := (Nat.div_le_self _ _).trans_lt (magnitude_lt true a)
  obtain ⟨hdigits, hne, hvalue⟩ := decimal_spec hwhole
  obtain ⟨hdigits', hpos, -⟩ := fxFraction_spec h1 (sval a).natAbs
  have hhead := head?_ne_minus_of_digits (upper := false) fun c hc => .inl (hdigits c hc)
  have hparse := parseFx_ok (n := a.length) (f := f) (neg := decide (sval a < 0)) (fun _ => hhead)
    (some (fxFraction f (sval a).natAbs)) hne hdigits (fun e => by simp [Option.some.inj e] at hpos) hdigits'
  have hsign : (if sval a < 0 then -1 else 1) * ((sval a).natAbs : Int) = sval a := by split <;> omega
  simp only [decide_eq_true_eq, hvalue, Option.getD_some, whole_add_fraction h1, hsign, wide_sval] at hparse
  rw [fxText_eq]
  exact hparse

/-- Settles O56: the text stored is the string, and it parses to the value again. -/
theorem fixedTextRoundTrip : Obligations.FixedTextRoundTrip := by
  intro s t rs1 rd f a hcfg hsb ha h1 h2 h3 ht hok
  rw [exec_fxtodec_holds ha h1 h2] at ht
  obtain ⟨htcfg, htext⟩ := text_of_finish_putText_ok hcfg hsb ht hok
  rw [State.CompletesTo, exec_fxfromdec_width rd h1 h2 (htcfg ▸ h3), htext, parseFx_fxText h1]
  rfl

end Sys2Proof.Machine

/-!
# From double to fixed point and back (R164)

FXFROMD of a normal pattern leaves |d|·2^(32F) rounded down. Its leading bit, where anything is left, stands where the exponent field
of d put it, and no 1 bit stands 53 or more places below it, as the mantissa has 53 bits; so FXTOD finds the exponent field again and
drops nothing. The only loss is the rounding down, less than one unit.
-/

namespace Sys2Proof.Machine

open Sys2Proof

/-! ### The scaled mantissa -/

/-- |d|·2^(32F) rounded down, for a normal pattern (R160). -/
def fxMagnitude (f : Nat) (d : BitVec 64) : Nat := (2 ^ 52 + dman d) * 2 ^ (dexp d + 32 * f) / 2 ^ 1075

/-- The leading bit p of a 53-bit mantissa scaled by 2^T / 2^1075 stands 1023 below T. -/
theorem leadingBit_of_scaled {A T p : Nat} (hA1 : 2 ^ 52 ≤ A) (hA2 : A < 2 ^ 53) (hp1 : 2 ^ p ≤ A * 2 ^ T / 2 ^ 1075)
    (hp2 : A * 2 ^ T / 2 ^ 1075 < 2 ^ (p + 1)) : T = p + 1023 := by
  have hpos : 0 < 2 ^ 1075 := pow_pos two_pos _
  rw [Nat.le_div_iff_mul_le hpos, ← pow_add] at hp1
  rw [Nat.div_lt_iff_lt_mul hpos, ← pow_add] at hp2
  have hlow : 2 ^ (52 + T) < 2 ^ (p + 1 + 1075) := by
    rw [pow_add 2 52]
    exact (Nat.mul_le_mul_right _ hA1).trans_lt hp2
  have hhigh : 2 ^ (p + 1075) < 2 ^ (53 + T) := by
    rw [pow_add 2 53]
    exact hp1.trans_lt (Nat.mul_lt_mul_of_pos_right hA2 (Nat.two_pow_pos T))
  have h1 := (Nat.pow_lt_pow_iff_right Nat.one_lt_two).1 hlow
  have h2 := (Nat.pow_lt_pow_iff_right Nat.one_lt_two).1 hhigh
  omega

/-- Below its leading bit p it has no 1 bit but the 52 next to it. -/
theorem two_pow_dvd_scaled (A p : Nat) : 2 ^ p ∣ A * 2 ^ (p + 1023) / 2 ^ 1075 * 2 ^ 52 := by
  have hcancel : A * 2 ^ (p + 1023) / 2 ^ 1075 = A * 2 ^ p / 2 ^ 52 := by
    rw [pow_add, ← mul_assoc, show 1075 = 52 + 1023 from rfl, pow_add 2 52, Nat.mul_div_mul_right _ _ (Nat.two_pow_pos _)]
  rw [hcancel]
  rcases le_total p 52 with hp | hp
  · exact Dvd.dvd.mul_left (pow_dvd_pow 2 hp) _
  · obtain ⟨j, rfl⟩ := Nat.exists_eq_add_of_le hp
    rw [pow_add, mul_left_comm, Nat.mul_div_cancel_left _ (Nat.two_pow_pos 52)]
    exact ⟨A, by ring⟩

/-! ### The numbers of patterns (R17) -/

/-- The sign of a pattern as a number. -/
def dsignum (d : BitVec 64) : Int := if dsign d then -1 else 1

theorem dsignum_cast (d : BitVec 64) : (dsignum d : ℚ) = if dsign d then -1 else 1 := by
  rw [dsignum, apply_ite Int.cast, Int.cast_neg, Int.cast_one]

/-- |d| for a normal pattern. -/
def normalMagnitude (d : BitVec 64) : ℚ := (2 ^ 52 + dman d : Nat) * 2 ^ dexp d / 2 ^ 1075

theorem normalMagnitude_nonneg (d : BitVec 64) : 0 ≤ normalMagnitude d := by
  unfold normalMagnitude
  positivity

theorem doubleValue_normal {d : BitVec 64} (h : dexp d ≠ 0) : doubleValue d = dsignum d * normalMagnitude d := by
  rw [doubleValue, if_neg h, dsignum_cast, normalMagnitude, Nat.cast_add, Nat.cast_pow, Nat.cast_ofNat]

theorem doubleValue_subnormal {d : BitVec 64} (h : dexp d = 0) : doubleValue d = dsignum d * (dman d / 2 ^ 1074) := by
  rw [doubleValue, if_pos h, dsignum_cast]

theorem abs_dsignum_mul (d : BitVec 64) (x : ℚ) : |(dsignum d : ℚ) * x| = |x| := by
  unfold dsignum
  split <;> simp

theorem natAbs_dsignum_mul (d : BitVec 64) (m : Nat) : (dsignum d * m).natAbs = m := by
  unfold dsignum
  split <;> simp

theorem doubleValue_zero : doubleValue 0 = 0 := by
  have h0 : dexp 0 = 0 ∧ dman 0 = 0 := by decide
  rw [doubleValue, if_pos h0.1, h0.2, Nat.cast_zero, zero_div, mul_zero]

/-- |d|·2^(32F) and its rounding down. -/
theorem fxMagnitude_floor (f : Nat) (d : BitVec 64) :
    (fxMagnitude f d : ℚ) ≤ normalMagnitude d * 2 ^ (32 * f) ∧
    normalMagnitude d * 2 ^ (32 * f) < (fxMagnitude f d : ℚ) + 1 := by
  have hvalue : normalMagnitude d * 2 ^ (32 * f) =
      ((2 ^ 52 + dman d) * 2 ^ (dexp d + 32 * f) : Nat) / (2 ^ 1075 : Nat) := by
    rw [normalMagnitude, Nat.cast_mul, Nat.cast_pow, Nat.cast_pow, Nat.cast_ofNat, pow_add, div_mul_eq_mul_div, mul_assoc]
  rw [hvalue, fxMagnitude, ← Nat.floor_div_eq_div (K := ℚ)]
  exact ⟨Nat.floor_le (by positivity), Nat.lt_floor_add_one _⟩

/-- Where |d| is below half the range of the whole part, the value FXFROMD writes is not cut off (R164). -/
theorem sval_wide_fxMagnitude {n f : Nat} {d : BitVec 64} (h : f < n) (hd : dexp d ≠ 0)
    (habs : |doubleValue d| < 2 ^ (32 * (n - f) - 1)) :
    sval (wide n (dsignum d * fxMagnitude f d)) = dsignum d * fxMagnitude f d := by
  have hlt : fxMagnitude f d < 2 ^ (32 * n - 1) := by
    have hpos : (0 : ℚ) < 2 ^ (32 * f) := by positivity
    rw [doubleValue_normal hd, abs_dsignum_mul, abs_of_nonneg (normalMagnitude_nonneg d)] at habs
    have hscaled := (fxMagnitude_floor f d).1.trans_lt (mul_lt_mul_of_pos_right habs hpos)
    rw [← pow_add, show 32 * (n - f) - 1 + 32 * f = 32 * n - 1 by omega] at hscaled
    exact_mod_cast hscaled
  have hlt' : ((fxMagnitude f d : Nat) : Int) < 2 ^ (32 * n - 1) := by exact_mod_cast hlt
  apply sval_wide (by omega) <;> unfold dsignum <;> split <;> linarith

/-! ### The conversion back -/

/-- A magnitude M with K = M·2^52 / 2^p exactly, at the exponent of its leading bit p, is K at the scale of a pattern. -/
theorem pattern_scale {K M p E F b c : Nat} (hK : K * 2 ^ p = M * 2 ^ b) (hE : E + F = p + c) :
    (K : ℚ) * 2 ^ E / 2 ^ (b + c) = M / 2 ^ F := by
  have hK' : (K : ℚ) * 2 ^ p = M * 2 ^ b := by exact_mod_cast hK
  rw [div_eq_div_iff (by positivity) (by positivity), mul_assoc, ← pow_add, hE, pow_add, ← mul_assoc, hK', pow_add, mul_assoc]

/-- The sign of the value is that of the pattern, where the magnitude is not zero. -/
theorem signBit_of_sval {d : BitVec 64} {v : Wide} {m : Nat} (hv : sval v = dsignum d * m) (hm : 0 < m) :
    signBit v = dsign d := by
  rw [Bool.eq_iff_iff, signBit_iff_sval_neg, hv, dsignum]
  cases dsign d
  case false => simp
  case true => simpa using hm

/-- FXTOD converts the value FXFROMD wrote for a normal pattern exactly (R164). -/
theorem fxToDouble_exact {f : Nat} {d : BitVec 64} {v : Wide} (h0 : dexp d ≠ 0) (h2047 : dexp d ≠ 2047)
    (hv : sval v = dsignum d * fxMagnitude f d) :
    ∃ k, fxToDouble f v = some k ∧ doubleValue k = (sval v : ℚ) / 2 ^ (32 * f) := by
  rcases Nat.eq_zero_or_pos (fxMagnitude f d) with hM | hM
  · have hs : sval v = 0 := by rw [hv, hM, Nat.cast_zero, mul_zero]
    have hu : uval v = 0 := by_contra fun h => sval_ne_zero h hs
    exact ⟨0, fxToDouble_zero hu, by rw [doubleValue_zero, hs, Int.cast_zero, zero_div]⟩
  · have hdexp := dexp_lt d
    have hmag : (sval v).natAbs = fxMagnitude f d := by rw [hv, natAbs_dsignum_mul]
    have hp1 := Nat.pow_log_le_self 2 hM.ne'
    have hp2 := Nat.lt_pow_succ_log_self Nat.one_lt_two (fxMagnitude f d)
    generalize Nat.log 2 (fxMagnitude f d) = p at hp1 hp2
    have hT : dexp d + 32 * f = p + 1023 :=
      leadingBit_of_scaled (Nat.le_add_right _ _) (by have := dman_lt d; omega) hp1 hp2
    have hdvd : 2 ^ p ∣ fxMagnitude f d * 2 ^ 52 := by
      rw [fxMagnitude, hT]
      exact two_pow_dvd_scaled _ p
    obtain ⟨hmant, hlow, hhigh⟩ := fxMantissa_eq hp1 hp2
    rw [← hmag] at hp1 hp2
    refine ⟨_, fxToDouble_normal hp1 hp2 (by omega) (by omega), ?_⟩
    rw [show p + 1023 - 32 * f = dexp d by omega, hmag]
    have hman := Nat.mod_lt (fxMantissa (fxMagnitude f d) p) (Nat.two_pow_pos 52)
    have hexp := dexp_dcompose (s := signBit v) hdexp hman
    have hsign : dsignum (dcompose (signBit v) (dexp d) (fxMantissa (fxMagnitude f d) p % 2 ^ 52)) = dsignum d := by
      rw [dsignum, dsignum, dsign_dcompose hdexp hman, signBit_of_sval hv hM]
    have hK : 2 ^ 52 + fxMantissa (fxMagnitude f d) p % 2 ^ 52 = fxMagnitude f d * 2 ^ 52 / 2 ^ p := by omega
    rw [doubleValue_normal (by rwa [hexp]), normalMagnitude, hsign, hexp, dman_dcompose hman, hK, show 1075 = 52 + 1023 from rfl,
      pattern_scale (Nat.div_mul_cancel hdvd) hT, hv, Int.cast_mul, Int.cast_natCast, mul_div_assoc]

/-- The value written for a normal pattern is within one unit of it (R164). -/
theorem abs_scaled_sub_doubleValue_lt {d : BitVec 64} (f : Nat) (hd : dexp d ≠ 0) :
    |((dsignum d * fxMagnitude f d : Int) : ℚ) / 2 ^ (32 * f) - doubleValue d| < 1 / 2 ^ (32 * f) := by
  obtain ⟨hlow, hhigh⟩ := fxMagnitude_floor f d
  have hpos : (0 : ℚ) < 2 ^ (32 * f) := by positivity
  rw [doubleValue_normal hd, Int.cast_mul, Int.cast_natCast, mul_div_assoc, ← mul_sub, abs_dsignum_mul, abs_lt]
  rw [← div_le_iff₀ hpos] at hlow
  rw [← lt_div_iff₀ hpos, add_div] at hhigh
  constructor <;> linarith

/-- A pattern with exponent field 0 stands for zero, or for a number below one unit up to F = 31 (R164). -/
theorem abs_doubleValue_subnormal_lt {d : BitVec 64} {f : Nat} (hd : dexp d = 0) (h : dman d = 0 ∨ f ≤ 31) :
    |doubleValue d| < 1 / 2 ^ (32 * f) := by
  have hnonneg : (0 : ℚ) ≤ dman d / 2 ^ 1074 := by positivity
  rw [doubleValue_subnormal hd, abs_dsignum_mul, abs_of_nonneg hnonneg]
  rcases h with h | h
  · rw [h, Nat.cast_zero, zero_div]
    positivity
  · rw [div_lt_div_iff₀ (by positivity) (by positivity), one_mul]
    have hman : (dman d : ℚ) < 2 ^ 52 := by exact_mod_cast dman_lt d
    calc (dman d : ℚ) * 2 ^ (32 * f) < 2 ^ 52 * 2 ^ (32 * f) := mul_lt_mul_of_pos_right hman (by positivity)
      _ = 2 ^ (52 + 32 * f) := (pow_add _ _ _).symm
      _ ≤ 2 ^ 1074 := pow_le_pow_right₀ one_le_two (by omega)

/-- Settles O53: FXFROMD writes zero or the scaled mantissa, FXTOD converts either exactly, and the error is that of rounding
down. -/
theorem doubleRoundTrip : Obligations.DoubleRoundTrip := by
  intro s t rd n f d h1 h2 h3 h2047 habs ht
  have hback : ∀ v : Wide, v.length = n → fxFromDouble n f d = some v → t.Holds rd v ∧
      ∀ k, fxToDouble f v = some k → t.CompletesTo (.fxtod rd f) (t.withRes k) := by
    intro v hlen hv
    cases (exec_fxfromd_some rd h1 h2 h3 hv).symm.trans ht
    have hholds : (s.withX rd v).completeOk.Holds rd v := State.writeX_get_self s rd v
    exact ⟨hholds, fun k hk => exec_fxtod_some hholds h1 (hlen ▸ h2) hk⟩
  by_cases hd : dexp d = 0
  · obtain ⟨hholds, hcompletes⟩ := hback _ (length_wide n 0) (fxFromDouble_zero hd)
    have hs : sval (wide n 0) = 0 := sval_wide (by omega) (by simp) (by positivity)
    have hu : uval (wide n 0) = 0 := by_contra fun h => sval_ne_zero h hs
    refine ⟨_, 0, hholds, length_wide n 0, hcompletes 0 (fxToDouble_zero hu), ?_, fun h => ?_⟩
    · rw [doubleValue_zero, hs, Int.cast_zero, zero_div]
    · rw [doubleValue_zero, zero_sub, abs_neg]
      exact abs_doubleValue_subnormal_lt hd (h.resolve_left fun hne => hne hd)
  · obtain ⟨hholds, hcompletes⟩ := hback _ (length_wide n _) (fxFromDouble_normal (by omega) hd h2047)
    have hs := sval_wide_fxMagnitude h2 hd habs
    obtain ⟨k, hk, hvalue⟩ := fxToDouble_exact hd h2047 hs
    refine ⟨_, k, hholds, length_wide n _, hcompletes k hk, hvalue, fun _ => ?_⟩
    rw [hvalue, hs]
    exact abs_scaled_sub_doubleValue_lt f hd

end Sys2Proof.Machine
